-- ==== Sys2Proof/Word.lean ====
section
/-! DEFINITION. The word, the address and the shape of memory (00_scope.md R8, R9; 20_memory.md R35). A word is a
mathematical integer, written `Int` (R8, D1); an address is a natural number with no upper bound, written `Nat`
(R8, R33); `pc` and `rb` are `Int` (R17, R18). -/

namespace Sys2Proof

/-- One memory cell: its address and the whole word it holds (R35). The host's `Host.Cell` holds a byte,
which cannot hold a word of this hardware: log 1. -/
abbrev Cell := Nat × Int

/-- Memory as data: the non-zero cells, addresses rising (R25, R34; log 1). -/
abbrev Memory := List Cell

end Sys2Proof
end

