-- ==== Sys2Proof/Machine/Memory.lean ====
section
/-! DEFINITION. The memory unit (20_memory.md R31 to R34): a total function from ℕ to ℤ held as the list of its
non-zero cells, addresses strictly rising. -/

namespace Sys2Proof

/-- What a cell that has never been written reads as (R31). -/
def Memory.unwritten : Int := 0

/-- `mem[a]` at a natural address (R25, R31). -/
def Memory.get : Memory → Nat → Int
  | [], _ => Memory.unwritten
  | (b, v) :: rest, a => if a = b then v else Memory.get rest a

/-- `mem[a] <- v` at a natural address, keeping the canonical form: writing what an unwritten cell reads as removes
the entry (R32, R34). -/
def Memory.set : Memory → Nat → Int → Memory
  | [], a, v => if v = Memory.unwritten then [] else [(a, v)]
  | (b, w) :: rest, a, v =>
    if a < b then (if v = Memory.unwritten then (b, w) :: rest else (a, v) :: (b, w) :: rest)
    else if a = b then (if v = Memory.unwritten then rest else (a, v) :: rest)
    else (b, w) :: Memory.set rest a v

/-- The canonical form: addresses strictly rising, and no cell holds what an unlisted address reads as. -/
abbrev Memory.wf (m : Memory) : Prop :=
  m.Pairwise (fun x y => x.1 < y.1) ∧ ∀ c ∈ m, c.2 ≠ Memory.unwritten

/-- `MemRead(a, 1)`: `none` is `InvalidAddress` (R31). -/
def Memory.read (m : Memory) (a : Int) : Option Int :=
  if a < 0 then none else some (m.get a.toNat)

/-- `MemWrite(a, 1, v)`: `none` is `InvalidAddress` with memory unchanged (R32). -/
def Memory.write (m : Memory) (a : Int) (v : Int) : Option Memory :=
  if a < 0 then none else some (m.set a.toNat v)

/-- Write the words of a list at consecutive addresses from `a`. -/
def Memory.load : Memory → Nat → List Int → Memory
  | m, _, [] => m
  | m, a, w :: ws => Memory.load (m.set a w) (a + 1) ws

/-- The memory a program is loaded into: cell `i` holds its `i`-th word, every other cell 0 (R39). -/
def Memory.ofProgram (prog : List Int) : Memory := Memory.load [] 0 prog

end Sys2Proof
end

