-- ==== Sys2Proof/Config.lean ====
section
/-! DEFINITION. The parameters of the block (00_scope.md R8; 60_exceptions.md R92 to R97) as plain data, and the
uninterpreted part of a router. 10_state.md R27: these are parameters of the step, not state; log 2. -/

namespace Sys2Proof

/-- Where one delivered value goes: `Dest = Queue q | Host` (R97). -/
inductive Dest where
  | queue (q : Nat)
  | host
deriving DecidableEq, Repr

/-- A router's state ρ_i. R97 lets Σ be any type; words listed as integers stand for it (log 10). -/
abbrev RouterState := List Int

/-- One point of a router's `onSend`: in state `before`, value `value` leads to `after` and delivers `sends`. -/
structure RouterRow where
  before : RouterState
  value  : Int
  after  : RouterState
  sends  : List (Dest × Int)
deriving DecidableEq, Repr

/-- A router `(Σ, σ0, onSend, pending)` (R97). `onSend` and `pending` are total functions: the listed rows are
their values at those points, and at every other point the value is the uninterpreted `Config.onSend id` and
`Config.pending id` (log 10). -/
structure Router where
  id          : Nat
  init        : RouterState
  rows        : List RouterRow
  pendingRows : List (RouterState × Bool)
deriving DecidableEq, Repr

/-- A machine's output binding (R93). -/
inductive Output where
  | queue (q : Nat)
  | host
  | router (r : Router)
deriving DecidableEq, Repr

/-- What a receive on an empty queue does (R96). -/
inductive Discipline where
  | blocking
  | polling
deriving DecidableEq, Repr

/-- What the orchestrator does when a machine faults (R103). -/
inductive FaultPolicy where
  | abortAll
  | isolate
deriving DecidableEq, Repr

/-- What follows network quiescence (R102). -/
inductive OnIdle where
  | terminate
  | report
deriving DecidableEq, Repr

/-- Who may append to a queue (R92). -/
inductive Producer where
  | machine (i : Nat)
  | router (i : Nat)
  | host
deriving DecidableEq, Repr

/-- One queue's configuration: its discipline (default `Blocking`, R96), its declared producers (R92) and its
contents at launch (default empty, R8). -/
structure QueueParams where
  discipline : Discipline := .blocking
  producers  : List Producer := []
  init       : List Int := []
deriving DecidableEq, Repr

/-- One machine's configuration: its program, the queue it receives from and its output binding (R8, R22). -/
structure MachineParams where
  prog   : List Int := []
  input  : Nat := 0
  output : Output := .host
deriving DecidableEq, Repr

/-- The parameters of R8. The two OPEN ones hold `none` while they are not chosen (log 11, 12); Params.problem refuses
a system without `faultPolicy`, and one with a `Polling` queue and no `noDataValue` (R109). -/
structure Params where
  machines       : List MachineParams
  queues         : List QueueParams
  noDataValue    : Option Int := none
  idlePolls      : Nat := 1
  atomicDelivery : Bool := false
  faultPolicy    : Option FaultPolicy := none
  onIdle         : OnIdle := .terminate
deriving DecidableEq, Repr

/-- One machine with the empty program, fed by the host through one `Blocking` queue, its output to the host, faults
isolated: the system `State.reset` holds (log 13). -/
def Params.single : Params where
  machines := [{ prog := [], input := 0, output := .host }]
  queues := [{ discipline := .blocking, producers := [.host], init := [] }]
  faultPolicy := some .isolate

/-- A router's `onSend` where its rows say nothing: a model argument (R97), so uninterpreted (log 10). -/
opaque Config.onSend (id : Nat) (σ : RouterState) (v : Int) : RouterState × List (Dest × Int)

/-- A router's `pending` where its rows say nothing: a model argument (R97), so uninterpreted (log 10). -/
opaque Config.pending (id : Nat) (σ : RouterState) : Bool

end Sys2Proof
end

