-- ==== Sys2Proof/Syntax.lean ====
section
/-! DEFINITION. Decoded instructions: one constructor for each row of spec/opcode_table.json (30_encoding.md R51,
R63). An operand holds its addressing mode and its parameter word. The two operand types hold exactly the modes
their role admits (R55, R56), so every term of `Instr` is a legal instruction. -/

namespace Sys2Proof

/-- The four fault kinds (60_exceptions.md R83). -/
inductive FaultKind where
  | invalidAddress
  | unknownOpcode
  | invalidWriteMode
  | unknownMode
deriving DecidableEq, Repr

/-- The addressing mode of a read-role parameter (R55). -/
inductive ReadMode where
  | position
  | immediate
  | relative
deriving DecidableEq, Repr

/-- The addressing mode of a write-role parameter: the default, where the literal is the target (the spec calls it
`Immediate`), or relative (R56). -/
inductive WriteMode where
  | literal
  | relative
deriving DecidableEq, Repr

/-- A read-role operand: mode and parameter word. -/
structure ReadOp where
  mode : ReadMode
  word : Int
deriving DecidableEq, Repr

/-- A write-role operand: mode and parameter word. -/
structure WriteOp where
  mode : WriteMode
  word : Int
deriving DecidableEq, Repr

/-- The instruction set (R63). -/
inductive Instr where
  /-- ADD, opcode 1 (R71). -/
  | add (a b : ReadOp) (t : WriteOp)
  /-- MUL, opcode 2 (R72). -/
  | mul (a b : ReadOp) (t : WriteOp)
  /-- IN, opcode 3 (R73). -/
  | inp (t : WriteOp)
  /-- OUT, opcode 4 (R75). -/
  | out (a : ReadOp)
  /-- JNZ, opcode 5 (R76). -/
  | jnz (a b : ReadOp)
  /-- JZ, opcode 6 (R77). -/
  | jz (a b : ReadOp)
  /-- LT, opcode 7 (R79). -/
  | lt (a b : ReadOp) (t : WriteOp)
  /-- EQ, opcode 8 (R80). -/
  | eq (a b : ReadOp) (t : WriteOp)
  /-- ARB, opcode 9 (R81). -/
  | arb (a : ReadOp)
  /-- HLT, opcode 99 (R82). -/
  | hlt
deriving DecidableEq, Repr

end Sys2Proof
end

