-- ==== Sys2Proof/WellFormed.lean ====
section
/-! DEFINITION. What the spec refuses before a system runs (70_reset_and_hazards.md R109; 93_implementation_defined.md
UD8, UD9). Every term of `Instr` is well formed by its type (Syntax.lean), so the checks here are about a system's
parameters. -/

namespace Sys2Proof

/-- Why a system's parameters are refused (log 15). -/
inductive ConfigProblem where
  /-- A system is `N ≥ 1` machines (10_state.md R26). -/
  | noMachine
  /-- A machine's input binding is exactly one queue (60_exceptions.md R92): this one names none. -/
  | inputNotAQueue
  /-- Two machines' inputs are bound to one queue (R94, UD8). -/
  | sharedInput
  /-- A queue that is no machine's input: each queue has exactly one consumer (R94, R109). -/
  | queueWithoutConsumer
  /-- A machine's output is wired to a queue that does not list it as a producer (R92, R93). -/
  | outputNotDeclared
  /-- A `Polling` queue with `noDataValue` not given (UD9). -/
  | noDataValueMissing
  /-- `faultPolicy` not given: the parameters of R8 must be chosen before the first step (R109). -/
  | faultPolicyMissing
  /-- The state does not hold one entry for each machine and each queue of the parameters. -/
  | stateShape
deriving DecidableEq, Repr

/-- The input queue of each machine. -/
def Params.inputs (p : Params) : List Nat := p.machines.map (·.input)

/-- Whether machine `i`'s output binding is declared: a queue it is wired to lists it as a producer (R92). -/
def Params.outputDeclared (p : Params) (i : Nat) (m : MachineParams) : Bool :=
  match m.output with
  | .queue q => match p.queues[q]? with
    | some qp => qp.producers.contains (.machine i)
    | none => false
  | .host => true
  | .router _ => true

/-- The first reason to refuse the parameters, or `none` where the system may run (R109). -/
def Params.problem (p : Params) : Option ConfigProblem :=
  if p.machines.isEmpty then some .noMachine
  else if p.inputs.any (fun q => decide (p.queues.length ≤ q)) then some .inputNotAQueue
  else if ¬ p.inputs.Nodup then some .sharedInput
  else if (List.range p.queues.length).any (fun q => ! p.inputs.contains q) then some .queueWithoutConsumer
  else if p.machines.zipIdx.any (fun mi => ! p.outputDeclared mi.2 mi.1) then some .outputNotDeclared
  else if p.noDataValue.isNone && p.queues.any (fun qp => decide (qp.discipline = .polling)) then
    some .noDataValueMissing
  else if p.faultPolicy.isNone then some .faultPolicyMissing
  else none

/-- The parameters of a system that may run (R109). -/
abbrev Params.wf (p : Params) : Prop := p.problem = none

end Sys2Proof
end

