-- ==== Sys2Proof/Machine/State.lean ====
section
/-! DEFINITION. The state of a system of machines (10_state.md R15, R26), what can stop the model, and the state
after reset (R30). All of it is plain data. -/

namespace Sys2Proof.Machine

/-- The status of one machine (R19). A waiting machine is `running`. -/
inductive Status where
  | running
  | halted
  | faulted (kind : FaultKind) (pc : Int)
deriving DecidableEq, Repr

/-- One machine's state: the tuple of R15, and the state ρ of its router (R26), empty where it has none. -/
structure MachineState where
  mem    : Memory
  pc     : Int
  rb     : Int
  status : Status
  noData : Nat
  outbox : List (Dest × Int)
  router : RouterState
deriving DecidableEq, Repr

/-- One choice of the schedule, or one step of the host (60_exceptions.md R99, R106). -/
inductive Event where
  /-- Machine `i`'s instruction step. -/
  | machine (i : Nat)
  /-- Machine `i`'s delivery step (R98). -/
  | deliver (i : Nat)
  /-- The orchestrator's step (R102, R103). -/
  | orchestrator
  /-- The host appends a word to a queue (R106). -/
  | hostAppend (q : Nat) (v : Int)
  /-- The host ends the whole system (R107). -/
  | teardown
deriving DecidableEq, Repr

/-- A system of machines (R26). `params`, `cur` and `agenda` are the model's own fields: the parameters of
00_scope.md R8 (log 2), the machine the next instruction belongs to (log 5), and the choices still to come (log 3). -/
structure State where
  params   : Params
  machines : List MachineState
  queues   : List (List Int)
  hostOut  : List (Nat × Int)
  quiesced : Bool
  aborted  : Bool
  tornDown : Bool
  cur      : Nat
  agenda   : List Event
deriving DecidableEq, Repr

/-- How a run ends (70_reset_and_hazards.md R116). -/
inductive RunEnd where
  | aborted
  | faulted
  | tornDown
  | quiesced
  | allHalted
  | deadlock
deriving DecidableEq, Repr

/-- Why the whole system stops. A fault of one machine is none of these: it is a next state in which that machine is
`faulted` (60_exceptions.md R85). -/
inductive Fault where
  /-- Raised by `step` in a state in which no agent has an enabled step: the run has ended, and how (R116; UD10 and
  UD11, 'stuck'). Safe: the spec gives such a state no step. -/
  | runEnded (how : RunEnd)
deriving DecidableEq, Repr

/-- What the model does not accept. -/
inductive Refusal where
  /-- Raised by `exec` for an instruction without a meaning. No arm raises it. Safe. -/
  | notModelled (mnemonic : String)
  /-- Raised by `step` for a system the spec refuses before it runs (R109, UD8, UD9; log 15). Safe. -/
  | illFormedSystem (why : ConfigProblem)
  /-- Raised by IN at an empty `Polling` queue where the OPEN parameter `noDataValue` is not chosen (UD9; log 11);
  `step` refuses such a system before. Safe. -/
  | noDataValueNotChosen
  /-- Raised by the orchestrator's step when a machine has faulted and the OPEN parameter `faultPolicy` is not chosen
  (R103; log 12); `step` refuses such a system before. Safe. -/
  | faultPolicyNotChosen
  /-- Raised by OUT when its router appends to a queue of which it is no declared producer (R97; log 16). Safe. -/
  | undeclaredProducer
deriving DecidableEq, Repr

/-- A machine after construction (R30, R108), given its memory and its router's initial state. -/
def MachineState.fresh (mem : Memory) (router : RouterState) : MachineState where
  mem := mem
  pc := 0
  rb := 0
  status := .running
  noData := 0
  outbox := []
  router := router

/-- The machine right after reset (R30): one machine with the empty program, nothing in its queue (log 13). -/
def State.reset : State where
  params := Params.single
  machines := [MachineState.fresh [] []]
  queues := [[]]
  hostOut := []
  quiesced := false
  aborted := false
  tornDown := false
  cur := 0
  agenda := []

end Sys2Proof.Machine
end

