-- ==== Sys2Proof/Machine/Ops.lean ====
section
/-! DEFINITION. The named operations over a system's state: machines, queues, delivery, sending, fault entry, and
the two ways an instruction completes. -/

namespace Sys2Proof.Machine

/-- The outcome of a step of this model. -/
abbrev Result := Host.Outcome State Fault Refusal

/-- Machine `i`; an index that is no machine's reads as a fresh one with an empty memory (log 5). -/
def State.machine (s : State) (i : Nat) : MachineState := s.machines.getD i (MachineState.fresh [] [])

/-- Replace machine `i`. -/
def State.setMachine (s : State) (i : Nat) (m : MachineState) : State :=
  { s with machines := s.machines.set i m }

/-- The machine whose instruction is being executed. -/
def State.me (s : State) : MachineState := s.machine s.cur

/-- Replace the machine whose instruction is being executed. -/
def State.setMe (s : State) (m : MachineState) : State := s.setMachine s.cur m

/-- The configuration of machine `i` (R22). -/
def State.machineParams (s : State) (i : Nat) : MachineParams := s.params.machines.getD i {}

/-- The configuration of queue `q` (R96). -/
def State.queueParams (s : State) (q : Nat) : QueueParams := s.params.queues.getD q {}

/-- The index of machine `i`'s input queue `Q_in(i)` (R92). -/
def State.inputOf (s : State) (i : Nat) : Nat := (s.machineParams i).input

/-- The output binding of machine `i` (R93). -/
def State.outputOf (s : State) (i : Nat) : Output := (s.machineParams i).output

/-- The discipline of machine `i`'s input queue (R96). -/
def State.disciplineOf (s : State) (i : Nat) : Discipline := (s.queueParams (s.inputOf i)).discipline

/-- The contents of queue `q`, head first (R94). -/
def State.queue (s : State) (q : Nat) : List Int := s.queues.getD q []

/-- Replace the contents of queue `q`. -/
def State.setQueue (s : State) (q : Nat) (vs : List Int) : State := { s with queues := s.queues.set q vs }

/-- What is in machine `i`'s input queue. -/
def State.inputQueue (s : State) (i : Nat) : List Int := s.queue (s.inputOf i)

/-- Append at the tail (R94). Under `onIdle = Report` an append to any queue takes `quiesced` back to false (R102). -/
def State.enqueue (s : State) (q : Nat) (v : Int) : State :=
  { s.setQueue q (s.queue q ++ [v]) with quiesced := s.quiesced && decide (s.params.onIdle = .terminate) }

/-- `Deliver(d, x)` for a value of machine `i` (R93). -/
def State.deliver (s : State) (i : Nat) (d : Dest) (x : Int) : State :=
  match d with
  | .queue q => s.enqueue q x
  | .host => { s with hostOut := s.hostOut ++ [(i, x)] }

/-- Deliver a list in order, in one step (R93 with `atomicDelivery`). -/
def State.deliverAll (s : State) (i : Nat) : List (Dest × Int) → State
  | [] => s
  | (d, x) :: ds => (s.deliver i d x).deliverAll i ds

/-- Fault entry (R85): `status <- Faulted(F, PC)`. `pc`, `rb` and memory stay; there is no handler and no return
(R86), so the machine never leaves this status. -/
def raise (k : FaultKind) (s : State) : Result :=
  .next (s.setMe { s.me with status := .faulted k s.me.pc })

/-- The step of an instruction that takes no jump: `pc <- PC + len` (R61). -/
def State.advancePc (s : State) (len : Nat) : State := s.setMe { s.me with pc := s.me.pc + (len : Int) }

/-- `MemWrite(tgt, 1, v)`, then the advance (R32, R61). -/
def storeAndAdvance (tgt : Int) (v : Int) (len : Nat) (s : State) : Result :=
  match s.me.mem.write tgt v with
  | none => raise .invalidAddress s
  | some mem' => .next (s.setMe { s.me with mem := mem', pc := s.me.pc + (len : Int) })

/-- `route.onSend` at one point (R97): a listed row, else the uninterpreted function (log 10). -/
def routerOnSend (r : Router) (σ : RouterState) (v : Int) : RouterState × List (Dest × Int) :=
  match r.rows.find? (fun row => decide (row.before = σ ∧ row.value = v)) with
  | some row => (row.after, row.sends)
  | none => Config.onSend r.id σ v

/-- `route.pending` at one point (R97): a listed row, else the uninterpreted function (log 10). -/
def routerPending (r : Router) (σ : RouterState) : Bool :=
  match r.pendingRows.find? (fun row => decide (row.1 = σ)) with
  | some row => row.2
  | none => Config.pending r.id σ

/-- Whether machine `i`'s router may deliver there: to the host, or to a queue that lists it as a producer (R97). -/
def State.routerMaySend (s : State) (i : Nat) (d : Dest) : Bool :=
  match d with
  | .queue q => decide (q < s.queues.length) && (s.queueParams q).producers.contains (.router i)
  | .host => true

/-- `Send(v)` of machine `s.cur` at its output binding (R93). -/
def send (v : Int) (s : State) : Result :=
  match s.outputOf s.cur with
  | .queue q => .next (s.enqueue q v)
  | .host => .next { s with hostOut := s.hostOut ++ [(s.cur, v)] }
  | .router r =>
    let sent := routerOnSend r s.me.router v
    if sent.2.all (fun dx => s.routerMaySend s.cur dx.1) then
      if s.params.atomicDelivery then
        .next ((s.setMe { s.me with router := sent.1 }).deliverAll s.cur sent.2)
      else
        .next (s.setMe { s.me with router := sent.1, outbox := s.me.outbox ++ sent.2 })
    else .refused .undeclaredProducer

/-- Go on with the next state of an outcome, or stop as it stopped. -/
def andThen (o : Result) (k : State → Result) : Result :=
  match o with
  | .next s => k s
  | .fault f => .fault f
  | .refused r => .refused r

end Sys2Proof.Machine
end

