-- ==== Sys2Proof/Machine/Operands.lean ====
section
/-! DEFINITION. Operand resolution (30_encoding.md R58), in every addressing mode. -/

namespace Sys2Proof.Machine

/-- `ResolveRead` (R58): the value of a read operand; `none` is `InvalidAddress`. -/
def readOperand (m : MachineState) (o : ReadOp) : Option Int :=
  match o.mode with
  | .position => m.mem.read o.word
  | .immediate => some o.word
  | .relative => m.mem.read (m.rb + o.word)

/-- `ResolveWrite` (R58): the target address, not checked here. -/
def targetAddr (m : MachineState) (o : WriteOp) : Int :=
  match o.mode with
  | .literal => o.word
  | .relative => m.rb + o.word

/-- Resolve one read operand and go on with its value; a negative address raises `InvalidAddress` (R58, R84). -/
def withOperand (a : ReadOp) (s : State) (k : Int → Result) : Result :=
  match readOperand s.me a with
  | some v => k v
  | none => raise .invalidAddress s

/-- Resolve two read operands, the first one first (R60, R84). -/
def withOperands (a b : ReadOp) (s : State) (k : Int → Int → Result) : Result :=
  withOperand a s fun x => withOperand b s fun y => k x y

/-- The shape of ADD, MUL, LT and EQ: resolve both operands, compute, write the result to the target, advance by 4
(R60, R71). -/
def computeAndStore (f : Int → Int → Int) (a b : ReadOp) (t : WriteOp) (s : State) : Result :=
  withOperands a b s fun x y => storeAndAdvance (targetAddr s.me t) (f x y) 4 s

end Sys2Proof.Machine
end

