-- ==== Sys2Proof/Machine/Arith.lean ====
section
/-! DEFINITION. Arithmetic, exact on ℤ (40_arith.md R70): ADD and MUL. -/

namespace Sys2Proof.Machine

/-- ADD (R71): `MemWrite(tgt, 1, val[1] + val[2])`. -/
def execAdd (a b : ReadOp) (t : WriteOp) (s : State) : Result := computeAndStore (fun x y => x + y) a b t s

/-- MUL (R72): `MemWrite(tgt, 1, val[1] * val[2])`. -/
def execMul (a b : ReadOp) (t : WriteOp) (s : State) : Result := computeAndStore (fun x y => x * y) a b t s

end Sys2Proof.Machine
end

