-- ==== Sys2Proof/Machine/Flags.lean ====
section
/-! DEFINITION. The block has no flags, condition codes or predicates (10_state.md R20): the comparisons write the
word 1 or 0 into memory. -/

namespace Sys2Proof.Machine

/-- The result word of a comparison: 1 if it holds, else 0 (R20, R79, R80). -/
def truthWord (p : Bool) : Int := if p then 1 else 0

end Sys2Proof.Machine
end

