-- ==== Sys2Proof/Machine/Compare.lean ====
section
/-! DEFINITION. Comparisons on ℤ (43_compare.md): LT and EQ. -/

namespace Sys2Proof.Machine

/-- LT (R79): `MemWrite(tgt, 1, if val[1] < val[2] then 1 else 0)`. -/
def execLt (a b : ReadOp) (t : WriteOp) (s : State) : Result :=
  computeAndStore (fun x y => truthWord (decide (x < y))) a b t s

/-- EQ (R80): `MemWrite(tgt, 1, if val[1] = val[2] then 1 else 0)`. -/
def execEq (a b : ReadOp) (t : WriteOp) (s : State) : Result :=
  computeAndStore (fun x y => truthWord (decide (x = y))) a b t s

end Sys2Proof.Machine
end

