-- ==== Sys2Proof/Machine/Halt.lean ====
section
/-! DEFINITION. Halt (45_halt.md): HLT. -/

namespace Sys2Proof.Machine

/-- HLT (R82): `status <- Halted`; `pc`, `rb` and memory stay, no parameter is read. -/
def execHlt (s : State) : Result := .next (s.setMe { s.me with status := .halted })

end Sys2Proof.Machine
end

