-- ==== Sys2Proof/Machine/Jump.lean ====
section
/-! DEFINITION. Conditional jumps (42_jump.md): JNZ and JZ. -/

namespace Sys2Proof.Machine

/-- `pc <- t` where the jump is taken, else `pc <- PC + 3`. The target is not checked (R78). -/
def jumpIf (taken : Int → Bool) (a b : ReadOp) (s : State) : Result :=
  withOperands a b s fun x y =>
    if taken x then .next (s.setMe { s.me with pc := y }) else .next (s.advancePc 3)

/-- JNZ (R76): jump if the condition is not 0. -/
def execJnz (a b : ReadOp) (s : State) : Result := jumpIf (fun x => decide (x ≠ 0)) a b s

/-- JZ (R77): jump if the condition is 0. -/
def execJz (a b : ReadOp) (s : State) : Result := jumpIf (fun x => decide (x = 0)) a b s

end Sys2Proof.Machine
end

