-- ==== Sys2Proof/Machine/PortIO.lean ====
section
/-! DEFINITION. Input and output (41_io.md): IN and OUT at the machine's ports. -/

namespace Sys2Proof.Machine

/-- IN (R73, R74). A value in the queue is taken, then written. An empty `Polling` queue counts a no-data poll and
writes `noDataValue`. At an empty `Blocking` queue the machine waits: its state stays exactly as it was (log 6). -/
def execInp (t : WriteOp) (s : State) : Result :=
  match s.inputQueue s.cur with
  | v :: vs =>
    let taken := (s.setQueue (s.inputOf s.cur) vs).setMe { s.me with noData := 0 }
    storeAndAdvance (targetAddr s.me t) v 2 taken
  | [] =>
    match s.disciplineOf s.cur with
    | .polling =>
      match s.params.noDataValue with
      | some d => storeAndAdvance (targetAddr s.me t) d 2 (s.setMe { s.me with noData := s.me.noData + 1 })
      | none => .refused .noDataValueNotChosen
    | .blocking => .next s

/-- OUT (R75): `noData <- 0`, `Send(val[1])`, then `pc <- PC + 2`. It never waits. -/
def execOut (a : ReadOp) (s : State) : Result :=
  withOperand a s fun v =>
    andThen (send v (s.setMe { s.me with noData := 0 })) fun s' => .next (s'.advancePc 2)

end Sys2Proof.Machine
end

