-- ==== Sys2Proof/Machine/RelBase.lean ====
section
/-! DEFINITION. Relative-base adjustment (44_relbase.md): ARB. -/

namespace Sys2Proof.Machine

/-- ARB (R81): `rb <- rb + val[1]`, the operand resolved with `rb` before the update; the new `rb` is not checked. -/
def execArb (a : ReadOp) (s : State) : Result :=
  withOperand a s fun v => .next (s.setMe { s.me with rb := s.me.rb + v, pc := s.me.pc + 2 })

end Sys2Proof.Machine
end

