-- ==== Sys2Proof/Decode.lean ====
section
/-! DEFINITION. The decoder and the encoder (30_encoding.md R50 to R60, R64, R68). The encoding is decimal. -/

namespace Sys2Proof

/-- The decimal digit selector `digit(w, k) = (w div 10^k) mod 10`; digit 0 is the least significant (00_scope.md R9). -/
def digit (w k : Nat) : Nat := w / 10 ^ k % 10

/-- The mode of read-role parameter `i` of word `w`: `DecodeMode` of R60 with role `Read` (R54, R55). -/
def decodeReadMode (w i : Nat) : Except FaultKind ReadMode :=
  match digit w (i + 1) with
  | 0 => .ok .position
  | 1 => .ok .immediate
  | 2 => .ok .relative
  | _ => .error .unknownMode

/-- The mode of write-role parameter `i` of word `w`: `DecodeMode` of R60 with role `Write` (R53, R54, R56). The
digit is explicit iff `w ≥ 10^(i+1)`. -/
def decodeWriteMode (w i : Nat) : Except FaultKind WriteMode :=
  if 2 < digit w (i + 1) then .error .unknownMode
  else if w < 10 ^ (i + 1) then .ok .literal
  else if digit w (i + 1) = 2 then .ok .relative
  else .error .invalidWriteMode

/-- Format RRW (R51): modes in parameter order, then the parameter words. -/
def decodeRRW (mk : ReadOp → ReadOp → WriteOp → Instr) (w : Nat) (p : Nat → Int) : Except FaultKind Instr :=
  match decodeReadMode w 1 with
  | .error e => .error e
  | .ok m1 => match decodeReadMode w 2 with
    | .error e => .error e
    | .ok m2 => match decodeWriteMode w 3 with
      | .error e => .error e
      | .ok m3 => .ok (mk ⟨m1, p 1⟩ ⟨m2, p 2⟩ ⟨m3, p 3⟩)

/-- Format RR (R51). -/
def decodeRR (mk : ReadOp → ReadOp → Instr) (w : Nat) (p : Nat → Int) : Except FaultKind Instr :=
  match decodeReadMode w 1 with
  | .error e => .error e
  | .ok m1 => match decodeReadMode w 2 with
    | .error e => .error e
    | .ok m2 => .ok (mk ⟨m1, p 1⟩ ⟨m2, p 2⟩)

/-- Format R (R51). -/
def decodeR (mk : ReadOp → Instr) (w : Nat) (p : Nat → Int) : Except FaultKind Instr :=
  match decodeReadMode w 1 with
  | .error e => .error e
  | .ok m1 => .ok (mk ⟨m1, p 1⟩)

/-- Format W (R51). -/
def decodeW (mk : WriteOp → Instr) (w : Nat) (p : Nat → Int) : Except FaultKind Instr :=
  match decodeWriteMode w 1 with
  | .error e => .error e
  | .ok m1 => .ok (mk ⟨m1, p 1⟩)

/-- The decoder of R60: `w` is the instruction word and `p i` the `i`-th parameter word after it. Total: a word
that encodes no instruction is refused with the fault kind it raises (R64). A negative word encodes none (R50). -/
def decode (w : Int) (p : Nat → Int) : Except FaultKind Instr :=
  if w < 0 then .error .unknownOpcode
  else
    let n := w.toNat
    let op := n % 100
    if op = 1 then decodeRRW .add n p
    else if op = 2 then decodeRRW .mul n p
    else if op = 3 then decodeW .inp n p
    else if op = 4 then decodeR .out n p
    else if op = 5 then decodeRR .jnz n p
    else if op = 6 then decodeRR .jz n p
    else if op = 7 then decodeRRW .lt n p
    else if op = 8 then decodeRRW .eq n p
    else if op = 9 then decodeR .arb n p
    else if op = 99 then .ok .hlt
    else .error .unknownOpcode

/-- Decode a list of words, the instruction word first; a word beyond the list reads 0, as an unwritten cell does
(92_eei_decisions.md D31). -/
def decodeWords (ws : List Int) : Except FaultKind Instr :=
  decode (ws.getD 0 0) (fun i => ws.getD i 0)

/-- The opcode of an instruction (R63). -/
def Instr.opcode : Instr → Nat
  | .add .. => 1
  | .mul .. => 2
  | .inp .. => 3
  | .out .. => 4
  | .jnz .. => 5
  | .jz .. => 6
  | .lt .. => 7
  | .eq .. => 8
  | .arb .. => 9
  | .hlt => 99

/-- The mode digit of a read operand (R54, R68). -/
def ReadMode.digit : ReadMode → Nat
  | .position => 0
  | .immediate => 1
  | .relative => 2

/-- The mode digit of a write operand; the default write has digit 0, which is never written (R68). -/
def WriteMode.digit : WriteMode → Nat
  | .literal => 0
  | .relative => 2

/-- The mode digits of an instruction's operands, in operand order. -/
def Instr.modeDigits : Instr → List Nat
  | .add a b t | .mul a b t | .lt a b t | .eq a b t => [a.mode.digit, b.mode.digit, t.mode.digit]
  | .jnz a b | .jz a b => [a.mode.digit, b.mode.digit]
  | .out a | .arb a => [a.mode.digit]
  | .inp t => [t.mode.digit]
  | .hlt => []

/-- The parameter words of an instruction, in operand order (R51). -/
def Instr.params : Instr → List Int
  | .add a b t | .mul a b t | .lt a b t | .eq a b t => [a.word, b.word, t.word]
  | .jnz a b | .jz a b => [a.word, b.word]
  | .out a | .arb a => [a.word]
  | .inp t => [t.word]
  | .hlt => []

/-- `Σ m_i · 10^(i+1)` over mode digits, the first of weight `10^k` (R68). -/
def modeSum : Nat → List Nat → Nat
  | _, [] => 0
  | k, d :: ds => d * 10 ^ k + modeSum (k + 1) ds

/-- The instruction word `w = op + Σ m_i · 10^(i+1)` (R68). -/
def Instr.headWord (i : Instr) : Nat := i.opcode + modeSum 2 i.modeDigits

/-- The encoder: the instruction word, then the operands' literals in operand order (R68). -/
def encode (i : Instr) : List Int := (i.headWord : Int) :: i.params

/-- The number of words of an instruction, `n + 1` (R51, R52). -/
def Instr.length : Instr → Nat
  | .add .. => 4
  | .mul .. => 4
  | .inp .. => 2
  | .out .. => 2
  | .jnz .. => 3
  | .jz .. => 3
  | .lt .. => 4
  | .eq .. => 4
  | .arb .. => 2
  | .hlt => 1

/-- The instruction the decoder reads from the words of a table row whose bits are `w`: the encoding is decimal and
the first word has no width, so `w` IS the first word's value, and the parameter words are 0 (log 14). -/
def decodeTableWord (_nbits w : Nat) : Option Instr :=
  match decode (w : Int) (fun _ => 0) with
  | .ok i => some i
  | .error _ => none

end Sys2Proof
end

