-- ==== Sys2Proof/Machine/Fetch.lean ====
section
/-! DEFINITION. Fetch and decode (30_encoding.md R59, R60): afresh from memory at every step (10_state.md R21). -/

namespace Sys2Proof.Machine

/-- The instruction at `pc`, or the fault its fetch or decode raises (R59, R60). Parameter `i` is the word at
`pc + i`. -/
def fetch (m : MachineState) : Except FaultKind Instr :=
  if m.pc < 0 then .error .invalidAddress
  else decode (m.mem.get m.pc.toNat) (fun i => m.mem.get (m.pc.toNat + i))

end Sys2Proof.Machine
end

