-- ==== Sys2Proof/Machine/Agents.lean ====
section
/-! DEFINITION. The agents of a system and its interleaving (60_exceptions.md R98 to R107; 20_memory.md R45;
70_reset_and_hazards.md R116). -/

namespace Sys2Proof.Machine

/-- Whether the machine may take an instruction step, waiting aside: it is Running and its outbox is empty (R60, R98). -/
def MachineState.ready (m : MachineState) : Bool := decide (m.status = .running) && m.outbox.isEmpty

/-- The instruction step of R60 by machine `s.cur`: fetch and decode, then execute or enter the fault. -/
def runInstruction (s : State) : Result :=
  match fetch s.me with
  | .error k => raise k s
  | .ok i => exec i s

/-- Machine `i`'s instruction step; where `i` has none, nothing changes (log 6). -/
def machineStep (i : Nat) (s : State) : Result :=
  if i < s.machines.length ∧ (s.machine i).ready then runInstruction { s with cur := i } else .next s

/-- Machine `i`'s delivery step (R98); where its outbox is empty, nothing changes (log 6). -/
def deliverStep (i : Nat) (s : State) : Result :=
  match (s.machine i).outbox with
  | [] => .next s
  | (d, x) :: rest => .next ((s.setMachine i { s.machine i with outbox := rest }).deliver i d x)

/-- Whether machine `m` is Faulted. -/
def MachineState.isFaulted (m : MachineState) : Bool :=
  match m.status with
  | .faulted _ _ => true
  | _ => false

/-- Whether some machine is Faulted. -/
def State.anyFaulted (s : State) : Bool := s.machines.any (·.isFaulted)

/-- A network: every machine's input is `Polling` (R100, R101; log 17). -/
def State.isNetwork (s : State) : Bool :=
  (List.range s.machines.length).all fun i => decide (s.disciplineOf i = .polling)

/-- `pending(ρ_i)`, false for a machine with no router (R101). -/
def State.routerPendingAt (s : State) (i : Nat) : Bool :=
  match s.outputOf i with
  | .router r => routerPending r (s.machine i).router
  | _ => false

/-- `idle_i` (R101). -/
def State.idle (s : State) (i : Nat) : Bool :=
  (s.inputQueue i).isEmpty && (s.machine i).outbox.isEmpty && ! s.routerPendingAt i &&
    (decide ((s.machine i).status ≠ .running) || decide (s.params.idlePolls ≤ (s.machine i).noData))

/-- Whether quiescence detection is enabled (R102). -/
def State.detectEnabled (s : State) : Bool :=
  s.isNetwork && ! s.quiesced && (List.range s.machines.length).all (s.idle ·)

/-- Quiescence detection: all idle tests and the latch in one atomic step (R102). -/
def detectStep (s : State) : Result :=
  if s.detectEnabled then .next { s with quiesced := true } else .next s

/-- The orchestrator's step: under `AbortAll` its next step after a fault sets `aborted` (R103); else detection
(R102). The abort goes first (log 9). -/
def orchestratorStep (s : State) : Result :=
  if s.anyFaulted then
    match s.params.faultPolicy with
    | some .abortAll => .next { s with aborted := true }
    | some .isolate => detectStep s
    | none => .refused .faultPolicyNotChosen
  else detectStep s

/-- Whether the host may append to queue `q` (R104, R106). -/
def State.hostFeeds (s : State) (q : Nat) : Bool :=
  decide (q < s.queues.length) && (s.queueParams q).producers.contains .host

/-- The host appends a word; where the queue does not list the host, nothing changes (R104; log 6). -/
def hostAppendStep (q : Nat) (v : Int) (s : State) : Result :=
  if s.hostFeeds q then .next (s.enqueue q v) else .next s

/-- One agent's step. -/
def stepEvent (e : Event) (s : State) : Result :=
  match e with
  | .machine i => machineStep i s
  | .deliver i => deliverStep i s
  | .orchestrator => orchestratorStep s
  | .hostAppend q v => hostAppendStep q v s
  | .teardown => .next { s with tornDown := true }

/-- Whether machine `i`, were it to execute now, waits at opcode 3 (R74). -/
def State.waiting (s : State) (i : Nat) : Bool :=
  match fetch (s.machine i) with
  | .ok (.inp _) => (s.inputQueue i).isEmpty && decide (s.disciplineOf i = .blocking)
  | _ => false

/-- Whether machine `i` has an instruction step (R60, R74, R98). -/
def State.machineEnabled (s : State) (i : Nat) : Bool :=
  decide (i < s.machines.length) && (s.machine i).ready && ! s.waiting i

/-- Whether machine `i` has a delivery step (R98). -/
def State.deliverEnabled (s : State) (i : Nat) : Bool := ! (s.machine i).outbox.isEmpty

/-- Whether the orchestrator has a step (R102, R103). With no fault policy chosen, which no accepted system has (R109),
a fault leaves it one, which is refused (log 12). -/
def State.orchestratorEnabled (s : State) : Bool :=
  if s.anyFaulted then
    match s.params.faultPolicy with
    | some .abortAll => true
    | some .isolate => s.detectEnabled
    | none => true
  else s.detectEnabled

/-- Whether machine `i` waits and the host may wake it (R74, R106; log 7). -/
def State.hostMayWake (s : State) (i : Nat) : Bool :=
  (s.machine i).ready && s.waiting i && s.hostFeeds (s.inputOf i)

/-- After these no step of any agent is enabled (R102 with `Terminate`, R103, R107). -/
def State.stopped (s : State) : Bool :=
  s.aborted || s.tornDown || (s.quiesced && decide (s.params.onIdle = .terminate))

/-- Whether some agent has an enabled step (R116; log 7). -/
def State.someEnabled (s : State) : Bool :=
  ! s.stopped && (s.orchestratorEnabled ||
    (List.range s.machines.length).any fun i => s.machineEnabled i || s.deliverEnabled i || s.hostMayWake i)

/-- Whether no machine is Running. -/
def State.allEnded (s : State) : Bool := s.machines.all fun m => decide (m.status ≠ .running)

/-- The condition of R116's line `Faulted`: some machine is Faulted, under `Isolate`, and the others ended (log 18). -/
def State.endsFaulted (s : State) : Bool :=
  s.anyFaulted && decide (s.params.faultPolicy = some .isolate) && s.allEnded

/-- The first matching line of R116's table (log 18). -/
def State.classifyEnd (s : State) : RunEnd :=
  if s.aborted then .aborted
  else if s.endsFaulted then .faulted
  else if s.tornDown then .tornDown
  else if s.quiesced && decide (s.params.onIdle = .terminate) then .quiesced
  else if s.machines.all (fun m => decide (m.status = .halted) && m.outbox.isEmpty) then .allHalted
  else .deadlock

/-- Whether and how the run has ended in this state (R116). -/
def runEnd (s : State) : Option RunEnd := if s.someEnabled then none else some s.classifyEnd

/-- R116's column 'final?'. -/
def RunEnd.final : RunEnd → Bool
  | .quiesced => true
  | .allHalted => true
  | .aborted => false
  | .faulted => false
  | .tornDown => false
  | .deadlock => false

/-- The agent step that moves next where the agenda names none: the next machine after `s.cur` in turn that has a
step, else the orchestrator if it has one, else machine `s.cur`, which waits (log 4). -/
def State.defaultEvent (s : State) : Event :=
  let n := s.machines.length
  let order := (List.range n).map fun k => (s.cur + 1 + k) % n
  match order.find? fun i => s.deliverEnabled i || s.machineEnabled i with
  | some i => if s.deliverEnabled i then .deliver i else .machine i
  | none => if s.orchestratorEnabled then .orchestrator else .machine s.cur

/-- The event the next step takes: the head of the agenda, or the default where it is empty. -/
def State.nextEvent (s : State) : Event :=
  match s.agenda with
  | e :: _ => e
  | [] => s.defaultEvent

/-- Whether the state holds one entry for each machine and queue of its parameters, and `cur` is a machine. -/
def State.shapeOk (s : State) : Bool :=
  decide (s.machines.length = s.params.machines.length) && decide (s.queues.length = s.params.queues.length) &&
    decide (s.cur < s.machines.length)

/-- Why the system is not one the spec lets run, or `none` (R109; log 15). -/
def State.problem (s : State) : Option ConfigProblem :=
  match s.params.problem with
  | some p => some p
  | none => if s.shapeOk then none else some .stateShape

/-- One step of the system: the next event's step (R45, R99), unless the system is refused (R109) or its run has
ended (R116). -/
def advance (s : State) : Result :=
  match s.problem with
  | some p => .refused (.illFormedSystem p)
  | none =>
    match runEnd s with
    | some e => .fault (.runEnded e)
    | none => stepEvent s.nextEvent { s with agenda := s.agenda.tail }

/-- The state in which machine `i`'s next instruction is `w` followed by three words 0, and `i` may execute it. -/
def State.placeWord (s : State) (i : Nat) (w : Nat) : State :=
  let m := s.machine i
  let pc := if m.pc < 0 then 0 else m.pc
  { s.setMachine i { m with
      mem := m.mem.load pc.toNat [(w : Int), 0, 0, 0]
      pc := pc
      status := .running
      outbox := [] } with
    aborted := false
    tornDown := false
    quiesced := false }

/-- `State.withFetchWord`: place the word where the next step fetches, and let that machine be the next to move. -/
def State.placeNextWord (s : State) (w : Nat) : State :=
  let i := match s.nextEvent with
    | .machine k => if k < s.machines.length then k else s.cur
    | _ => s.cur
  let s1 := s.placeWord i w
  if s1.nextEvent = .machine i then s1 else { s1 with agenda := .machine i :: s1.agenda }

end Sys2Proof.Machine
end

