-- ==== Sys2Proof/Machine/Step.lean ====
section
/-! DEFINITION. The step of the system, and the placing of an instruction where it fetches next. -/

namespace Sys2Proof.Machine

/-- One step of the system (20_memory.md R45; 30_encoding.md R62): one agent's atomic step. -/
def step (s : State) : Host.Outcome State Fault Refusal := advance s

/-- `s` with the instruction word `w`, its parameter words 0, where the next step fetches (log 14). A program comes
from outside the machine, at construction (70_reset_and_hazards.md R108): this stands for that load (log 13). -/
def State.withFetchWord (s : State) (_nbits w : Nat) : State := s.placeNextWord w

end Sys2Proof.Machine
end

