-- ==== Sys2Proof/Machine/ProgramText.lean ====
section
/-! DEFINITION. The program text the loader accepts (30_encoding.md R66): comma-separated base-10 integers, trimmed
at both ends. Text outside the grammar is refused (`none`) before any machine exists. -/

namespace Sys2Proof.Machine

/-- `ws` of R66: space, tab, CR, LF. -/
def isWs (c : Char) : Bool := c == ' ' || c == '\t' || c == '\r' || c == '\n'

/-- Leave out white space at both ends. -/
def trimWs (cs : List Char) : List Char := ((cs.dropWhile isWs).reverse.dropWhile isWs).reverse

/-- The value of a base-10 digit. -/
def digitValue (c : Char) : Option Nat :=
  if '0'.toNat ≤ c.toNat ∧ c.toNat ≤ '9'.toNat then some (c.toNat - '0'.toNat) else none

/-- The value of a string of digits read after the value `acc`. -/
def digitsFrom (acc : Nat) : List Char → Option Nat
  | [] => some acc
  | c :: cs => match digitValue c with
    | some d => digitsFrom (acc * 10 + d) cs
    | none => none

/-- `digit+`: at least one. -/
def parseDigits : List Char → Option Nat
  | [] => none
  | c :: cs => digitsFrom 0 (c :: cs)

/-- `int := ("-" | "+")? digit+` (R66). -/
def parseInt : List Char → Option Int
  | '-' :: cs => (parseDigits cs).map fun (n : Nat) => - (n : Int)
  | '+' :: cs => (parseDigits cs).map fun (n : Nat) => (n : Int)
  | cs => (parseDigits cs).map fun (n : Nat) => (n : Int)

/-- The fields between separators: always at least one. -/
def splitAt (sep : Char) : List Char → List (List Char)
  | [] => [[]]
  | c :: cs =>
    if c = sep then [] :: splitAt sep cs
    else match splitAt sep cs with
      | f :: fs => (c :: f) :: fs
      | [] => [[c]]

/-- All values, or `none` where one is missing. -/
def allSome {α : Type} : List (Option α) → Option (List α)
  | [] => some []
  | none :: _ => none
  | some a :: rest => (allSome rest).map fun as => a :: as

/-- `text := ws* int ("," int)* ws*` (R66): the program, or `none` where the loader refuses the text. -/
def parseProgram (text : List Char) : Option (List Int) :=
  allSome ((splitAt ',' (trimWs text)).map parseInt)

end Sys2Proof.Machine
end

