-- ==== Sys2Proof/Machine/Assembler.lean ====
section
/-! DEFINITION. The spec's assembler (30_encoding.md R67 to R69): its abstract lines, their encoding, and the reading
of its text. `none` is a refused program. -/

namespace Sys2Proof.Machine

/-- A label's name. -/
abbrev Label := List Char

/-- `int := signed decimal | label` (R67). -/
inductive AsmInt where
  | lit (v : Int)
  | label (l : Label)
deriving DecidableEq, Repr

/-- An operand as written (R67): `v`, `[a]`, `[rb+o]` or `[rb-o]`. -/
inductive AsmOperand where
  | immediate (v : AsmInt)
  | cell (a : AsmInt)
  | relative (minus : Bool) (o : AsmInt)
deriving DecidableEq, Repr

/-- The mnemonics of R63, and the two pseudo-instructions of R69. -/
inductive Mnemonic where
  | ADD | MUL | IN | OUT | JNZ | JZ | LT | EQ | ARB | HLT | JMP | MOV
deriving DecidableEq, Repr

/-- What a line holds beside its label (R67). -/
inductive AsmBody where
  | instr (m : Mnemonic) (operands : List AsmOperand)
  | data (words : List AsmInt)
  | nothing
deriving DecidableEq, Repr

/-- A line (R67), its comment left out. -/
structure AsmLine where
  label : Option Label
  body  : AsmBody
deriving DecidableEq, Repr

/-- The number of words of a mnemonic's instruction (R51, R69). -/
def Mnemonic.length : Mnemonic → Nat
  | .ADD | .MUL | .LT | .EQ | .MOV => 4
  | .JNZ | .JZ | .JMP => 3
  | .IN | .OUT | .ARB => 2
  | .HLT => 1

/-- The number of words a line encodes to. -/
def AsmBody.length : AsmBody → Nat
  | .instr m _ => m.length
  | .data ws => ws.length
  | .nothing => 0

/-- The address of each label, the lines starting at `a`: a label stands for its address (R67). -/
def labelsFrom : Nat → List AsmLine → List (Label × Int)
  | _, [] => []
  | a, l :: ls =>
    match l.label with
    | some n => (n, (a : Int)) :: labelsFrom (a + l.body.length) ls
    | none => labelsFrom (a + l.body.length) ls

/-- The value of an integer; a label that is not defined has none. -/
def AsmInt.value (env : List (Label × Int)) : AsmInt → Option Int
  | .lit v => some v
  | .label l => (env.find? fun e => decide (e.1 = l)).map (·.2)

/-- A read operand (R67). -/
def AsmOperand.toRead (env : List (Label × Int)) : AsmOperand → Option ReadOp
  | .immediate v => (v.value env).map fun x => ⟨.immediate, x⟩
  | .cell a => (a.value env).map fun x => ⟨.position, x⟩
  | .relative minus o => (o.value env).map fun x => ⟨.relative, if minus then -x else x⟩

/-- A write operand: an immediate is none (R67). -/
def AsmOperand.toWrite (env : List (Label × Int)) : AsmOperand → Option WriteOp
  | .immediate _ => none
  | .cell a => (a.value env).map fun x => ⟨.literal, x⟩
  | .relative minus o => (o.value env).map fun x => ⟨.relative, if minus then -x else x⟩

/-- Build an RRW instruction from its three operands. -/
def buildRRW (env : List (Label × Int)) (mk : ReadOp → ReadOp → WriteOp → Instr) (a b t : AsmOperand) : Option Instr :=
  match a.toRead env, b.toRead env, t.toWrite env with
  | some x, some y, some z => some (mk x y z)
  | _, _, _ => none

/-- Build an RR instruction from its two operands. -/
def buildRR (env : List (Label × Int)) (mk : ReadOp → ReadOp → Instr) (a b : AsmOperand) : Option Instr :=
  match a.toRead env, b.toRead env with
  | some x, some y => some (mk x y)
  | _, _ => none

/-- The instruction of a mnemonic and its operands; count and roles are those of R51, the pseudo-instructions expand
as in R69, `JMP` with any read operand (log 20). -/
def assembleInstr (env : List (Label × Int)) : Mnemonic → List AsmOperand → Option Instr
  | .ADD, [a, b, t] => buildRRW env .add a b t
  | .MUL, [a, b, t] => buildRRW env .mul a b t
  | .LT, [a, b, t] => buildRRW env .lt a b t
  | .EQ, [a, b, t] => buildRRW env .eq a b t
  | .JNZ, [a, b] => buildRR env .jnz a b
  | .JZ, [a, b] => buildRR env .jz a b
  | .IN, [t] => (t.toWrite env).map .inp
  | .OUT, [a] => (a.toRead env).map .out
  | .ARB, [a] => (a.toRead env).map .arb
  | .HLT, [] => some .hlt
  | .JMP, [t] => buildRR env .jnz (.immediate (.lit 1)) t
  | .MOV, [a, .cell d] => buildRRW env .add a (.immediate (.lit 0)) (.cell d)
  | _, _ => none

/-- The words of a line. -/
def AsmBody.words (env : List (Label × Int)) : AsmBody → Option (List Int)
  | .instr m ops => (assembleInstr env m ops).map encode
  | .data ws => allSome (ws.map (·.value env))
  | .nothing => some []

/-- The program a list of lines encodes to (R67, R68). A label defined twice is refused (log 20). -/
def assemble (ls : List AsmLine) : Option (List Int) :=
  let env := labelsFrom 0 ls
  if (env.map (·.1)).Nodup then (allSome (ls.map (·.body.words env))).map List.flatten else none

/-- A character of a label or mnemonic (log 20). -/
def isNameChar (c : Char) : Bool :=
  ('a'.toNat ≤ c.toNat && c.toNat ≤ 'z'.toNat) || ('A'.toNat ≤ c.toNat && c.toNat ≤ 'Z'.toNat) ||
    ('0'.toNat ≤ c.toNat && c.toNat ≤ '9'.toNat) || c == '_'

/-- A label: name characters, the first of them no digit (log 20). -/
def parseLabel (cs : List Char) : Option Label :=
  match cs with
  | [] => none
  | c :: _ => if cs.all isNameChar && (digitValue c).isNone then some cs else none

/-- `int` of R67. -/
def parseAsmInt (cs : List Char) : Option AsmInt :=
  match parseInt cs with
  | some v => some (.lit v)
  | none => (parseLabel cs).map .label

/-- What stands between brackets, white space left out. `[rb]` is offset 0 in a read operand (R67) and, which R67 leaves
open, in a write operand (DESIGN CHOICE, log 20). -/
def parseBracket : List Char → Option AsmOperand
  | ['r', 'b'] => some (.relative false (.lit 0))
  | 'r' :: 'b' :: '+' :: cs => (parseAsmInt cs).map (.relative false)
  | 'r' :: 'b' :: '-' :: cs => (parseAsmInt cs).map (.relative true)
  | cs => (parseAsmInt cs).map .cell

/-- One operand (R67). -/
def parseOperand (text : List Char) : Option AsmOperand :=
  match text.filter (fun c => ! isWs c) with
  | '[' :: cs => match cs.reverse with
    | ']' :: inner => parseBracket inner.reverse
    | _ => none
  | cs => (parseAsmInt cs).map .immediate

/-- A mnemonic as the spec spells it (R63, R69). -/
def parseMnemonic : List Char → Option Mnemonic
  | ['A', 'D', 'D'] => some .ADD
  | ['M', 'U', 'L'] => some .MUL
  | ['I', 'N'] => some .IN
  | ['O', 'U', 'T'] => some .OUT
  | ['J', 'N', 'Z'] => some .JNZ
  | ['J', 'Z'] => some .JZ
  | ['L', 'T'] => some .LT
  | ['E', 'Q'] => some .EQ
  | ['A', 'R', 'B'] => some .ARB
  | ['H', 'L', 'T'] => some .HLT
  | ['J', 'M', 'P'] => some .JMP
  | ['M', 'O', 'V'] => some .MOV
  | _ => none

/-- The comma-separated parts of an operand list; none where nothing is written. -/
def operandTexts (cs : List Char) : List (List Char) := if (trimWs cs).isEmpty then [] else splitAt ',' cs

/-- The instruction, data or nothing of a line. -/
def parseBody (text : List Char) : Option AsmBody :=
  let cs := trimWs text
  let word := cs.takeWhile isNameChar
  let rest := cs.dropWhile isNameChar
  if cs.isEmpty then some .nothing
  else if word = ['D', 'A', 'T', 'A'] then
    (allSome ((splitAt ',' rest).map fun f => parseAsmInt (f.filter fun c => ! isWs c))).map .data
  else match parseMnemonic word with
    | none => none
    | some m => (allSome ((operandTexts rest).map parseOperand)).map (.instr m)

/-- One line: its comment is left out, a label ends at the colon (R67). -/
def parseLine (text : List Char) : Option AsmLine :=
  let code := text.takeWhile (fun c => c ≠ ';')
  match splitAt ':' code with
  | [body] => (parseBody body).map fun b => ⟨none, b⟩
  | [l, body] => match parseLabel (trimWs l), parseBody body with
    | some n, some b => some ⟨some n, b⟩
    | _, _ => none
  | _ => none

/-- The program an assembly text encodes to (R67 to R69). -/
def assembleText (text : List Char) : Option (List Int) :=
  match allSome ((splitAt '\n' text).map parseLine) with
  | some ls => assemble ls
  | none => none

end Sys2Proof.Machine
end

