-- ==== Sys2Proof/Machine/Boot.lean ====
section
/-! DEFINITION. Construction, which is the only reset (70_reset_and_hazards.md R108, R109), and the host's view of a
machine (60_exceptions.md R104, R105; 70_reset_and_hazards.md R115). -/

namespace Sys2Proof.Machine

/-- The initial state of a machine's router: σ0, or the empty one where it has no router (R30, R97). -/
def initialRouter (o : Output) : RouterState :=
  match o with
  | .router r => r.init
  | _ => []

/-- A machine after construction from its parameters (R108). -/
def constructMachine (m : MachineParams) : MachineState :=
  MachineState.fresh (Memory.ofProgram m.prog) (initialRouter m.output)

/-- The whole system after reset (R30, R108). -/
def construct (p : Params) : State where
  params := p
  machines := p.machines.map constructMachine
  queues := p.queues.map (·.init)
  hostOut := []
  quiesced := false
  aborted := false
  tornDown := false
  cur := 0
  agenda := []

/-- Construction as the host asks for it: refused where the boot requirements of R109 are not met. -/
def newSystem (p : Params) : Except ConfigProblem State :=
  match p.problem with
  | some e => .error e
  | none => .ok (construct p)

/-- The final memory snapshot, which only a Halted or Faulted machine shows (R104, R115). -/
def MachineState.snapshot (m : MachineState) : Option Memory :=
  match m.status with
  | .running => none
  | .halted => some m.mem
  | .faulted _ _ => some m.mem

/-- A snapshot listed as `mem[0 .. n-1]` (R115). -/
def listing (m : Memory) (n : Nat) : List Int := (List.range n).map (Memory.get m)

/-- What `run` returns (R105): `Ok(snapshot)` or `Err((kind, pc))`. -/
inductive RunResult where
  | ok (snapshot : Memory)
  | err (kind : FaultKind) (pc : Int)
deriving DecidableEq, Repr

/-- The result of `run` for a machine whose status has left `Running` (R105). -/
def MachineState.result (m : MachineState) : Option RunResult :=
  match m.status with
  | .running => none
  | .halted => some (.ok m.mem)
  | .faulted k pc => some (.err k pc)

/-- `run` (R105) on machine `i`: step the system, at most `fuel` times, until the machine's status leaves `Running`;
`none` where it has not, as for a machine that waits. -/
def runMachine : Nat → Nat → State → Option RunResult
  | 0, i, s => (s.machine i).result
  | fuel + 1, i, s =>
    match (s.machine i).result with
    | some r => some r
    | none => match advance s with
      | .next s' => runMachine fuel i s'
      | .fault _ => none
      | .refused _ => none

/-- The faults surfaced to the host: `(i, kind, pc)` of every Faulted machine (R103, R104). -/
def State.surfacedFaults (s : State) : List (Nat × FaultKind × Int) :=
  s.machines.zipIdx.filterMap fun mi =>
    match mi.1.status with
    | .faulted k pc => some (mi.2, k, pc)
    | _ => none

/-- The numeric code of a fault kind (R83, D33). -/
def faultCode (k : FaultKind) : Nat :=
  match k with
  | .invalidAddress => 1
  | .unknownOpcode => 2
  | .invalidWriteMode => 3
  | .unknownMode => 4

end Sys2Proof.Machine
end

