-- ==== Sys2Proof/Safety.lean ====
section
/-! DEFINITION. What a safe run is, the invariant of a system, and the frames the claims speak of. -/

namespace Sys2Proof.Machine

/-- A state in which nothing has gone wrong: no machine is Faulted and the system is not aborted (R83, R103). -/
def State.Safe (s : State) : Prop := s.anyFaulted = false ∧ s.aborted = false

/-- What every step keeps, in a system the spec lets run. -/
structure State.Inv (s : State) : Prop where
  /-- The parameters are accepted, and the state has one entry for each machine and queue (R92 to R94, R109). -/
  configured : s.problem = none
  /-- Every memory is in canonical form (R25, R34). -/
  memories : ∀ m ∈ s.machines, m.mem.wf
  /-- Only a Running machine has undelivered values: HLT and a fault come after the outbox is empty (R98). -/
  outboxes : ∀ m ∈ s.machines, m.outbox ≠ [] → m.status = .running
  /-- With `atomicDelivery` the outbox stays empty (R98). -/
  atomicOutboxes : s.params.atomicDelivery = true → ∀ m ∈ s.machines, m.outbox = []
  /-- `noData` is 0 for a machine whose input is `Blocking` (R23). -/
  blockingNoData : ∀ i < s.machines.length, s.disciplineOf i = .blocking → (s.machine i).noData = 0
  /-- A Faulted machine's `pc` is the recorded one (R85). -/
  faultPc : ∀ m ∈ s.machines, ∀ k pc, m.status = .faulted k pc → m.pc = pc
  /-- `aborted` is set only under `AbortAll` and after a fault (R103). -/
  abortedAfterFault : s.aborted = true → s.params.faultPolicy = some .abortAll ∧ s.anyFaulted = true
  /-- Under `Terminate` the latch `quiesced` says that every machine of a network is idle (R102). -/
  quiescedIdle : s.quiesced = true → s.params.onIdle = .terminate →
    s.isNetwork = true ∧ ∀ i < s.machines.length, s.idle i = true

/-- Everything outside machine `s.cur`, the queues and the host's log is as before: the parameters, the other
machines, the latches `aborted` and `tornDown`, and the model's own fields. -/
structure OthersKept (s t : State) : Prop where
  params   : t.params = s.params
  count    : t.machines.length = s.machines.length
  machines : ∀ j, j ≠ s.cur → t.machine j = s.machine j
  aborted  : t.aborted = s.aborted
  tornDown : t.tornDown = s.tornDown
  cur      : t.cur = s.cur
  agenda   : t.agenda = s.agenda

/-- No port is touched: every queue, the host's log and the latch `quiesced` are as before. -/
structure PortsKept (s t : State) : Prop where
  queues   : t.queues = s.queues
  hostOut  : t.hostOut = s.hostOut
  quiesced : t.quiesced = s.quiesced

/-- Memory after a store of `v` at `a`: that cell holds `v`, every other cell reads as before. -/
structure StoresWord (m m' : Memory) (a : Int) (v : Int) : Prop where
  stored : m'.read a = some v
  kept   : ∀ b, b ≠ a → m'.read b = m.read b

/-- What cell `b` reads once `v` is stored at `a`. -/
def wordAfterStore (m : Memory) (a : Int) (v : Int) (b : Nat) : Int := if (b : Int) = a then v else m.get b

/-- Machine `s.cur`'s next fetch in `t`, after an instruction of `len` words that stored `v` at `a`, decodes the words
as they are after that store: the instruction word and every parameter word (R48). -/
def FetchSeesStore (s t : State) (a : Int) (v : Int) (len : Nat) : Prop :=
  fetch t.me = decode (wordAfterStore s.me.mem a v (s.me.pc.toNat + len))
    (fun k => wordAfterStore s.me.mem a v (s.me.pc.toNat + len + k))

/-- The frame of a storing instruction that touches no port: `v` at `a`, the advance by `len`, nothing else. -/
structure StoredOnly (s t : State) (a : Int) (v : Int) (len : Nat) : Prop where
  mem    : StoresWord s.me.mem t.me.mem a v
  pc     : t.me.pc = s.me.pc + (len : Int)
  rb     : t.me.rb = s.me.rb
  status : t.me.status = s.me.status
  noData : t.me.noData = s.me.noData
  outbox : t.me.outbox = s.me.outbox
  router : t.me.router = s.me.router
  others : OthersKept s t
  ports  : PortsKept s t

/-- The state in which machine `s.cur` has entered the fault `k` and nothing else has changed (R85). -/
def State.afterFault (s : State) (k : FaultKind) : State :=
  s.setMe { s.me with status := .faulted k s.me.pc }

/-- The address an instruction stores to, where it has a write-role operand (R37, R58). -/
def storeAddr (m : MachineState) : Instr → Option Int
  | .add _ _ t | .mul _ _ t | .lt _ _ t | .eq _ _ t | .inp t => some (targetAddr m t)
  | .out _ | .jnz _ _ | .jz _ _ | .arb _ | .hlt => none

/-- The read-role operands of an instruction, in order (R51). -/
def readOps : Instr → List ReadOp
  | .add a b _ | .mul a b _ | .lt a b _ | .eq a b _ | .jnz a b | .jz a b => [a, b]
  | .out a | .arb a => [a]
  | .inp _ | .hlt => []

/-- The number of parameters of a legal opcode, and whether its last one has the write role (R51). -/
def opcodeShape (op : Nat) : Option (Nat × Bool) :=
  if op = 1 ∨ op = 2 ∨ op = 7 ∨ op = 8 then some (3, true)
  else if op = 3 then some (1, true)
  else if op = 4 ∨ op = 9 then some (1, false)
  else if op = 5 ∨ op = 6 then some (2, false)
  else if op = 99 then some (0, false)
  else none

/-- A read operand as R67 writes it, with its literal. -/
def writtenRead (o : ReadOp) : AsmOperand :=
  match o.mode with
  | .position => .cell (.lit o.word)
  | .immediate => .immediate (.lit o.word)
  | .relative => .relative false (.lit o.word)

/-- A write operand as R67 writes it, with its literal. -/
def writtenWrite (o : WriteOp) : AsmOperand :=
  match o.mode with
  | .literal => .cell (.lit o.word)
  | .relative => .relative false (.lit o.word)

/-- The words of a program of one line without a label. -/
def assembleLine (m : Mnemonic) (operands : List AsmOperand) : Option (List Int) :=
  assemble [⟨none, .instr m operands⟩]

/-- `int` of R66, written without the parser: a sign or none, then base-10 digits `ds`, the most significant first, at
least one. -/
def WrittenInt (f : List Char) (v : Int) : Prop :=
  ∃ (sign : List Char) (ds : List Nat), ds ≠ [] ∧ (∀ d ∈ ds, d < 10) ∧ f = sign ++ ds.map Nat.digitChar ∧
    (((sign = [] ∨ sign = ['+']) ∧ v = ((Nat.ofDigits 10 ds.reverse : Nat) : Int)) ∨
      (sign = ['-'] ∧ v = -((Nat.ofDigits 10 ds.reverse : Nat) : Int)))

/-- `ws` of R66: space, tab, CR, LF. -/
def WrittenWs (cs : List Char) : Prop := ∀ c ∈ cs, c = ' ' ∨ c = '\t' ∨ c = '\r' ∨ c = '\n'

/-- `text` of R66 and its value, written without the parser. -/
def WrittenProgram (text : List Char) (vs : List Int) : Prop :=
  ∃ (before after : List Char) (fields : List (List Char)), fields ≠ [] ∧ WrittenWs before ∧ WrittenWs after ∧
    text = before ++ List.intercalate [','] fields ++ after ∧ List.Forall₂ WrittenInt fields vs

end Sys2Proof.Machine
end

