-- ==== Sys2Proof/Certificates/Slice0/Obligations.lean ====
section
/-! DEFINITION. The statements about this model, from the numbered rules of spec/. -/

open Sys2Proof Sys2Proof.Machine

/-! ### Encoding and decoding -/

/-- Words written out digit by digit from 30_encoding.md R51, R57, R67 and 95_test_vectors.md decode to the
instructions they stand for. -/
def Obligations.SampleWordsDecode : Prop :=
  decodeWords [1002, 4, 3, 4] = .ok (.mul ⟨.position, 4⟩ ⟨.immediate, 3⟩ ⟨.literal, 4⟩) ∧
  decodeWords [21207, 1, 5, 7] = .ok (.lt ⟨.relative, 1⟩ ⟨.immediate, 5⟩ ⟨.relative, 7⟩) ∧
  decodeWords [204, -1] = .ok (.out ⟨.relative, -1⟩) ∧
  decodeWords [203, 2] = .ok (.inp ⟨.relative, 2⟩) ∧
  decodeWords [1105, 1, 7] = .ok (.jnz ⟨.immediate, 1⟩ ⟨.immediate, 7⟩) ∧
  decodeWords [109, -5] = .ok (.arb ⟨.immediate, -5⟩) ∧
  decodeWords [10099] = .ok .hlt

/-- R68, R50, R53, R55, R56: every instruction, with every operand in every mode and at every value, is what the
decoder reads from the words the encoder writes, whatever words follow them. -/
def Obligations.DecodeOfEncodeIsTheInstruction : Prop :=
  ∀ (i : Instr) (rest : List Int), decodeWords (encode i ++ rest) = .ok i

/-- R57 with R68: a word that decodes is the canonical word of its instruction but for digits above its operands'
mode digits, and the operands are the parameter words. -/
def Obligations.DecodedWordIsCanonicalBelowSurplusDigits : Prop :=
  ∀ (w : Int) (p : Nat → Int) (i : Instr), decode w p = .ok i →
    0 ≤ w ∧ w.toNat % 10 ^ (i.params.length + 2) = i.headWord ∧
      i.params = (List.range i.params.length).map (fun k => p (k + 1))

/-- R57, R56: digits above an instruction's mode digits are ignored, but that a digit above an absent write digit
makes that digit an explicit 0, which is `InvalidWriteMode`. -/
def Obligations.SurplusDigitsSelectNothing : Prop :=
  ∀ (w k : Nat) (p : Nat → Int) (i : Instr), decode (w : Int) p = .ok i → 0 < k →
    decode ((w + k * 10 ^ (i.params.length + 2) : Nat) : Int) p =
      (match i with
        | .add _ _ ⟨.literal, _⟩ | .mul _ _ ⟨.literal, _⟩ | .lt _ _ ⟨.literal, _⟩ | .eq _ _ ⟨.literal, _⟩
        | .inp ⟨.literal, _⟩ => .error .invalidWriteMode
        | _ => .ok i)

/-- R64, with R50, R54, R56, R84: which words encode no instruction, and the fault each raises. -/
def Obligations.IllegalWordsRaiseTheirFault : Prop :=
  ∀ (w : Int) (p : Nat → Int),
    (w < 0 → decode w p = .error .unknownOpcode) ∧
    (0 ≤ w → opcodeShape (w.toNat % 100) = none → decode w p = .error .unknownOpcode) ∧
    (∀ n wr, 0 ≤ w → opcodeShape (w.toNat % 100) = some (n, wr) →
      ((∃ k, 1 ≤ k ∧ k ≤ n ∧ 3 ≤ digit w.toNat (k + 1)) → decode w p = .error .unknownMode) ∧
      ((∀ k, 1 ≤ k → k ≤ n → digit w.toNat (k + 1) ≤ 2) →
        (wr = true → 10 ^ (n + 1) ≤ w.toNat → digit w.toNat (n + 1) ≠ 2 → decode w p = .error .invalidWriteMode) ∧
        ((wr = true → w.toNat < 10 ^ (n + 1) ∨ digit w.toNat (n + 1) = 2) → ∃ i, decode w p = .ok i)))

/-- R54 to R56: the mode digits of a decoded word select its operands' modes; a write operand is literal exactly where
its digit is absent. -/
def Obligations.ModeDigitsSelectTheModes : Prop :=
  ∀ (w : Nat) (p : Nat → Int) (i : Instr), decode (w : Int) p = .ok i →
    i.opcode = w % 100 ∧
    (∀ k (o : ReadOp), (readOps i)[k]? = some o →
      digit w (k + 2) = (match o.mode with | .position => 0 | .immediate => 1 | .relative => 2) ∧ o.word = p (k + 1)) ∧
    (∀ (t : WriteOp), (∃ a b, i = .add a b t ∨ i = .mul a b t ∨ i = .lt a b t ∨ i = .eq a b t) →
      (t.mode = .literal ↔ w < 10 ^ 4) ∧ (t.mode = .relative ↔ 10 ^ 4 ≤ w ∧ digit w 4 = 2) ∧ t.word = p 3) ∧
    (∀ (t : WriteOp), i = .inp t →
      (t.mode = .literal ↔ w < 10 ^ 2) ∧ (t.mode = .relative ↔ 10 ^ 2 ≤ w ∧ digit w 2 = 2) ∧ t.word = p 1)

/-! ### Memory -/

/-- R31, R32, R33: an access fails exactly at a negative address; an address that is not listed reads 0; a write
changes that one cell and keeps the canonical form, which is the model's (log 1). -/
def Obligations.MemoryReadsAndWritesByCell : Prop :=
  ∀ (m : Memory) (a v : Int), m.wf →
    (m.read a = none ↔ a < 0) ∧
    (0 ≤ a → (∀ c ∈ m, (c.1 : Int) ≠ a) → m.read a = some 0) ∧
    (a < 0 → m.write a v = none) ∧
    (0 ≤ a → ∃ m', m.write a v = some m' ∧ StoresWord m m' a v ∧ m'.wf)

/-- R25, R34: the canonical form holds exactly the function: two memories that read the same everywhere are the same
data. -/
def Obligations.CanonicalMemoriesAreFunctions : Prop :=
  ∀ (m m' : Memory), m.wf → m'.wf → (∀ a : Int, m.read a = m'.read a) → m = m'

/-- R34: writing 0 to a cell cannot be told apart from never writing it. -/
def Obligations.WritingZeroLeavesNoTrace : Prop :=
  ∀ (m : Memory) (a : Int) (v : Int), m.wf → 0 ≤ a → m.read a = some 0 →
    m.write a 0 = some m ∧ ∀ m', m.write a v = some m' → m'.write a 0 = some m

/-- R39, R108: loading copies the program to addresses 0, 1, 2, … and every other cell holds 0. -/
def Obligations.LoadingCopiesTheProgram : Prop :=
  ∀ (prog : List Int), (Memory.ofProgram prog).wf ∧
    ∀ a : Nat, (Memory.ofProgram prog).read (a : Int) = some (prog.getD a 0)

/-! ### Operands -/

/-- R58: resolution in every mode of both roles. -/
def Obligations.OperandsResolveByMode : Prop :=
  ∀ (m : MachineState) (p : Int),
    readOperand m ⟨.position, p⟩ = m.mem.read p ∧
    readOperand m ⟨.immediate, p⟩ = some p ∧
    readOperand m ⟨.relative, p⟩ = m.mem.read (m.rb + p) ∧
    targetAddr m ⟨.literal, p⟩ = p ∧
    targetAddr m ⟨.relative, p⟩ = m.rb + p

/-! ### What each instruction does -/

/-- R71, R70, R61: ADD completes, stores the exact sum, advances by 4, and changes nothing else. -/
def Obligations.AddStoresTheSum : Prop :=
  ∀ (s : State) (a b : ReadOp) (t : WriteOp) (x y : Int), s.cur < s.machines.length → s.me.mem.wf →
    readOperand s.me a = some x → readOperand s.me b = some y → 0 ≤ targetAddr s.me t →
    ∃ u, exec (.add a b t) s = .next u ∧ StoredOnly s u (targetAddr s.me t) (x + y) 4

/-- R72, R70, R61: MUL completes, stores the exact product, advances by 4, and changes nothing else. -/
def Obligations.MulStoresTheProduct : Prop :=
  ∀ (s : State) (a b : ReadOp) (t : WriteOp) (x y : Int), s.cur < s.machines.length → s.me.mem.wf →
    readOperand s.me a = some x → readOperand s.me b = some y → 0 ≤ targetAddr s.me t →
    ∃ u, exec (.mul a b t) s = .next u ∧ StoredOnly s u (targetAddr s.me t) (x * y) 4

/-- R79, R80: LT and EQ complete and store 1 where the first operand is less than, or equal to, the second on ℤ, else
0; they advance by 4 and change nothing else. -/
def Obligations.ComparisonsStoreTheirTruth : Prop :=
  ∀ (s : State) (a b : ReadOp) (t : WriteOp) (x y : Int), s.cur < s.machines.length → s.me.mem.wf →
    readOperand s.me a = some x → readOperand s.me b = some y → 0 ≤ targetAddr s.me t →
    (∃ u, exec (.lt a b t) s = .next u ∧ StoredOnly s u (targetAddr s.me t) (if x < y then 1 else 0) 4) ∧
    (∃ u, exec (.eq a b t) s = .next u ∧ StoredOnly s u (targetAddr s.me t) (if x = y then 1 else 0) 4)

/-- R73, first branch: IN takes the head of the machine's queue, resets `noData`, stores the value, advances by 2. -/
def Obligations.InTakesTheHeadOfItsQueue : Prop :=
  ∀ (s : State) (t : WriteOp) (v : Int) (vs : List Int), s.cur < s.machines.length → s.me.mem.wf →
    s.inputQueue s.cur = v :: vs → 0 ≤ targetAddr s.me t →
    ∃ u, exec (.inp t) s = .next u ∧ StoresWord s.me.mem u.me.mem (targetAddr s.me t) v ∧
      u.me = { s.me with mem := u.me.mem, pc := s.me.pc + 2, noData := 0 } ∧
      u.inputQueue s.cur = vs ∧ (∀ q, q ≠ s.inputOf s.cur → u.queue q = s.queue q) ∧
      u.hostOut = s.hostOut ∧ u.quiesced = s.quiesced ∧ OthersKept s u

/-- R73, second branch, and R96: IN at an empty `Polling` queue stores `noDataValue`, whatever it is, and counts a
no-data poll; no port changes. -/
def Obligations.InPollsAnEmptyQueue : Prop :=
  ∀ (s : State) (t : WriteOp) (d : Int), s.cur < s.machines.length → s.me.mem.wf →
    s.inputQueue s.cur = [] → s.disciplineOf s.cur = .polling → s.params.noDataValue = some d →
    0 ≤ targetAddr s.me t →
    ∃ u, exec (.inp t) s = .next u ∧ StoresWord s.me.mem u.me.mem (targetAddr s.me t) d ∧
      u.me = { s.me with mem := u.me.mem, pc := s.me.pc + 2, noData := s.me.noData + 1 } ∧
      PortsKept s u ∧ OthersKept s u

/-- R74: a machine that reaches IN with an empty `Blocking` queue has no step, and the whole state stays as it was but
for the turn (the model's own field `cur`; log 5, 6), until some append makes the queue non-empty. -/
def Obligations.InWaitsOnAnEmptyBlockingQueue : Prop :=
  ∀ (s : State) (i : Nat) (t : WriteOp), i < s.machines.length → (s.machine i).ready = true →
    fetch (s.machine i) = .ok (.inp t) → s.inputQueue i = [] → s.disciplineOf i = .blocking →
    machineStep i s = .next { s with cur := i } ∧ s.machineEnabled i = false ∧
      ∀ v, s.inputOf i < s.queues.length → (s.enqueue (s.inputOf i) v).machineEnabled i = true

/-- R73, R85 (its two exceptions): IN with a negative target faults after the receive: the value, or the no-data poll,
is consumed, and nothing else changes. -/
def Obligations.InWithNegativeTargetLosesItsInput : Prop :=
  ∀ (s : State) (t : WriteOp), s.cur < s.machines.length → targetAddr s.me t < 0 →
    (∀ v vs, s.inputQueue s.cur = v :: vs →
      exec (.inp t) s = .next ((s.setQueue (s.inputOf s.cur) vs).setMe
        { s.me with noData := 0, status := .faulted .invalidAddress s.me.pc })) ∧
    (∀ d, s.inputQueue s.cur = [] → s.disciplineOf s.cur = .polling → s.params.noDataValue = some d →
      exec (.inp t) s = .next (s.setMe
        { s.me with noData := s.me.noData + 1, status := .faulted .invalidAddress s.me.pc }))

/-- R75, R93 (`Queue q`): OUT wired to a queue appends its operand at the tail, resets `noData`, advances by 2. Under
`onIdle = Report` the append takes `quiesced` back (R102). -/
def Obligations.OutAppendsToTheWiredQueue : Prop :=
  ∀ (s : State) (a : ReadOp) (v : Int) (q : Nat), s.cur < s.machines.length →
    readOperand s.me a = some v → s.outputOf s.cur = .queue q → q < s.queues.length →
    ∃ u, exec (.out a) s = .next u ∧ u.queue q = s.queue q ++ [v] ∧ (∀ p, p ≠ q → u.queue p = s.queue p) ∧
      u.quiesced = (s.quiesced && decide (s.params.onIdle = .terminate)) ∧
      u.hostOut = s.hostOut ∧ u.me = { s.me with noData := 0, pc := s.me.pc + 2 } ∧ OthersKept s u

/-- R75, R93 (`Host`): OUT bound to the host adds `(i, v)` to the host's log; no queue changes. That `quiesced` stays is
the model's reading (the host's log is no queue: log 22). -/
def Obligations.OutReachesTheHost : Prop :=
  ∀ (s : State) (a : ReadOp) (v : Int), s.cur < s.machines.length →
    readOperand s.me a = some v → s.outputOf s.cur = .host →
    ∃ u, exec (.out a) s = .next u ∧ u.hostOut = s.hostOut ++ [(s.cur, v)] ∧ u.queues = s.queues ∧
      u.quiesced = s.quiesced ∧ u.me = { s.me with noData := 0, pc := s.me.pc + 2 } ∧ OthersKept s u

/-- R75, R93 (`Router r`), R98: without `atomicDelivery`, OUT hands its operand to the router, whose output joins the
outbox; no queue changes in this step. The router may send only where it is a declared producer (R97). -/
def Obligations.OutThroughARouterFillsTheOutbox : Prop :=
  ∀ (s : State) (a : ReadOp) (v : Int) (r : Router) (σ : RouterState) (ds : List (Dest × Int)),
    s.cur < s.machines.length → readOperand s.me a = some v → s.outputOf s.cur = .router r →
    routerOnSend r s.me.router v = (σ, ds) → (∀ dx ∈ ds, s.routerMaySend s.cur dx.1 = true) →
    s.params.atomicDelivery = false →
    ∃ u, exec (.out a) s = .next u ∧ PortsKept s u ∧ OthersKept s u ∧
      u.me = { s.me with noData := 0, pc := s.me.pc + 2, router := σ, outbox := s.me.outbox ++ ds }

/-- R93, R98 with `atomicDelivery`: the router's whole list is delivered in the OUT step, in order, and the outbox is
as it was. -/
def Obligations.OutThroughAnAtomicRouterDeliversAtOnce : Prop :=
  ∀ (s : State) (a : ReadOp) (v : Int) (r : Router) (σ : RouterState) (ds : List (Dest × Int)),
    s.cur < s.machines.length → readOperand s.me a = some v → s.outputOf s.cur = .router r →
    routerOnSend r s.me.router v = (σ, ds) → (∀ dx ∈ ds, s.routerMaySend s.cur dx.1 = true) →
    s.params.atomicDelivery = true →
    ∃ u, exec (.out a) s = .next u ∧ OthersKept s u ∧
      u.me = { s.me with noData := 0, pc := s.me.pc + 2, router := σ } ∧
      (∀ q, u.queue q = s.queue q ++ ds.filterMap fun dx => if dx.1 = .queue q then some dx.2 else none) ∧
      u.hostOut = s.hostOut ++ ds.filterMap fun dx => if dx.1 = .host then some (s.cur, dx.2) else none

/-- R76, R77, R78: JNZ and JZ complete: `pc` becomes the second operand, unchecked, if the first is not 0 (JNZ) or is
0 (JZ), else `PC + 3`; nothing else changes. -/
def Obligations.JumpsTestAndGo : Prop :=
  ∀ (s : State) (a b : ReadOp) (x y : Int), readOperand s.me a = some x → readOperand s.me b = some y →
    exec (.jnz a b) s = .next (s.setMe { s.me with pc := if x ≠ 0 then y else s.me.pc + 3 }) ∧
    exec (.jz a b) s = .next (s.setMe { s.me with pc := if x = 0 then y else s.me.pc + 3 })

/-- R81: ARB completes: `rb` becomes `rb` plus the operand (read with the old `rb`), unchecked; `pc` advances by 2;
nothing else changes. -/
def Obligations.ArbAddsToTheRelativeBase : Prop :=
  ∀ (s : State) (a : ReadOp) (x : Int), readOperand s.me a = some x →
    exec (.arb a) s = .next (s.setMe { s.me with rb := s.me.rb + x, pc := s.me.pc + 2 })

/-- R82: HLT completes: the status becomes Halted; `pc`, `rb` and memory stay, as does everything else. -/
def Obligations.HltOnlyHalts : Prop :=
  ∀ (s : State), s.cur < s.machines.length →
    ∃ u, exec .hlt s = .next u ∧ u.me = { s.me with status := .halted } ∧ OthersKept s u ∧ PortsKept s u

/-! ### Faults -/

/-- R58, R84 (5), R85: an instruction whose first unreadable operand has a negative address enters `InvalidAddress`
and changes nothing else, sends nothing and does not jump. -/
def Obligations.NegativeOperandAddressFaults : Prop :=
  ∀ (s : State) (i : Instr), (∃ o ∈ readOps i, readOperand s.me o = none) →
    exec i s = .next (s.afterFault .invalidAddress)

/-- R71, R72, R79, R80, R85: a negative target of ADD, MUL, LT or EQ enters `InvalidAddress`; memory is unchanged. -/
def Obligations.NegativeTargetFaults : Prop :=
  ∀ (s : State) (a b : ReadOp) (t : WriteOp) (x y : Int), readOperand s.me a = some x → readOperand s.me b = some y →
    targetAddr s.me t < 0 →
    exec (.add a b t) s = .next (s.afterFault .invalidAddress) ∧
    exec (.mul a b t) s = .next (s.afterFault .invalidAddress) ∧
    exec (.lt a b t) s = .next (s.afterFault .invalidAddress) ∧
    exec (.eq a b t) s = .next (s.afterFault .invalidAddress)

/-- R59, R40: a fetch at a negative `pc` raises `InvalidAddress`; at an unwritten cell, `UnknownOpcode`. The machine
enters the fault with `pc` recorded, and nothing else changes (R85). -/
def Obligations.FetchFaults : Prop :=
  ∀ (s : State),
    (s.me.pc < 0 → runInstruction s = .next (s.afterFault .invalidAddress)) ∧
    (0 ≤ s.me.pc → s.me.mem.read s.me.pc = some 0 → runInstruction s = .next (s.afterFault .unknownOpcode))

/-- R85: faults are precise. If a Running machine's instruction step ends with the machine Faulted, its `pc`, `rb`,
memory, outbox and router are as before, the recorded `pc` is the instruction's, and no value was sent: every queue is
as before, but that IN may have taken the head of its own. -/
def Obligations.FaultsArePrecise : Prop :=
  ∀ (s u : State) (k : FaultKind) (pc : Int), s.cur < s.machines.length → s.me.status = .running →
    runInstruction s = .next u → u.me.status = .faulted k pc →
    pc = s.me.pc ∧ u.me.pc = s.me.pc ∧ u.me.rb = s.me.rb ∧ u.me.mem = s.me.mem ∧ u.me.outbox = s.me.outbox ∧
      u.me.router = s.me.router ∧ u.hostOut = s.hostOut ∧ u.quiesced = s.quiesced ∧ OthersKept s u ∧
      (∀ q, q ≠ s.inputOf s.cur → u.queue q = s.queue q) ∧
      (u.inputQueue s.cur = s.inputQueue s.cur ∨ ∃ v, s.inputQueue s.cur = v :: u.inputQueue s.cur) ∧
      ((∀ t, fetch s.me ≠ .ok (.inp t)) → u = s.afterFault k)

/-- R48, R43, R111: a store is seen by the very next fetch, wherever it lands: in the next instruction's own word, in
one of its parameter words, or elsewhere. For each storing instruction: ADD, MUL, LT, EQ, and IN with a value or with a
no-data poll. -/
def Obligations.StoreIsSeenByTheNextFetch : Prop :=
  (∀ (s : State) (a b : ReadOp) (t : WriteOp) (x y : Int), s.cur < s.machines.length → s.me.mem.wf → 0 ≤ s.me.pc →
    readOperand s.me a = some x → readOperand s.me b = some y → 0 ≤ targetAddr s.me t →
    (∃ u, exec (.add a b t) s = .next u ∧ FetchSeesStore s u (targetAddr s.me t) (x + y) 4) ∧
    (∃ u, exec (.mul a b t) s = .next u ∧ FetchSeesStore s u (targetAddr s.me t) (x * y) 4) ∧
    (∃ u, exec (.lt a b t) s = .next u ∧ FetchSeesStore s u (targetAddr s.me t) (if x < y then 1 else 0) 4) ∧
    (∃ u, exec (.eq a b t) s = .next u ∧ FetchSeesStore s u (targetAddr s.me t) (if x = y then 1 else 0) 4)) ∧
  (∀ (s : State) (t : WriteOp), s.cur < s.machines.length → s.me.mem.wf → 0 ≤ s.me.pc → 0 ≤ targetAddr s.me t →
    (∀ v vs, s.inputQueue s.cur = v :: vs →
      ∃ u, exec (.inp t) s = .next u ∧ FetchSeesStore s u (targetAddr s.me t) v 2) ∧
    (∀ d, s.inputQueue s.cur = [] → s.disciplineOf s.cur = .polling → s.params.noDataValue = some d →
      ∃ u, exec (.inp t) s = .next u ∧ FetchSeesStore s u (targetAddr s.me t) d 2))

/-- UD9, R96, R97, R103: where an OPEN parameter that a step needs is not chosen, or a router sends where it is no
declared producer, the step is refused by name (the model's choice of where it stops: log 11, 12, 16). -/
def Obligations.OpenParametersAndUndeclaredSendsStopByName : Prop :=
  ∀ (s : State),
    (∀ t, s.inputQueue s.cur = [] → s.disciplineOf s.cur = .polling → s.params.noDataValue = none →
      exec (.inp t) s = .refused .noDataValueNotChosen) ∧
    (∀ a v r, s.cur < s.machines.length → readOperand s.me a = some v → s.outputOf s.cur = .router r →
      (∃ dx ∈ (routerOnSend r s.me.router v).2, s.routerMaySend s.cur dx.1 = false) →
      exec (.out a) s = .refused .undeclaredProducer) ∧
    (s.anyFaulted = true → s.params.faultPolicy = none → orchestratorStep s = .refused .faultPolicyNotChosen)

/-! ### What no instruction does -/

/-- R18: only opcode 9 writes `rb`. -/
def Obligations.OnlyArbWritesTheRelativeBase : Prop :=
  ∀ (s u : State) (i : Instr), exec i s = .next u → (∀ a, i ≠ .arb a) → u.me.rb = s.me.rb

/-- R42, R26, R27: an instruction changes no other machine's state, no parameter and no latch of the orchestrator's
but `quiesced`. -/
def Obligations.InstructionTouchesOnlyItsMachine : Prop :=
  ∀ (s u : State) (i : Instr), exec i s = .next u → OthersKept s u

/-- R38: all I/O goes through opcodes 3 and 4; no other instruction touches a queue, the host's log, `noData`, the
outbox or the router. -/
def Obligations.OnlyInAndOutTouchPorts : Prop :=
  ∀ (s u : State) (i : Instr), exec i s = .next u → (∀ t, i ≠ .inp t) → (∀ a, i ≠ .out a) →
    PortsKept s u ∧ u.me.noData = s.me.noData ∧ u.me.outbox = s.me.outbox ∧ u.me.router = s.me.router

/-- R37: an instruction writes at most the one cell its write-role operand names; every other address reads as
before, and every address does where the instruction has no write-role operand. -/
def Obligations.InstructionWritesOnlyItsTarget : Prop :=
  ∀ (s u : State) (i : Instr), exec i s = .next u →
    ∀ b : Int, storeAddr s.me i ≠ some b → u.me.mem.read b = s.me.mem.read b

/-- R17, R61: where a machine's instruction takes no jump and the machine goes on Running, `pc` advances by the
instruction's length; where HLT or a fault ends it, and where IN waits, `pc` stays. -/
def Obligations.PcAdvancesByTheLength : Prop :=
  ∀ (s u : State) (i : Instr), s.cur < s.machines.length → s.me.status = .running → exec i s = .next u →
    (∀ a b, i ≠ .jnz a b) → (∀ a b, i ≠ .jz a b) →
    (u.me.status = .running ∧ u.me.pc = s.me.pc + (i.length : Int)) ∨ (u.me.status ≠ .running ∧ u.me.pc = s.me.pc) ∨
      (∃ t, i = .inp t ∧ u = s)

/-! ### The step -/

/-- R60, R62: where the next event is the step of a Running machine with an empty outbox, in an accepted system whose
run has not ended, and the words at its `pc` decode to `i`, the step is `exec i` by that machine; the agenda moves on. -/
def Obligations.StepRunsTheDecodedInstruction : Prop :=
  ∀ (s : State) (k : Nat) (i : Instr), s.problem = none → runEnd s = none → s.nextEvent = .machine k →
    k < s.machines.length → (s.machine k).status = .running → (s.machine k).outbox = [] → 0 ≤ (s.machine k).pc →
    decode ((s.machine k).mem.get (s.machine k).pc.toNat)
      (fun j => (s.machine k).mem.get ((s.machine k).pc.toNat + j)) = .ok i →
    step s = exec i { s with agenda := s.agenda.tail, cur := k }

/-- R60, R85: where instead the fetch or the decode raises `f`, the step enters that fault. -/
def Obligations.StepEntersTheDecodeFault : Prop :=
  ∀ (s : State) (k : Nat) (f : FaultKind), s.problem = none → runEnd s = none → s.nextEvent = .machine k →
    k < s.machines.length → (s.machine k).status = .running → (s.machine k).outbox = [] →
    fetch (s.machine k) = .error f →
    ∃ u, step s = .next u ∧ u.machine k = { s.machine k with status := .faulted f (s.machine k).pc } ∧
      (∀ j, j ≠ k → u.machine j = s.machine j) ∧ PortsKept s u

/-- R86, R19, R82: a Halted or Faulted machine never takes another step: it has no instruction and no delivery step, its
turn changes nothing (a turn without a step is a step that changes nothing: log 6), and no step of the system changes
anything of it. -/
def Obligations.TerminalMachinesNeverChange : Prop :=
  ∀ (s : State) (i : Nat), s.Inv → i < s.machines.length → (s.machine i).status ≠ .running →
    s.machineEnabled i = false ∧ s.deliverEnabled i = false ∧ machineStep i s = .next s ∧ deliverStep i s = .next s ∧
      ∀ u, step s = .next u → u.machine i = s.machine i

/-- R98: while its outbox is non-empty a machine has no instruction step, and its delivery step removes the head and
delivers it, the machine otherwise unchanged. That its turn changes nothing is the model's (log 6). -/
def Obligations.DeliveryStepsEmptyTheOutboxInOrder : Prop :=
  ∀ (s : State) (i : Nat) (d : Dest) (x : Int) (rest : List (Dest × Int)), i < s.machines.length →
    (s.machine i).outbox = (d, x) :: rest →
    machineStep i s = .next s ∧ s.machineEnabled i = false ∧
    ∃ u, deliverStep i s = .next u ∧ u.machine i = { s.machine i with outbox := rest } ∧
      (∀ j, j ≠ i → u.machine j = s.machine j) ∧
      (∀ q, u.queue q = if d = .queue q ∧ q < s.queues.length then s.queue q ++ [x] else s.queue q) ∧
      u.hostOut = (if d = .host then s.hostOut ++ [(i, x)] else s.hostOut)

/-- R94, R95: in one step a queue stays as it is, or its one consumer's IN takes its head, or values are appended at
its tail; nothing is lost, duplicated or reordered. The host's log only grows (R26). -/
def Obligations.QueuesAreFifo : Prop :=
  ∀ (s u : State), step s = .next u →
    (∀ q, u.queue q = s.queue q ∨
      (∃ i v t, s.nextEvent = .machine i ∧ s.inputOf i = q ∧ fetch (s.machine i) = .ok (.inp t) ∧
        s.queue q = v :: u.queue q) ∨
      (∃ vs, vs ≠ [] ∧ u.queue q = s.queue q ++ vs)) ∧
    ∃ sent, u.hostOut = s.hostOut ++ sent

/-- R92, R104, R106: the host appends only to a queue that lists it as a producer, and its append is that one word at
the tail. -/
def Obligations.HostAppendsOnlyWhereItIsAProducer : Prop :=
  ∀ (s : State) (q : Nat) (v : Int), q < s.queues.length →
    (Producer.host ∈ (s.queueParams q).producers →
      ∃ u, stepEvent (.hostAppend q v) s = .next u ∧ u.queue q = s.queue q ++ [v] ∧
        (∀ p, p ≠ q → u.queue p = s.queue p) ∧ u.machines = s.machines ∧ u.hostOut = s.hostOut) ∧
    (Producer.host ∉ (s.queueParams q).producers → stepEvent (.hostAppend q v) s = .next s)

/-- R42, R104, R107: delivery steps, the orchestrator, the host and teardown change no machine's memory, `pc`, `rb`,
status or `noData`. -/
def Obligations.OnlyInstructionsChangeMachines : Prop :=
  ∀ (s u : State) (e : Event) (i : Nat), (∀ k, e ≠ .machine k) → stepEvent e s = .next u →
    u.machine i = { s.machine i with outbox := (u.machine i).outbox } ∧ u.machines.length = s.machines.length

/-- R114: what an instruction step does to its machine, what it takes and what it sends depend on that machine, the
parameters and the contents of its input queue alone: not on other machines, other queues, the latches or the
schedule. -/
def Obligations.InstructionDependsOnItsOwnMachine : Prop :=
  ∀ (s s' u : State), s.cur < s.machines.length → s'.cur < s'.machines.length → s.cur = s'.cur →
    s.params = s'.params → s.queues.length = s'.queues.length → s.me = s'.me →
    s.inputQueue s.cur = s'.inputQueue s.cur → runInstruction s = .next u →
    ∃ u', runInstruction s' = .next u' ∧ u.me = u'.me ∧ u.inputQueue s.cur = u'.inputQueue s.cur ∧
      (∀ q, q ≠ s.inputOf s.cur → ∃ sent, u.queue q = s.queue q ++ sent ∧ u'.queue q = s'.queue q ++ sent) ∧
      ∃ sent, u.hostOut = s.hostOut ++ sent ∧ u'.hostOut = s'.hostOut ++ sent

/-- R114, R45: steps of two machines wired by single-producer queues commute. If both have an instruction step, their
inputs are `Blocking` and distinct, and their outputs go to distinct queues, then either order leads to the same
state, but for the model's turn field `cur`. -/
def Obligations.WiredMachinesCommute : Prop :=
  ∀ (s : State) (i j qi qj : Nat), i ≠ j → s.inputOf i ≠ s.inputOf j → qi ≠ qj →
    s.outputOf i = .queue qi → s.outputOf j = .queue qj →
    s.disciplineOf i = .blocking → s.disciplineOf j = .blocking →
    s.machineEnabled i = true → s.machineEnabled j = true →
    ∃ si sj sij sji, machineStep i s = .next si ∧ machineStep j si = .next sij ∧
      machineStep j s = .next sj ∧ machineStep i sj = .next sji ∧
      si.machineEnabled j = true ∧ sj.machineEnabled i = true ∧ { sij with cur := 0 } = { sji with cur := 0 }

/-! ### The orchestrator and the end of a run -/

/-- R102, R101, R103: where no fault calls for an abort (no machine is Faulted, or the policy is `Isolate`), the
orchestrator's step sets `quiesced` exactly where the system is a network, it is not yet quiesced and every machine is
idle; it changes nothing else. A network is every input `Polling` (log 17); a turn without a step changes nothing
(log 6). -/
def Obligations.QuiescenceIsDetectedExactlyWhenIdle : Prop :=
  ∀ (s : State), s.anyFaulted = false ∨ s.params.faultPolicy = some .isolate →
    (((∀ i < s.machines.length, s.disciplineOf i = .polling) ∧
        ∀ i < s.machines.length, s.inputQueue i = [] ∧ (s.machine i).outbox = [] ∧ s.routerPendingAt i = false ∧
          ((s.machine i).status ≠ .running ∨ s.params.idlePolls ≤ (s.machine i).noData)) →
      orchestratorStep s = .next { s with quiesced := true }) ∧
    (¬ ((∀ i < s.machines.length, s.disciplineOf i = .polling) ∧
        ∀ i < s.machines.length, s.inputQueue i = [] ∧ (s.machine i).outbox = [] ∧ s.routerPendingAt i = false ∧
          ((s.machine i).status ≠ .running ∨ s.params.idlePolls ≤ (s.machine i).noData)) →
      orchestratorStep s = .next s)

/-- R102 with `onIdle = Terminate`: after quiescence no step is enabled; the run has ended, `Quiesced` where no machine
is Faulted or some machine is still Running (R116's line `Faulted` asks that the others ended: log 18). With
`onIdle = Report` an append takes the latch back. -/
def Obligations.QuiescenceEndsTheNetwork : Prop :=
  ∀ (s : State), s.problem = none → s.quiesced = true →
    (s.params.onIdle = .terminate → s.aborted = false → s.tornDown = false →
      (s.anyFaulted = false ∨ ∃ i < s.machines.length, (s.machine i).status = .running) →
      step s = .fault (.runEnded .quiesced)) ∧
    (s.params.onIdle = .report → ∀ q v, (s.enqueue q v).quiesced = false)

/-- R103: under `AbortAll` the orchestrator's next step after a fault sets `aborted`, and then no step is enabled;
under `Isolate` it never does. -/
def Obligations.FaultPolicyDecidesTheAbort : Prop :=
  ∀ (s : State), s.problem = none → s.anyFaulted = true →
    (s.params.faultPolicy = some .abortAll →
      orchestratorStep s = .next { s with aborted := true } ∧
      step { s with aborted := true } = .fault (.runEnded .aborted)) ∧
    (s.params.faultPolicy = some .isolate → ∀ u, orchestratorStep s = .next u → u.aborted = s.aborted)

/-- R107: teardown is always possible, changes no machine and no queue, and after it no step of any agent is enabled. A
run it ends while some machine is Running ends `TornDown`, also where another machine is Faulted (R116). -/
def Obligations.TeardownEndsTheRun : Prop :=
  ∀ (s : State), s.problem = none →
    ∃ u, stepEvent .teardown s = .next u ∧ u.machines = s.machines ∧ u.queues = s.queues ∧ u.hostOut = s.hostOut ∧
      (∃ e, step u = .fault (.runEnded e)) ∧
      (s.aborted = false → (∃ i < s.machines.length, (s.machine i).status = .running) →
        step u = .fault (.runEnded .tornDown))

/-- R116: at a `Deadlock` end every machine that is Running waits at opcode 3 on an empty `Blocking` queue that the
host does not feed, and some machine does. -/
def Obligations.DeadlockMeansEveryRunningMachineWaits : Prop :=
  ∀ (s : State), s.Inv → runEnd s = some .deadlock →
    (∃ i, i < s.machines.length ∧ (s.machine i).status = .running) ∧
    ∀ i < s.machines.length, (s.machine i).status = .running →
      (∃ t, fetch (s.machine i) = .ok (.inp t)) ∧ s.inputQueue i = [] ∧ s.disciplineOf i = .blocking ∧
        Producer.host ∉ (s.queueParams (s.inputOf i)).producers

/-- R116: at an `AllHalted` end every machine is Halted and every outbox empty; at a `Faulted` end some machine is
Faulted, the policy is `Isolate`, the others ended and the system is not aborted; at a `Quiesced` end the latch is set
under `Terminate`, at an `Aborted` and a `TornDown` end theirs. The lines are read in order, and a Faulted machine under
`Isolate` whose others ended makes the end of a run that is not aborted `Faulted` (log 18). -/
def Obligations.EndsMeanWhatTheTableSays : Prop :=
  ∀ (s : State),
    (runEnd s = some .allHalted → ∀ m ∈ s.machines, m.status = .halted ∧ m.outbox = []) ∧
    (runEnd s = some .faulted → s.aborted = false ∧ s.params.faultPolicy = some .isolate ∧
      (∃ m ∈ s.machines, ∃ k pc, m.status = .faulted k pc) ∧ ∀ m ∈ s.machines, m.status ≠ .running) ∧
    (runEnd s = some .quiesced → s.quiesced = true ∧ s.params.onIdle = .terminate) ∧
    (runEnd s = some .aborted → s.aborted = true) ∧ (runEnd s = some .tornDown → s.tornDown = true) ∧
    (∀ e, runEnd s = some e → s.aborted = true → e = .aborted) ∧
    (∀ e, runEnd s = some e → s.aborted = false → s.params.faultPolicy = some .isolate →
      (∃ m ∈ s.machines, ∃ k pc, m.status = .faulted k pc) → (∀ m ∈ s.machines, m.status ≠ .running) → e = .faulted)

/-- R116: where the run has not ended, some agent's step is enabled: a machine's, a delivery, the orchestrator's, or
the host's append to a waiting machine's queue; and then `step` answers no `runEnded`. -/
def Obligations.AnUnendedRunHasAStep : Prop :=
  ∀ (s : State), s.problem = none →
    ((∃ e, step s = .fault (.runEnded e)) ↔
      s.stopped = true ∨ (s.orchestratorEnabled = false ∧ ∀ i < s.machines.length,
        s.machineEnabled i = false ∧ s.deliverEnabled i = false ∧ s.hostMayWake i = false))

/-- R105: what `run` returns is the result of a state the system's steps lead to, in which that machine is Halted
(`Ok` with its memory) or Faulted (`Err` with kind and `pc`); and `run` does return it once the machine's status has
left Running within the bound on steps. -/
def Obligations.RunReturnsTheMachinesResult : Prop :=
  (∀ (fuel i : Nat) (s : State) (r : RunResult), runMachine fuel i s = some r →
    ∃ k u, k ≤ fuel ∧ Host.Core.run Sys2Proof.core k s = .next u ∧
      (((u.machine i).status = .halted ∧ r = .ok (u.machine i).mem) ∨
        ∃ kind pc, (u.machine i).status = .faulted kind pc ∧ r = .err kind pc)) ∧
  (∀ (fuel i k : Nat) (s u : State), s.Inv → k ≤ fuel → Host.Core.run Sys2Proof.core k s = .next u →
    ((u.machine i).status = .halted → runMachine fuel i s = some (.ok (u.machine i).mem)) ∧
    (∀ kind pc, (u.machine i).status = .faulted kind pc → runMachine fuel i s = some (.err kind pc)))

/-! ### Reset and the invariant -/

/-- R30, R108: the state after construction, field by field. -/
def Obligations.ConstructionGivesTheResetState : Prop :=
  ∀ (p : Params),
    (∀ i (mp : MachineParams), p.machines[i]? = some mp →
      (∀ a : Nat, ((construct p).machine i).mem.read (a : Int) = some (mp.prog.getD a 0)) ∧
      ((construct p).machine i).pc = 0 ∧ ((construct p).machine i).rb = 0 ∧
      ((construct p).machine i).status = .running ∧ ((construct p).machine i).noData = 0 ∧
      ((construct p).machine i).outbox = [] ∧
      ∀ r, mp.output = .router r → ((construct p).machine i).router = r.init) ∧
    (∀ q (qp : QueueParams), p.queues[q]? = some qp → (construct p).queue q = qp.init) ∧
    (construct p).hostOut = [] ∧ (construct p).quiesced = false ∧ (construct p).aborted = false

/-- R92, R94, R109, UD8, UD9: two machines' inputs bound to one queue, a `Polling` queue without `noDataValue`, or no
`faultPolicy` chosen: construction is refused, and so is every step of a state with such parameters (log 15). -/
def Obligations.BadWiringsAreRefused : Prop :=
  ∀ (s : State),
    ((∃ i j, i < j ∧ j < s.params.machines.length ∧ s.inputOf i = s.inputOf j) ∨
      (s.params.noDataValue = none ∧ ∃ qp ∈ s.params.queues, qp.discipline = .polling) ∨
      s.params.faultPolicy = none) →
    (∃ e, newSystem s.params = .error e) ∧ ∃ e, step s = .refused (.illFormedSystem e)

/-- The invariant holds after reset, which is the construction of the model's one-machine system (log 13), and after
the construction of any system the spec lets run. -/
def Obligations.InvariantHoldsAfterReset : Prop :=
  State.reset = construct Params.single ∧ State.reset.Inv ∧ ∀ (p : Params) (s : State), newSystem p = .ok s → s.Inv

/-- Every step keeps the invariant: memories stay canonical, terminal machines have nothing undelivered, `noData`
stays 0 under `Blocking`, faulted machines stay where they faulted, the latches mean what they say. -/
def Obligations.EveryStepKeepsTheInvariant : Prop :=
  ∀ (s u : State), s.Inv → step s = .next u → u.Inv

/-! ### Program text and assembler -/

/-- R66: what the loader refuses: a text of white space only; an empty field, between two commas or at either end of the
list; white space inside the list; a sign that no digit follows; a sign that does not begin its field; a character that
is neither a digit, a sign, a comma nor white space. -/
def Obligations.BadProgramTextIsRefused : Prop :=
  (∀ text : List Char, text.all isWs = true → parseProgram text = none) ∧
  (∀ pre post : List Char, parseProgram (pre ++ ',' :: ',' :: post) = none) ∧
  (∀ ws rest : List Char, ws.all isWs = true → parseProgram (ws ++ ',' :: rest) = none ∧
    parseProgram (rest ++ ',' :: ws) = none) ∧
  (∀ (pre post : List Char) (c : Char), isWs c = true → (∃ x ∈ pre, isWs x = false) → (∃ x ∈ post, isWs x = false) →
    parseProgram (pre ++ c :: post) = none) ∧
  (∀ (pre post ws : List Char) (sign : Char), sign = '+' ∨ sign = '-' → ws.all isWs = true →
    parseProgram (pre ++ sign :: ',' :: post) = none ∧ parseProgram (pre ++ sign :: ws) = none) ∧
  (∀ (pre post : List Char) (x sign : Char), sign = '+' ∨ sign = '-' → x ≠ ',' → isWs x = false →
    parseProgram (pre ++ x :: sign :: post) = none) ∧
  (∀ (text : List Char) (c : Char), c ∈ text → isWs c = false → digitValue c = none → c ≠ '+' → c ≠ '-' → c ≠ ',' →
    parseProgram text = none)

/-- R66: the loader accepts exactly the grammar, and gives the values it writes in base 10: a text is read as `vs` if and
only if it is white space, fields separated by commas, white space, and each field is a sign or none and at least one
digit, with that value; a text the grammar does not give is refused. -/
def Obligations.ProgramTextReadsFieldByField : Prop :=
  (∀ (text : List Char) (vs : List Int), parseProgram text = some vs ↔ WrittenProgram text vs) ∧
  (∀ text : List Char, parseProgram text = none ↔ ¬ ∃ vs, WrittenProgram text vs) ∧
  (∀ (f : List Char) (v : Int), parseInt f = some v ↔ WrittenInt f v)

/-- R67, R68, R69: the line of each mnemonic, with its operands as R67 writes them, assembles to the encoding of that
mnemonic's instruction (ADD is opcode 1: log 19); `[rb-o]` is the relative operand of offset `-o`; the two
pseudo-instructions assemble to what they expand to, JMP with any read operand (log 20); and each mnemonic is read from
its own letters. -/
def Obligations.AssemblerWritesTheEncoding : Prop :=
  (∀ (a b : ReadOp) (t : WriteOp),
    assembleLine .ADD [writtenRead a, writtenRead b, writtenWrite t] = some (encode (.add a b t)) ∧
    assembleLine .MUL [writtenRead a, writtenRead b, writtenWrite t] = some (encode (.mul a b t)) ∧
    assembleLine .LT [writtenRead a, writtenRead b, writtenWrite t] = some (encode (.lt a b t)) ∧
    assembleLine .EQ [writtenRead a, writtenRead b, writtenWrite t] = some (encode (.eq a b t)) ∧
    assembleLine .JNZ [writtenRead a, writtenRead b] = some (encode (.jnz a b)) ∧
    assembleLine .JZ [writtenRead a, writtenRead b] = some (encode (.jz a b)) ∧
    assembleLine .IN [writtenWrite t] = some (encode (.inp t)) ∧
    assembleLine .OUT [writtenRead a] = some (encode (.out a)) ∧
    assembleLine .ARB [writtenRead a] = some (encode (.arb a)) ∧
    assembleLine .HLT [] = some (encode .hlt) ∧
    assembleLine .JMP [writtenRead b] = some (encode (.jnz ⟨.immediate, 1⟩ b)) ∧
    ∀ d, assembleLine .MOV [writtenRead a, .cell (.lit d)] = some (encode (.add a ⟨.immediate, 0⟩ ⟨.literal, d⟩))) ∧
  (∀ o : Int, assembleLine .OUT [.relative true (.lit o)] = some (encode (.out ⟨.relative, -o⟩)) ∧
    assembleLine .IN [.relative true (.lit o)] = some (encode (.inp ⟨.relative, -o⟩))) ∧
  parseMnemonic "ADD".toList = some .ADD ∧ parseMnemonic "MUL".toList = some .MUL ∧
  parseMnemonic "IN".toList = some .IN ∧ parseMnemonic "OUT".toList = some .OUT ∧
  parseMnemonic "JNZ".toList = some .JNZ ∧ parseMnemonic "JZ".toList = some .JZ ∧
  parseMnemonic "LT".toList = some .LT ∧ parseMnemonic "EQ".toList = some .EQ ∧
  parseMnemonic "ARB".toList = some .ARB ∧ parseMnemonic "HLT".toList = some .HLT ∧
  parseMnemonic "JMP".toList = some .JMP ∧ parseMnemonic "MOV".toList = some .MOV
end

