-- ==== Sys2Proof/Laws/Memory.lean ====
section
/-! SUPPORT. Laws of the memory unit: reading after writing, and the canonical form. -/

namespace Sys2Proof

/-- A canonical memory whose addresses all lie above `a` reads `unwritten` at `a`. -/
theorem Memory.get_of_lt {m : Memory} {a : Nat} (h : ∀ c ∈ m, a < c.1) : m.get a = Memory.unwritten := by
  induction m with
  | nil => rfl
  | cons c rest ih =>
    obtain ⟨b, w⟩ := c
    have hb : a < b := h (b, w) (by simp)
    have : a ≠ b := by omega
    simp only [Memory.get, this, if_false]
    exact ih fun c hc => h c (by simp [hc])

theorem Memory.wf_nil : Memory.wf [] := ⟨List.Pairwise.nil, by simp⟩

theorem Memory.wf_tail {c : Cell} {m : Memory} (h : Memory.wf (c :: m)) : Memory.wf m :=
  ⟨(List.pairwise_cons.1 h.1).2, fun x hx => h.2 x (by simp [hx])⟩

theorem Memory.lt_of_wf_cons {c : Cell} {m : Memory} (h : Memory.wf (c :: m)) : ∀ x ∈ m, c.1 < x.1 :=
  (List.pairwise_cons.1 h.1).1

/-- Every address of a written memory is the written one or was listed before. -/
theorem Memory.mem_set {m : Memory} {a : Nat} {v : Int} {c : Cell} (h : c ∈ m.set a v) :
    c ∈ m ∨ (c = (a, v) ∧ v ≠ Memory.unwritten) := by
  induction m with
  | nil =>
    simp only [Memory.set] at h
    split at h
    · simp at h
    · rename_i hv; right; exact ⟨by simpa using h, hv⟩
  | cons x rest ih =>
    obtain ⟨b, w⟩ := x
    simp only [Memory.set] at h
    split at h
    · split at h
      · exact .inl h
      · rename_i hv
        rcases List.mem_cons.1 h with h | h
        · exact .inr ⟨h, hv⟩
        · exact .inl h
    · split at h
      · split at h
        · exact .inl (by simp [h])
        · rename_i hv
          rcases List.mem_cons.1 h with h | h
          · exact .inr ⟨h, hv⟩
          · exact .inl (by simp [h])
      · rcases List.mem_cons.1 h with h | h
        · exact .inl (by simp [h])
        · rcases ih h with h | h
          · exact .inl (by simp [h])
          · exact .inr h

/-- A write keeps the canonical form. -/
theorem Memory.set_wf {m : Memory} (a : Nat) (v : Int) (h : m.wf) : (m.set a v).wf := by
  induction m with
  | nil =>
    simp only [Memory.set]
    split
    · exact Memory.wf_nil
    · rename_i hv
      exact ⟨by simp, by simpa using hv⟩
  | cons x rest ih =>
    obtain ⟨b, w⟩ := x
    have hlt := Memory.lt_of_wf_cons h
    have htl := Memory.wf_tail h
    simp only [Memory.set]
    split
    · rename_i hab
      split
      · exact h
      · rename_i hv
        refine ⟨List.pairwise_cons.2 ⟨fun y hy => ?_, h.1⟩, fun y hy => ?_⟩
        · rcases List.mem_cons.1 hy with rfl | hy
          · exact hab
          · exact lt_trans hab (hlt y hy)
        · rcases List.mem_cons.1 hy with rfl | hy
          · exact hv
          · exact h.2 y hy
    · rename_i hab
      split
      · rename_i heq
        subst heq
        split
        · exact htl
        · rename_i hv
          refine ⟨List.pairwise_cons.2 ⟨hlt, htl.1⟩, fun y hy => ?_⟩
          rcases List.mem_cons.1 hy with rfl | hy
          · exact hv
          · exact htl.2 y hy
      · rename_i hne
        have hr := ih htl
        refine ⟨List.pairwise_cons.2 ⟨fun y hy => ?_, hr.1⟩, fun y hy => ?_⟩
        · rcases Memory.mem_set hy with hy | ⟨rfl, _⟩
          · exact hlt y hy
          · show b < a
            omega
        · rcases List.mem_cons.1 hy with rfl | hy
          · exact h.2 _ (by simp)
          · exact hr.2 y hy

/-- A write leaves every other address alone, in any list. -/
theorem Memory.get_set_ne {m : Memory} {a b : Nat} (v : Int) (hne : b ≠ a) : (m.set a v).get b = m.get b := by
  induction m with
  | nil =>
    simp only [Memory.set]
    split
    · rfl
    · simp [Memory.get, hne]
  | cons x rest ih =>
    obtain ⟨c, w⟩ := x
    simp only [Memory.set]
    split
    · split
      · rfl
      · simp [Memory.get, hne]
    · split
      · rename_i heq
        subst heq
        split <;> simp [Memory.get, hne]
      · simp only [Memory.get, ih]

/-- A read after a write gives what was written. -/
theorem Memory.get_set_self {m : Memory} (a : Nat) (v : Int) (h : m.wf) : (m.set a v).get a = v := by
  induction m with
  | nil =>
    simp only [Memory.set]
    split
    · rename_i hv; rw [hv]; rfl
    · simp [Memory.get]
  | cons x rest ih =>
    obtain ⟨c, w⟩ := x
    have hlt := Memory.lt_of_wf_cons h
    simp only [Memory.set]
    split
    · rename_i hac
      split
      · rename_i hv
        rw [hv]
        apply Memory.get_of_lt
        intro y hy
        rcases List.mem_cons.1 hy with rfl | hy
        · exact hac
        · exact lt_trans hac (hlt y hy)
      · simp [Memory.get]
    · split
      · rename_i heq
        subst heq
        split
        · rename_i hv
          rw [hv]
          exact Memory.get_of_lt hlt
        · simp [Memory.get]
      · rename_i hne
        simp only [Memory.get, hne, if_false]
        exact ih (Memory.wf_tail h)

/-- What a natural address reads as, after a write. -/
theorem Memory.get_set {m : Memory} (a b : Nat) (v : Int) (h : m.wf) :
    (m.set a v).get b = if b = a then v else m.get b := by
  split
  · rename_i hb; subst hb; exact Memory.get_set_self _ _ h
  · rename_i hb; exact Memory.get_set_ne v hb

theorem Memory.read_of_nonneg {m : Memory} {a : Int} (h : 0 ≤ a) : m.read a = some (m.get a.toNat) := by
  simp only [Memory.read]; rw [if_neg (by omega)]

theorem Memory.read_of_neg {m : Memory} {a : Int} (h : a < 0) : m.read a = none := by simp [Memory.read, h]

theorem Memory.write_of_nonneg {m : Memory} {a : Int} {v : Int} (h : 0 ≤ a) : m.write a v = some (m.set a.toNat v) := by
  simp only [Memory.write]; rw [if_neg (by omega)]

theorem Memory.write_of_neg {m : Memory} {a : Int} {v : Int} (h : a < 0) : m.write a v = none := by
  simp [Memory.write, h]

/-- A write that succeeds keeps the canonical form. -/
theorem Memory.write_wf {m m' : Memory} {a : Int} {v : Int} (hw : m.write a v = some m') (h : m.wf) : m'.wf := by
  simp only [Memory.write] at hw
  split at hw
  · simp at hw
  · cases hw; exact Memory.set_wf _ _ h

/-- A write that succeeds, seen through reads. -/
theorem Memory.read_write_self {m m' : Memory} {a : Int} {v : Int} (hw : m.write a v = some m') (h : m.wf) :
    m'.read a = some v := by
  simp only [Memory.write] at hw
  split at hw
  · simp at hw
  · rename_i ha
    cases hw
    rw [Memory.read_of_nonneg (by omega), Memory.get_set_self _ _ h]

theorem Memory.read_write_ne {m m' : Memory} {a b : Int} {v : Int} (hw : m.write a v = some m') (hne : b ≠ a) :
    m'.read b = m.read b := by
  simp only [Memory.write] at hw
  split at hw
  · simp at hw
  · rename_i ha
    cases hw
    simp only [Memory.read]
    split
    · rfl
    · rw [Memory.get_set_ne]
      omega

theorem Memory.load_wf (ws : List Int) : ∀ (m : Memory) (a : Nat), m.wf → (m.load a ws).wf := by
  induction ws with
  | nil => intro m a h; exact h
  | cons w ws ih => intro m a h; exact ih _ _ (Memory.set_wf _ _ h)

theorem Memory.ofProgram_wf (prog : List Int) : (Memory.ofProgram prog).wf := Memory.load_wf prog [] 0 Memory.wf_nil

/-- What a loaded list of words reads as (R39). -/
theorem Memory.get_load (ws : List Int) : ∀ (m : Memory) (a b : Nat), m.wf →
    (m.load a ws).get b = if a ≤ b ∧ b < a + ws.length then ws.getD (b - a) 0 else m.get b := by
  induction ws with
  | nil => intro m a b h; simp [Memory.load]
  | cons w ws ih =>
    intro m a b h
    rw [Memory.load, ih _ _ _ (Memory.set_wf _ _ h), Memory.get_set _ _ _ h]
    by_cases hab : b = a
    · subst hab; simp
    · by_cases hle : a + 1 ≤ b
      · have e : b - a = (b - (a + 1)) + 1 := by omega
        by_cases hlt : b < a + 1 + ws.length
        · rw [if_pos ⟨hle, hlt⟩, if_pos (by simp; omega), e, List.getD_cons_succ]
        · rw [if_neg (by omega), if_neg hab, if_neg (by simp; omega)]
      · rw [if_neg (by omega), if_neg hab, if_neg (by omega)]

end Sys2Proof
end

