-- ==== Sys2Proof/Laws/State.lean ====
section
/-! SUPPORT. What each update of the state does to each field, so that no later proof unfolds a record update. -/

namespace Sys2Proof.Machine

section SetMachine
variable (s : State) (i : Nat) (m : MachineState)

@[simp] theorem State.setMachine_params : (s.setMachine i m).params = s.params := rfl
@[simp] theorem State.setMachine_machines : (s.setMachine i m).machines = s.machines.set i m := rfl
@[simp] theorem State.setMachine_queues : (s.setMachine i m).queues = s.queues := rfl
@[simp] theorem State.setMachine_hostOut : (s.setMachine i m).hostOut = s.hostOut := rfl
@[simp] theorem State.setMachine_quiesced : (s.setMachine i m).quiesced = s.quiesced := rfl
@[simp] theorem State.setMachine_aborted : (s.setMachine i m).aborted = s.aborted := rfl
@[simp] theorem State.setMachine_tornDown : (s.setMachine i m).tornDown = s.tornDown := rfl
@[simp] theorem State.setMachine_cur : (s.setMachine i m).cur = s.cur := rfl
@[simp] theorem State.setMachine_agenda : (s.setMachine i m).agenda = s.agenda := rfl

end SetMachine

section SetMe
variable (s : State) (m : MachineState)

@[simp] theorem State.setMe_params : (s.setMe m).params = s.params := rfl
@[simp] theorem State.setMe_machines : (s.setMe m).machines = s.machines.set s.cur m := rfl
@[simp] theorem State.setMe_queues : (s.setMe m).queues = s.queues := rfl
@[simp] theorem State.setMe_hostOut : (s.setMe m).hostOut = s.hostOut := rfl
@[simp] theorem State.setMe_quiesced : (s.setMe m).quiesced = s.quiesced := rfl
@[simp] theorem State.setMe_aborted : (s.setMe m).aborted = s.aborted := rfl
@[simp] theorem State.setMe_tornDown : (s.setMe m).tornDown = s.tornDown := rfl
@[simp] theorem State.setMe_cur : (s.setMe m).cur = s.cur := rfl
@[simp] theorem State.setMe_agenda : (s.setMe m).agenda = s.agenda := rfl

end SetMe

section SetQueue
variable (s : State) (q : Nat) (vs : List Int)

@[simp] theorem State.setQueue_params : (s.setQueue q vs).params = s.params := rfl
@[simp] theorem State.setQueue_machines : (s.setQueue q vs).machines = s.machines := rfl
@[simp] theorem State.setQueue_queues : (s.setQueue q vs).queues = s.queues.set q vs := rfl
@[simp] theorem State.setQueue_hostOut : (s.setQueue q vs).hostOut = s.hostOut := rfl
@[simp] theorem State.setQueue_quiesced : (s.setQueue q vs).quiesced = s.quiesced := rfl
@[simp] theorem State.setQueue_aborted : (s.setQueue q vs).aborted = s.aborted := rfl
@[simp] theorem State.setQueue_tornDown : (s.setQueue q vs).tornDown = s.tornDown := rfl
@[simp] theorem State.setQueue_cur : (s.setQueue q vs).cur = s.cur := rfl
@[simp] theorem State.setQueue_agenda : (s.setQueue q vs).agenda = s.agenda := rfl

end SetQueue

section Enqueue
variable (s : State) (q : Nat) (v : Int)

@[simp] theorem State.enqueue_params : (s.enqueue q v).params = s.params := rfl
@[simp] theorem State.enqueue_machines : (s.enqueue q v).machines = s.machines := rfl
@[simp] theorem State.enqueue_queues : (s.enqueue q v).queues = s.queues.set q (s.queue q ++ [v]) := rfl
@[simp] theorem State.enqueue_hostOut : (s.enqueue q v).hostOut = s.hostOut := rfl
@[simp] theorem State.enqueue_quiesced :
    (s.enqueue q v).quiesced = (s.quiesced && decide (s.params.onIdle = .terminate)) := rfl
@[simp] theorem State.enqueue_aborted : (s.enqueue q v).aborted = s.aborted := rfl
@[simp] theorem State.enqueue_tornDown : (s.enqueue q v).tornDown = s.tornDown := rfl
@[simp] theorem State.enqueue_cur : (s.enqueue q v).cur = s.cur := rfl
@[simp] theorem State.enqueue_agenda : (s.enqueue q v).agenda = s.agenda := rfl

end Enqueue

section Deliver
variable (s : State) (i : Nat) (d : Dest) (v : Int)

@[simp] theorem State.deliver_params : (s.deliver i d v).params = s.params := by cases d <;> rfl
@[simp] theorem State.deliver_machines : (s.deliver i d v).machines = s.machines := by cases d <;> rfl
@[simp] theorem State.deliver_aborted : (s.deliver i d v).aborted = s.aborted := by cases d <;> rfl
@[simp] theorem State.deliver_tornDown : (s.deliver i d v).tornDown = s.tornDown := by cases d <;> rfl
@[simp] theorem State.deliver_cur : (s.deliver i d v).cur = s.cur := by cases d <;> rfl
@[simp] theorem State.deliver_agenda : (s.deliver i d v).agenda = s.agenda := by cases d <;> rfl
@[simp] theorem State.deliver_queues_length : (s.deliver i d v).queues.length = s.queues.length := by
  cases d <;> simp [State.deliver]

variable (ds : List (Dest × Int))

@[simp] theorem State.deliverAll_params : (s.deliverAll i ds).params = s.params := by
  induction ds generalizing s with
  | nil => rfl
  | cons x xs ih => exact (ih _).trans (State.deliver_params _ _ _ _)
@[simp] theorem State.deliverAll_machines : (s.deliverAll i ds).machines = s.machines := by
  induction ds generalizing s with
  | nil => rfl
  | cons x xs ih => exact (ih _).trans (State.deliver_machines _ _ _ _)
@[simp] theorem State.deliverAll_aborted : (s.deliverAll i ds).aborted = s.aborted := by
  induction ds generalizing s with
  | nil => rfl
  | cons x xs ih => exact (ih _).trans (State.deliver_aborted _ _ _ _)
@[simp] theorem State.deliverAll_tornDown : (s.deliverAll i ds).tornDown = s.tornDown := by
  induction ds generalizing s with
  | nil => rfl
  | cons x xs ih => exact (ih _).trans (State.deliver_tornDown _ _ _ _)
@[simp] theorem State.deliverAll_cur : (s.deliverAll i ds).cur = s.cur := by
  induction ds generalizing s with
  | nil => rfl
  | cons x xs ih => exact (ih _).trans (State.deliver_cur _ _ _ _)
@[simp] theorem State.deliverAll_agenda : (s.deliverAll i ds).agenda = s.agenda := by
  induction ds generalizing s with
  | nil => rfl
  | cons x xs ih => exact (ih _).trans (State.deliver_agenda _ _ _ _)
@[simp] theorem State.deliverAll_queues_length : (s.deliverAll i ds).queues.length = s.queues.length := by
  induction ds generalizing s with
  | nil => rfl
  | cons x xs ih => exact (ih _).trans (State.deliver_queues_length _ _ _ _)

end Deliver

/-! ### Reading one machine after an update -/

theorem State.machine_of_machines {s t : State} (h : t.machines = s.machines) (i : Nat) : t.machine i = s.machine i := by
  simp only [State.machine, h]

theorem State.machine_setMachine_self {s : State} {i : Nat} (m : MachineState) (h : i < s.machines.length) :
    (s.setMachine i m).machine i = m := by
  simp [State.machine, h]

theorem State.machine_setMachine_ne {s : State} {i j : Nat} (m : MachineState) (h : j ≠ i) :
    (s.setMachine i m).machine j = s.machine j := by
  simp [State.machine, Ne.symm h]

theorem State.me_setMe {s : State} (m : MachineState) (h : s.cur < s.machines.length) : (s.setMe m).me = m :=
  State.machine_setMachine_self m h

theorem State.machine_setMe_ne {s : State} {j : Nat} (m : MachineState) (h : j ≠ s.cur) :
    (s.setMe m).machine j = s.machine j :=
  State.machine_setMachine_ne m h

@[simp] theorem State.setMe_setMe (s : State) (m m' : MachineState) : (s.setMe m).setMe m' = s.setMe m' := by
  simp [State.setMe, State.setMachine]

theorem State.me_advancePc {s : State} (n : Nat) (h : s.cur < s.machines.length) :
    (s.advancePc n).me = { s.me with pc := s.me.pc + (n : Int) } := State.me_setMe _ h

/-- Where `cur` is no machine, an update of it changes nothing. -/
theorem State.setMe_of_not_lt {s : State} (h : ¬ s.cur < s.machines.length) (m : MachineState) : s.setMe m = s := by
  unfold State.setMe State.setMachine
  rw [List.set_eq_of_length_le (by omega)]

/-- A machine's index is one of the list, and its value is a member of it. -/
theorem State.machine_mem {s : State} {i : Nat} (h : i < s.machines.length) : s.machine i ∈ s.machines := by
  simp [State.machine, h]

theorem State.exists_machine {s : State} {m : MachineState} (h : m ∈ s.machines) :
    ∃ i, i < s.machines.length ∧ s.machine i = m := by
  obtain ⟨i, hi, rfl⟩ := List.mem_iff_getElem.1 h
  exact ⟨i, hi, by simp [State.machine, hi]⟩

/-! ### Reading one queue after an update -/

theorem State.queue_of_queues {s t : State} (h : t.queues = s.queues) (q : Nat) : t.queue q = s.queue q := by
  simp only [State.queue, h]

theorem State.queue_setQueue_self {s : State} {q : Nat} (vs : List Int) (h : q < s.queues.length) :
    (s.setQueue q vs).queue q = vs := by
  simp [State.queue, h]

theorem State.queue_setQueue_ne {s : State} {q p : Nat} (vs : List Int) (h : p ≠ q) :
    (s.setQueue q vs).queue p = s.queue p := by
  simp [State.queue, Ne.symm h]

theorem State.queue_enqueue_self {s : State} {q : Nat} (v : Int) (h : q < s.queues.length) :
    (s.enqueue q v).queue q = s.queue q ++ [v] := by
  simp [State.queue, h]

theorem State.queue_enqueue_ne {s : State} {q p : Nat} (v : Int) (h : p ≠ q) :
    (s.enqueue q v).queue p = s.queue p := by
  simp [State.queue, Ne.symm h]

/-- A queue that holds something exists. -/
theorem State.queue_lt_of_ne_nil {s : State} {q : Nat} (h : s.queue q ≠ []) : q < s.queues.length := by
  by_contra hq
  apply h
  simp [State.queue, List.getElem?_eq_none (Nat.le_of_not_lt hq)]

/-! ### The configuration after an update -/

theorem State.inputOf_of_params {s t : State} (h : t.params = s.params) (i : Nat) : t.inputOf i = s.inputOf i := by
  simp only [State.inputOf, State.machineParams, h]

theorem State.outputOf_of_params {s t : State} (h : t.params = s.params) (i : Nat) : t.outputOf i = s.outputOf i := by
  simp only [State.outputOf, State.machineParams, h]

theorem State.disciplineOf_of_params {s t : State} (h : t.params = s.params) (i : Nat) :
    t.disciplineOf i = s.disciplineOf i := by
  simp only [State.disciplineOf, State.inputOf, State.machineParams, State.queueParams, h]

end Sys2Proof.Machine
end

