-- ==== Sys2Proof/Laws/Ops.lean ====
section
/-! SUPPORT. One law for each shared operation: what it answers, and everything a next state can hold. -/

namespace Sys2Proof.Machine

theorem raise_eq (k : FaultKind) (s : State) : raise k s = .next (s.afterFault k) := rfl

theorem State.afterFault_params (s : State) (k : FaultKind) : (s.afterFault k).params = s.params := rfl

theorem State.me_afterFault {s : State} (k : FaultKind) (h : s.cur < s.machines.length) :
    (s.afterFault k).me = { s.me with status := .faulted k s.me.pc } := State.me_setMe _ h

/-! ### Operands -/

theorem withOperand_some {a : ReadOp} {s : State} {x : Int} (k : Int → Result) (h : readOperand s.me a = some x) :
    withOperand a s k = k x := by simp only [withOperand, h]

theorem withOperand_none {a : ReadOp} {s : State} (k : Int → Result) (h : readOperand s.me a = none) :
    withOperand a s k = .next (s.afterFault .invalidAddress) := by simp only [withOperand, h]; rfl

theorem withOperands_some {a b : ReadOp} {s : State} {x y : Int} (k : Int → Int → Result)
    (ha : readOperand s.me a = some x) (hb : readOperand s.me b = some y) : withOperands a b s k = k x y := by
  simp only [withOperands, withOperand_some _ ha, withOperand_some _ hb]

/-- Everything one operand can do to an instruction. -/
theorem withOperand_cases {a : ReadOp} {s u : State} {k : Int → Result} (h : withOperand a s k = .next u) :
    (readOperand s.me a = none ∧ u = s.afterFault .invalidAddress) ∨
      ∃ x, readOperand s.me a = some x ∧ k x = .next u := by
  cases hx : readOperand s.me a with
  | none => rw [withOperand_none k hx] at h; cases h; exact .inl ⟨rfl, rfl⟩
  | some x => rw [withOperand_some k hx] at h; exact .inr ⟨x, rfl, h⟩

/-- Everything two operands can do to an instruction. -/
theorem withOperands_cases {a b : ReadOp} {s u : State} {k : Int → Int → Result}
    (h : withOperands a b s k = .next u) :
    ((readOperand s.me a = none ∨ readOperand s.me b = none) ∧ u = s.afterFault .invalidAddress) ∨
      ∃ x y, readOperand s.me a = some x ∧ readOperand s.me b = some y ∧ k x y = .next u := by
  rcases withOperand_cases h with ⟨ha, rfl⟩ | ⟨x, ha, h⟩
  · exact .inl ⟨.inl ha, rfl⟩
  · rcases withOperand_cases h with ⟨hb, rfl⟩ | ⟨y, hb, h⟩
    · exact .inl ⟨.inr hb, rfl⟩
    · exact .inr ⟨x, y, ha, hb, h⟩

/-- Two operands of which one has a negative address. -/
theorem withOperands_none {a b : ReadOp} {s : State} (k : Int → Int → Result)
    (h : readOperand s.me a = none ∨ readOperand s.me b = none) :
    withOperands a b s k = .next (s.afterFault .invalidAddress) := by
  cases ha : readOperand s.me a with
  | none => exact withOperand_none _ ha
  | some x =>
    have hb : readOperand s.me b = none := by simpa [ha] using h
    show withOperand a s _ = _
    rw [withOperand_some _ ha, withOperand_none _ hb]

/-! ### Storing -/

theorem storeAndAdvance_of_nonneg {tgt v : Int} {len : Nat} {s : State} (h : 0 ≤ tgt) :
    storeAndAdvance tgt v len s =
      .next (s.setMe { s.me with mem := s.me.mem.set tgt.toNat v, pc := s.me.pc + (len : Int) }) := by
  simp only [storeAndAdvance, Memory.write_of_nonneg h]

theorem storeAndAdvance_of_neg {tgt v : Int} {len : Nat} {s : State} (h : tgt < 0) :
    storeAndAdvance tgt v len s = .next (s.afterFault .invalidAddress) := by
  simp only [storeAndAdvance, Memory.write_of_neg h]; rfl

/-- Everything a store can do. -/
theorem storeAndAdvance_cases {tgt v : Int} {len : Nat} {s u : State} (h : storeAndAdvance tgt v len s = .next u) :
    (tgt < 0 ∧ u = s.afterFault .invalidAddress) ∨
      (0 ≤ tgt ∧ u = s.setMe { s.me with mem := s.me.mem.set tgt.toNat v, pc := s.me.pc + (len : Int) }) := by
  rcases lt_or_ge tgt 0 with ht | ht
  · rw [storeAndAdvance_of_neg ht] at h; cases h; exact .inl ⟨ht, rfl⟩
  · rw [storeAndAdvance_of_nonneg ht] at h; cases h; exact .inr ⟨ht, rfl⟩

/-- A set memory, seen as `StoresWord` says. -/
theorem storesWord_set {m : Memory} {a : Int} (v : Int) (ha : 0 ≤ a) (h : m.wf) : StoresWord m (m.set a.toNat v) a v where
  stored := by rw [Memory.read_of_nonneg ha, Memory.get_set_self _ _ h]
  kept b hb := by
    simp only [Memory.read]
    split
    · rfl
    · rw [Memory.get_set_ne]; omega

/-! ### Frames -/

theorem OthersKept.refl (s : State) : OthersKept s s := ⟨rfl, rfl, fun _ _ => rfl, rfl, rfl, rfl, rfl⟩

theorem OthersKept.trans {s t u : State} (h : OthersKept s t) (h' : OthersKept t u) : OthersKept s u where
  params := h'.params.trans h.params
  count := h'.count.trans h.count
  machines j hj := (h'.machines j (by rw [h.cur]; exact hj)).trans (h.machines j hj)
  aborted := h'.aborted.trans h.aborted
  tornDown := h'.tornDown.trans h.tornDown
  cur := h'.cur.trans h.cur
  agenda := h'.agenda.trans h.agenda

theorem OthersKept.setMe (s : State) (m : MachineState) : OthersKept s (s.setMe m) where
  params := rfl
  count := by simp
  machines j hj := State.machine_setMe_ne m hj
  aborted := rfl
  tornDown := rfl
  cur := rfl
  agenda := rfl

theorem OthersKept.setQueue (s : State) (q : Nat) (vs : List Int) : OthersKept s (s.setQueue q vs) :=
  ⟨rfl, rfl, fun _ _ => rfl, rfl, rfl, rfl, rfl⟩

theorem OthersKept.enqueue (s : State) (q : Nat) (v : Int) : OthersKept s (s.enqueue q v) :=
  ⟨rfl, rfl, fun _ _ => rfl, rfl, rfl, rfl, rfl⟩

theorem OthersKept.deliverAll (s : State) (i : Nat) (ds : List (Dest × Int)) : OthersKept s (s.deliverAll i ds) where
  params := by simp
  count := by simp
  machines j _ := State.machine_of_machines (by simp) j
  aborted := by simp
  tornDown := by simp
  cur := by simp
  agenda := by simp

theorem PortsKept.setMe (s : State) (m : MachineState) : PortsKept s (s.setMe m) := ⟨rfl, rfl, rfl⟩

theorem PortsKept.afterFault (s : State) (k : FaultKind) : PortsKept s (s.afterFault k) := ⟨rfl, rfl, rfl⟩

theorem OthersKept.afterFault (s : State) (k : FaultKind) : OthersKept s (s.afterFault k) := OthersKept.setMe s _

/-- A store by the machine itself meets the frame of a storing instruction. -/
theorem storedOnly_setMe {s : State} {a v : Int} (len : Nat) (hc : s.cur < s.machines.length) (hm : s.me.mem.wf)
    (ha : 0 ≤ a) :
    StoredOnly s (s.setMe { s.me with mem := s.me.mem.set a.toNat v, pc := s.me.pc + (len : Int) }) a v len := by
  constructor <;> (try rw [State.me_setMe _ hc])
  · exact storesWord_set v ha hm
  · exact OthersKept.setMe _ _
  · exact PortsKept.setMe _ _

/-! ### Delivery -/

/-- The words of a delivery list that go to queue `q`. -/
def wordsFor (q : Nat) (ds : List (Dest × Int)) : List Int :=
  ds.filterMap fun dx => if dx.1 = .queue q then some dx.2 else none

/-- The words of a delivery list that go to the host. -/
def wordsForHost (i : Nat) (ds : List (Dest × Int)) : List (Nat × Int) :=
  ds.filterMap fun dx => if dx.1 = .host then some (i, dx.2) else none

theorem State.queue_enqueue (s : State) (q p : Nat) (v : Int) :
    (s.enqueue q v).queue p = if p = q ∧ q < s.queues.length then s.queue p ++ [v] else s.queue p := by
  by_cases hp : p = q
  · subst hp
    by_cases hq : p < s.queues.length
    · simp [hq, State.queue_enqueue_self v hq]
    · simp [hq, State.queue]
  · simp [hp, State.queue_enqueue_ne v hp]

theorem State.queue_deliver (s : State) (i : Nat) (d : Dest) (v : Int) (q : Nat) :
    (s.deliver i d v).queue q = if d = .queue q ∧ q < s.queues.length then s.queue q ++ [v] else s.queue q := by
  cases d with
  | host => simp [State.deliver, State.queue]
  | queue p =>
    show (s.enqueue p v).queue q = _
    rw [State.queue_enqueue]
    by_cases hp : q = p
    · subst hp; simp
    · simp [hp, Ne.symm hp]

theorem State.hostOut_deliver (s : State) (i : Nat) (d : Dest) (v : Int) :
    (s.deliver i d v).hostOut = if d = .host then s.hostOut ++ [(i, v)] else s.hostOut := by
  cases d <;> simp [State.deliver]

/-- In order, at each queue that exists: the list's words for it, at its tail (R93). -/
theorem State.queue_deliverAll (ds : List (Dest × Int)) (i q : Nat) (s : State) :
    (s.deliverAll i ds).queue q = if q < s.queues.length then s.queue q ++ wordsFor q ds else s.queue q := by
  induction ds generalizing s with
  | nil => simp [State.deliverAll, wordsFor]
  | cons dx ds ih =>
    obtain ⟨d, x⟩ := dx
    show ((s.deliver i d x).deliverAll i ds).queue q = _
    rw [ih, State.queue_deliver, State.deliver_queues_length]
    by_cases hq : q < s.queues.length
    · by_cases hd : d = .queue q <;> simp [hq, hd, wordsFor]
    · simp [hq]

theorem State.hostOut_deliverAll (ds : List (Dest × Int)) (i : Nat) (s : State) :
    (s.deliverAll i ds).hostOut = s.hostOut ++ wordsForHost i ds := by
  induction ds generalizing s with
  | nil => simp [State.deliverAll, wordsForHost]
  | cons dx ds ih =>
    obtain ⟨d, x⟩ := dx
    show ((s.deliver i d x).deliverAll i ds).hostOut = _
    rw [ih, State.hostOut_deliver]
    cases d <;> simp [wordsForHost]

/-! ### Sending -/

/-- What a send does at each binding (R93): everything it can answer with a next state. -/
theorem send_cases {v : Int} {s u : State} (h : send v s = .next u) :
    (∃ q, s.outputOf s.cur = .queue q ∧ u = s.enqueue q v) ∨
    (s.outputOf s.cur = .host ∧ u = { s with hostOut := s.hostOut ++ [(s.cur, v)] }) ∨
    (∃ r, s.outputOf s.cur = .router r ∧
      (∀ dx ∈ (routerOnSend r s.me.router v).2, s.routerMaySend s.cur dx.1 = true) ∧
      ((s.params.atomicDelivery = true ∧
          u = (s.setMe { s.me with router := (routerOnSend r s.me.router v).1 }).deliverAll s.cur
            (routerOnSend r s.me.router v).2) ∨
        (s.params.atomicDelivery = false ∧
          u = s.setMe { s.me with router := (routerOnSend r s.me.router v).1,
                                  outbox := s.me.outbox ++ (routerOnSend r s.me.router v).2 }))) := by
  unfold send at h
  split at h
  · rename_i q ho; cases h; exact .inl ⟨q, ho, rfl⟩
  · rename_i ho; cases h; exact .inr (.inl ⟨ho, rfl⟩)
  · rename_i r ho
    refine .inr (.inr ⟨r, ho, ?_⟩)
    simp only at h
    split at h
    · rename_i hall
      refine ⟨by simpa [List.all_eq_true] using hall, ?_⟩
      split at h
      · rename_i hat; cases h; exact .inl ⟨hat, rfl⟩
      · rename_i hat; cases h; exact .inr ⟨by simpa using hat, rfl⟩
    · cases h

/-- A send to a queue (R93). -/
theorem send_queue {v : Int} {s : State} {q : Nat} (h : s.outputOf s.cur = .queue q) :
    send v s = .next (s.enqueue q v) := by unfold send; rw [h]

/-- A send to the host (R93). -/
theorem send_host {v : Int} {s : State} (h : s.outputOf s.cur = .host) :
    send v s = .next { s with hostOut := s.hostOut ++ [(s.cur, v)] } := by unfold send; rw [h]

/-- A send touches nothing outside its machine and the ports. -/
theorem send_othersKept {v : Int} {s u : State} (h : send v s = .next u) : OthersKept s u := by
  rcases send_cases h with ⟨q, _, rfl⟩ | ⟨_, rfl⟩ | ⟨r, _, _, ⟨_, rfl⟩ | ⟨_, rfl⟩⟩
  · exact OthersKept.enqueue _ _ _
  · exact ⟨rfl, rfl, fun _ _ => rfl, rfl, rfl, rfl, rfl⟩
  · exact (OthersKept.setMe _ _).trans (OthersKept.deliverAll _ _ _)
  · exact OthersKept.setMe _ _

/-- What a send leaves of its machine: all but the router and the outbox. -/
theorem send_me {v : Int} {s u : State} (hc : s.cur < s.machines.length) (h : send v s = .next u) :
    u.me = { s.me with router := u.me.router, outbox := u.me.outbox } := by
  rcases send_cases h with ⟨q, _, rfl⟩ | ⟨_, rfl⟩ | ⟨r, _, _, ⟨_, rfl⟩ | ⟨_, rfl⟩⟩
  · rfl
  · rfl
  · have : ((s.setMe { s.me with router := (routerOnSend r s.me.router v).1 }).deliverAll s.cur
        (routerOnSend r s.me.router v).2).me = { s.me with router := (routerOnSend r s.me.router v).1 } := by
      show State.machine _ _ = _
      rw [State.deliverAll_cur, State.machine_of_machines (State.deliverAll_machines _ _ _)]
      exact State.me_setMe _ hc
    rw [this]
  · rw [State.me_setMe _ hc]

theorem andThen_cases {o : Result} {k : State → Result} {u : State} (h : andThen o k = .next u) :
    ∃ s, o = .next s ∧ k s = .next u := by
  cases o with
  | next s => exact ⟨s, rfl, h⟩
  | fault f => cases h
  | refused r => cases h

end Sys2Proof.Machine
end

