-- ==== Sys2Proof/Laws/Exec.lean ====
section
/-! SUPPORT. For each meaning, everything its next state can be; and what follows for `exec` as a whole. -/

namespace Sys2Proof.Machine

/-- Everything ADD, MUL, LT and EQ can do. -/
theorem computeAndStore_cases {f : Int → Int → Int} {a b : ReadOp} {t : WriteOp} {s u : State}
    (h : computeAndStore f a b t s = .next u) :
    u = s.afterFault .invalidAddress ∨
      ∃ x y, readOperand s.me a = some x ∧ readOperand s.me b = some y ∧ 0 ≤ targetAddr s.me t ∧
        u = s.setMe { s.me with mem := s.me.mem.set (targetAddr s.me t).toNat (f x y), pc := s.me.pc + 4 } := by
  rcases withOperands_cases h with ⟨_, rfl⟩ | ⟨x, y, ha, hb, h⟩
  · exact .inl rfl
  · rcases storeAndAdvance_cases h with ⟨_, rfl⟩ | ⟨ht, rfl⟩
    · exact .inl rfl
    · exact .inr ⟨x, y, ha, hb, ht, rfl⟩

/-- ADD, MUL, LT and EQ where both operands and the target have addresses. -/
theorem computeAndStore_stores (f : Int → Int → Int) {a b : ReadOp} {t : WriteOp} {s : State} {x y : Int}
    (ha : readOperand s.me a = some x) (hb : readOperand s.me b = some y) (ht : 0 ≤ targetAddr s.me t) :
    computeAndStore f a b t s =
      .next (s.setMe { s.me with mem := s.me.mem.set (targetAddr s.me t).toNat (f x y), pc := s.me.pc + 4 }) := by
  show withOperands a b s _ = _
  rw [withOperands_some _ ha hb, storeAndAdvance_of_nonneg ht]
  rfl

/-- ADD, MUL, LT and EQ at a negative target. -/
theorem computeAndStore_faults (f : Int → Int → Int) {a b : ReadOp} {t : WriteOp} {s : State} {x y : Int}
    (ha : readOperand s.me a = some x) (hb : readOperand s.me b = some y) (ht : targetAddr s.me t < 0) :
    computeAndStore f a b t s = .next (s.afterFault .invalidAddress) := by
  show withOperands a b s _ = _
  rw [withOperands_some _ ha hb, storeAndAdvance_of_neg ht]

/-- Everything JNZ and JZ can do. -/
theorem jumpIf_cases {taken : Int → Bool} {a b : ReadOp} {s u : State} (h : jumpIf taken a b s = .next u) :
    u = s.afterFault .invalidAddress ∨
      ∃ x y, readOperand s.me a = some x ∧ readOperand s.me b = some y ∧
        u = s.setMe { s.me with pc := if taken x then y else s.me.pc + 3 } := by
  rcases withOperands_cases h with ⟨_, rfl⟩ | ⟨x, y, ha, hb, h⟩
  · exact .inl rfl
  · refine .inr ⟨x, y, ha, hb, ?_⟩
    split at h <;> (rename_i ht; cases h; simp [ht, State.advancePc])

/-- JNZ and JZ where both operands have addresses. -/
theorem jumpIf_goes (taken : Int → Bool) {a b : ReadOp} {s : State} {x y : Int}
    (ha : readOperand s.me a = some x) (hb : readOperand s.me b = some y) :
    jumpIf taken a b s = .next (s.setMe { s.me with pc := if taken x then y else s.me.pc + 3 }) := by
  show withOperands a b s _ = _
  rw [withOperands_some _ ha hb]
  cases ht : taken x <;> simp [State.advancePc]

/-- IN with a value in its queue. -/
theorem execInp_value {s : State} {t : WriteOp} {v : Int} {vs : List Int} (h : s.inputQueue s.cur = v :: vs) :
    execInp t s = storeAndAdvance (targetAddr s.me t) v 2
      ((s.setQueue (s.inputOf s.cur) vs).setMe { s.me with noData := 0 }) := by
  unfold execInp; rw [h]

/-- IN at an empty `Polling` queue. -/
theorem execInp_poll {s : State} {t : WriteOp} {d : Int} (h : s.inputQueue s.cur = [])
    (hp : s.disciplineOf s.cur = .polling) (hd : s.params.noDataValue = some d) :
    execInp t s = storeAndAdvance (targetAddr s.me t) d 2 (s.setMe { s.me with noData := s.me.noData + 1 }) := by
  unfold execInp; rw [h]; simp only [hp, hd]

/-- IN at an empty `Blocking` queue. -/
theorem execInp_wait {s : State} {t : WriteOp} (h : s.inputQueue s.cur = [])
    (hp : s.disciplineOf s.cur = .blocking) : execInp t s = .next s := by
  unfold execInp; rw [h]; simp only [hp]

/-- OUT with a readable operand. -/
theorem execOut_of_read {s : State} {a : ReadOp} {v : Int} (ha : readOperand s.me a = some v) :
    execOut a s = andThen (send v (s.setMe { s.me with noData := 0 })) fun s' => .next (s'.advancePc 2) := by
  unfold execOut; rw [withOperand_some _ ha]

/-- What IN leaves of its machine and queue before it stores: the word it stores and that state. -/
inductive InTakes (s : State) : Int → State → Prop where
  /-- A value is taken from the queue (R73, first branch). -/
  | value {v : Int} {vs : List Int} (h : s.inputQueue s.cur = v :: vs) :
      InTakes s v ((s.setQueue (s.inputOf s.cur) vs).setMe { s.me with noData := 0 })
  /-- A no-data poll (R73, second branch). -/
  | poll {d : Int} (h : s.inputQueue s.cur = []) (hp : s.disciplineOf s.cur = .polling)
      (hd : s.params.noDataValue = some d) : InTakes s d (s.setMe { s.me with noData := s.me.noData + 1 })

/-- Everything IN can do: wait, or take a word and store it. -/
theorem execInp_cases {t : WriteOp} {s u : State} (h : execInp t s = .next u) :
    (s.inputQueue s.cur = [] ∧ s.disciplineOf s.cur = .blocking ∧ u = s) ∨
      ∃ v s', InTakes s v s' ∧ storeAndAdvance (targetAddr s.me t) v 2 s' = .next u := by
  unfold execInp at h
  split at h
  · rename_i v vs hq
    exact .inr ⟨v, _, .value hq, h⟩
  · rename_i hq
    split at h
    · rename_i hp
      split at h
      · rename_i d hd
        exact .inr ⟨d, _, .poll hq hp hd, h⟩
      · cases h
    · rename_i hb
      cases h
      exact .inl ⟨hq, hb, rfl⟩

theorem InTakes.othersKept {s s' : State} {v : Int} (h : InTakes s v s') : OthersKept s s' := by
  cases h with
  | value h => exact (OthersKept.setQueue _ _ _).trans (OthersKept.setMe _ _)
  | poll => exact OthersKept.setMe _ _

/-- The machine after the receive: all but `noData` is as before. -/
theorem InTakes.me {s s' : State} {v : Int} (hc : s.cur < s.machines.length) (h : InTakes s v s') :
    s'.me = { s.me with noData := s'.me.noData } := by
  cases h with
  | value h => rw [State.me_setMe (s := s.setQueue _ _) _ hc]
  | poll => rw [State.me_setMe _ hc]

theorem InTakes.hostOut {s s' : State} {v : Int} (h : InTakes s v s') : s'.hostOut = s.hostOut := by
  cases h <;> rfl

theorem InTakes.quiesced {s s' : State} {v : Int} (h : InTakes s v s') : s'.quiesced = s.quiesced := by
  cases h <;> rfl

/-- A receive leaves every other queue. -/
theorem InTakes.queue_ne {s s' : State} {v : Int} (h : InTakes s v s') {q : Nat} (hq : q ≠ s.inputOf s.cur) :
    s'.queue q = s.queue q := by
  cases h with
  | value => exact State.queue_setQueue_ne _ hq
  | poll => rfl

/-- A receive leaves the machine's own queue, or takes its head. -/
theorem InTakes.inputQueue {s s' : State} {v : Int} (h : InTakes s v s') :
    s'.inputQueue s.cur = s.inputQueue s.cur ∨ ∃ x, s.inputQueue s.cur = x :: s'.inputQueue s.cur := by
  cases h with
  | value h =>
    rename_i vs
    refine .inr ⟨v, h.trans (congrArg _ (Eq.symm ?_))⟩
    exact State.queue_setQueue_self _ (State.queue_lt_of_ne_nil (by show s.inputQueue s.cur ≠ []; rw [h]; simp))
  | poll => exact .inl rfl

/-- Everything OUT can do. -/
theorem execOut_cases {a : ReadOp} {s u : State} (h : execOut a s = .next u) :
    (readOperand s.me a = none ∧ u = s.afterFault .invalidAddress) ∨
      ∃ v s', readOperand s.me a = some v ∧ send v (s.setMe { s.me with noData := 0 }) = .next s' ∧
        u = s'.advancePc 2 := by
  rcases withOperand_cases h with ⟨ha, rfl⟩ | ⟨v, ha, h⟩
  · exact .inl ⟨ha, rfl⟩
  · obtain ⟨s', hs, h⟩ := andThen_cases h
    cases h
    exact .inr ⟨v, s', ha, hs, rfl⟩

/-- Everything ARB can do. -/
theorem execArb_cases {a : ReadOp} {s u : State} (h : execArb a s = .next u) :
    (readOperand s.me a = none ∧ u = s.afterFault .invalidAddress) ∨
      ∃ v, readOperand s.me a = some v ∧ u = s.setMe { s.me with rb := s.me.rb + v, pc := s.me.pc + 2 } := by
  rcases withOperand_cases h with ⟨ha, rfl⟩ | ⟨v, ha, h⟩
  · exact .inl ⟨ha, rfl⟩
  · cases h; exact .inr ⟨v, ha, rfl⟩

/-- A store leaves everything outside its machine, and the ports. -/
theorem storeAndAdvance_frame {tgt v : Int} {len : Nat} {s u : State} (h : storeAndAdvance tgt v len s = .next u) :
    OthersKept s u ∧ PortsKept s u := by
  rcases storeAndAdvance_cases h with ⟨_, rfl⟩ | ⟨_, rfl⟩
  · exact ⟨OthersKept.setMe _ _, PortsKept.setMe _ _⟩
  · exact ⟨OthersKept.setMe _ _, PortsKept.setMe _ _⟩

theorem computeAndStore_frame {f : Int → Int → Int} {a b : ReadOp} {t : WriteOp} {s u : State}
    (h : computeAndStore f a b t s = .next u) : OthersKept s u ∧ PortsKept s u := by
  rcases computeAndStore_cases h with rfl | ⟨x, y, _, _, _, rfl⟩
  · exact ⟨OthersKept.setMe _ _, PortsKept.setMe _ _⟩
  · exact ⟨OthersKept.setMe _ _, PortsKept.setMe _ _⟩

theorem jumpIf_frame {taken : Int → Bool} {a b : ReadOp} {s u : State} (h : jumpIf taken a b s = .next u) :
    OthersKept s u ∧ PortsKept s u := by
  rcases jumpIf_cases h with rfl | ⟨x, y, _, _, rfl⟩
  · exact ⟨OthersKept.setMe _ _, PortsKept.setMe _ _⟩
  · exact ⟨OthersKept.setMe _ _, PortsKept.setMe _ _⟩

theorem execArb_frame {a : ReadOp} {s u : State} (h : execArb a s = .next u) : OthersKept s u ∧ PortsKept s u := by
  rcases execArb_cases h with ⟨_, rfl⟩ | ⟨v, _, rfl⟩
  · exact ⟨OthersKept.setMe _ _, PortsKept.setMe _ _⟩
  · exact ⟨OthersKept.setMe _ _, PortsKept.setMe _ _⟩

theorem execInp_othersKept {t : WriteOp} {s u : State} (h : execInp t s = .next u) : OthersKept s u := by
  rcases execInp_cases h with ⟨_, _, rfl⟩ | ⟨v, s', hin, h⟩
  · exact OthersKept.refl _
  · exact hin.othersKept.trans (storeAndAdvance_frame h).1

theorem execOut_othersKept {a : ReadOp} {s u : State} (h : execOut a s = .next u) : OthersKept s u := by
  rcases execOut_cases h with ⟨_, rfl⟩ | ⟨v, s', _, hs, rfl⟩
  · exact OthersKept.setMe _ _
  · exact ((OthersKept.setMe _ _).trans (send_othersKept hs)).trans (OthersKept.setMe _ _)

/-- A machine whose memory is the old one with a store, and whose `pc` has moved on, fetches the stored word (R48). -/
theorem fetchSeesStore_of_set {s s' : State} {m : MachineState} {a v : Int} {len : Nat} (hm : s.me.mem.wf)
    (hp : 0 ≤ s.me.pc) (ha : 0 ≤ a) (hc' : s'.cur < s'.machines.length) (h1 : m.mem = s.me.mem.set a.toNat v)
    (h2 : m.pc = s.me.pc + (len : Int)) : FetchSeesStore s (s'.setMe m) a v len := by
  unfold FetchSeesStore
  rw [State.me_setMe _ hc']
  have g : ∀ b : Nat, m.mem.get b = wordAfterStore s.me.mem a v b := by
    intro b; unfold wordAfterStore; rw [h1, Memory.get_set _ _ _ hm]
    by_cases h : (b : Int) = a
    · rw [if_pos h, if_pos (by omega)]
    · rw [if_neg h, if_neg (by omega)]
  unfold fetch
  rw [h2, if_neg (by omega)]
  have e : (s.me.pc + (len : Int)).toNat = s.me.pc.toNat + len := by omega
  rw [e]
  simp only [g]

end Sys2Proof.Machine
end

