-- ==== Sys2Proof/Laws/Effect.lean ====
section
/-! SUPPORT. The whole effect of an instruction as a function of what its machine can see, and that `exec` is that
effect applied: the machine's new state, whether the head of its input queue is taken, and what is sent. -/

namespace Sys2Proof.Machine

/-- What an instruction can see: the parameters, which machine it belongs to, that machine, and the head of its input
queue. -/
structure View where
  params : Params
  cur    : Nat
  nQueue : Nat
  me     : MachineState
  head   : Option Int

/-- What the machine whose turn it is sees of a state. -/
def State.view (s : State) : View where
  params := s.params
  cur := s.cur
  nQueue := s.queues.length
  me := s.me
  head := (s.inputQueue s.cur).head?

/-- What an instruction does. -/
structure Effect where
  me    : MachineState
  takes : Bool
  sends : List (Dest × Int)

/-- The queues after the effect's receive. -/
def Effect.receive (e : Effect) (s : State) : State :=
  if e.takes then s.setQueue (s.inputOf s.cur) (s.inputQueue s.cur).tail else s

/-- The state after an effect. -/
def Effect.apply (e : Effect) (s : State) : State := ((e.receive s).deliverAll s.cur e.sends).setMe e.me

/-- Fault entry as an effect. -/
def Effect.fault (k : FaultKind) (m : MachineState) : Effect := ⟨{ m with status := .faulted k m.pc }, false, []⟩

/-- A store as an effect. -/
def Effect.store (tgt v : Int) (len : Nat) (m : MachineState) (takes : Bool) : Effect :=
  if tgt < 0 then ⟨{ m with status := .faulted .invalidAddress m.pc }, takes, []⟩
  else ⟨{ m with mem := m.mem.set tgt.toNat v, pc := m.pc + (len : Int) }, takes, []⟩

/-- The effect of ADD, MUL, LT and EQ. -/
def effectStore (f : Int → Int → Int) (a b : ReadOp) (t : WriteOp) (m : MachineState) : Effect :=
  match readOperand m a, readOperand m b with
  | some x, some y => .store (targetAddr m t) (f x y) 4 m false
  | _, _ => .fault .invalidAddress m

/-- The effect of JNZ and JZ. -/
def effectJump (taken : Int → Bool) (a b : ReadOp) (m : MachineState) : Effect :=
  match readOperand m a, readOperand m b with
  | some x, some y => ⟨{ m with pc := if taken x then y else m.pc + 3 }, false, []⟩
  | _, _ => .fault .invalidAddress m

/-- The effect of IN. -/
def effectInp (t : WriteOp) (v : View) : Except Refusal Effect :=
  let m := v.me
  match v.head with
  | some x => .ok (.store (targetAddr m t) x 2 { m with noData := 0 } true)
  | none => match (v.params.queues.getD (v.params.machines.getD v.cur {}).input {}).discipline with
    | .polling => match v.params.noDataValue with
      | some d => .ok (.store (targetAddr m t) d 2 { m with noData := m.noData + 1 } false)
      | none => .error .noDataValueNotChosen
    | .blocking => .ok ⟨m, false, []⟩

/-- Whether a router may send there. -/
def View.maySend (v : View) (d : Dest) : Bool :=
  match d with
  | .queue q => decide (q < v.nQueue) && (v.params.queues.getD q {}).producers.contains (.router v.cur)
  | .host => true

/-- The effect of OUT. -/
def effectOut (a : ReadOp) (v : View) : Except Refusal Effect :=
  let m := v.me
  let m' : MachineState := { m with noData := 0, pc := m.pc + 2 }
  match readOperand m a with
  | none => .ok (.fault .invalidAddress m)
  | some x => match (v.params.machines.getD v.cur {}).output with
    | .queue q => .ok ⟨m', false, [(.queue q, x)]⟩
    | .host => .ok ⟨m', false, [(.host, x)]⟩
    | .router r =>
      let sent := routerOnSend r m.router x
      if sent.2.all (fun dx => v.maySend dx.1) then
        if v.params.atomicDelivery then .ok ⟨{ m' with router := sent.1 }, false, sent.2⟩
        else .ok ⟨{ m' with router := sent.1, outbox := m.outbox ++ sent.2 }, false, []⟩
      else .error .undeclaredProducer

/-- The effect of ARB. -/
def effectArb (a : ReadOp) (m : MachineState) : Effect :=
  match readOperand m a with
  | some x => ⟨{ m with rb := m.rb + x, pc := m.pc + 2 }, false, []⟩
  | none => .fault .invalidAddress m

/-- The effect of each instruction. -/
def effect (i : Instr) (v : View) : Except Refusal Effect :=
  match i with
  | .add a b t => .ok (effectStore (fun x y => x + y) a b t v.me)
  | .mul a b t => .ok (effectStore (fun x y => x * y) a b t v.me)
  | .lt a b t => .ok (effectStore (fun x y => truthWord (decide (x < y))) a b t v.me)
  | .eq a b t => .ok (effectStore (fun x y => truthWord (decide (x = y))) a b t v.me)
  | .jnz a b => .ok (effectJump (fun x => decide (x ≠ 0)) a b v.me)
  | .jz a b => .ok (effectJump (fun x => decide (x = 0)) a b v.me)
  | .arb a => .ok (effectArb a v.me)
  | .hlt => .ok ⟨{ v.me with status := .halted }, false, []⟩
  | .inp t => effectInp t v
  | .out a => effectOut a v

/-- An effect as an outcome. -/
def Effect.outcome (s : State) : Except Refusal Effect → Result
  | .ok e => .next (e.apply s)
  | .error r => .refused r

/-- Replacing a machine by itself changes nothing. -/
theorem State.setMe_me (s : State) : s.setMe s.me = s := by
  by_cases h : s.cur < s.machines.length
  · simp [State.setMe, State.setMachine, State.me, State.machine, h]
  · exact State.setMe_of_not_lt h _

/-- Delivering and replacing the machine are about different fields. -/
theorem State.deliverAll_setMe (ds : List (Dest × Int)) (i : Nat) (m : MachineState) (s : State) :
    (s.setMe m).deliverAll i ds = (s.deliverAll i ds).setMe m := by
  induction ds generalizing s with
  | nil => rfl
  | cons dx ds ih =>
    obtain ⟨d, x⟩ := dx
    show ((s.setMe m).deliver i d x).deliverAll i ds = ((s.deliver i d x).deliverAll i ds).setMe m
    rw [← ih]
    cases d <;> rfl

theorem raise_effect (k : FaultKind) (s : State) : raise k s = .next ((Effect.fault k s.me).apply s) := rfl

theorem store_effect (tgt v : Int) (len : Nat) (s : State) :
    storeAndAdvance tgt v len s = .next ((Effect.store tgt v len s.me false).apply s) := by
  rcases lt_or_ge tgt 0 with h | h
  · rw [storeAndAdvance_of_neg h, Effect.store, if_pos h]; rfl
  · rw [storeAndAdvance_of_nonneg h, Effect.store, if_neg (by omega)]; rfl

theorem computeAndStore_effect (f : Int → Int → Int) (a b : ReadOp) (t : WriteOp) (s : State) :
    computeAndStore f a b t s = .next ((effectStore f a b t s.me).apply s) := by
  unfold computeAndStore withOperands effectStore
  cases ha : readOperand s.me a with
  | none => rw [withOperand_none _ ha]; rfl
  | some x =>
    rw [withOperand_some _ ha]
    cases hb : readOperand s.me b with
    | none => rw [withOperand_none _ hb]; rfl
    | some y => rw [withOperand_some _ hb]; exact store_effect _ _ _ _

theorem jumpIf_effect (taken : Int → Bool) (a b : ReadOp) (s : State) :
    jumpIf taken a b s = .next ((effectJump taken a b s.me).apply s) := by
  unfold effectJump
  cases ha : readOperand s.me a with
  | none => unfold jumpIf withOperands; rw [withOperand_none _ ha]; rfl
  | some x =>
    cases hb : readOperand s.me b with
    | none => unfold jumpIf withOperands; rw [withOperand_some _ ha, withOperand_none _ hb]; rfl
    | some y => rw [jumpIf_goes taken ha hb]; rfl

theorem execArb_effect (a : ReadOp) (s : State) : execArb a s = .next ((effectArb a s.me).apply s) := by
  unfold execArb effectArb
  cases ha : readOperand s.me a with
  | none => rw [withOperand_none _ ha]; rfl
  | some x => rw [withOperand_some _ ha]; rfl

/-- A store after a receive, where the machine exists. -/
theorem store_setMe_effect {s : State} (hc : s.cur < s.machines.length) (tgt v : Int) (len : Nat) (m : MachineState) :
    storeAndAdvance tgt v len (s.setMe m) = .next ((Effect.store tgt v len m false).apply s) := by
  rcases lt_or_ge tgt 0 with h | h
  · rw [storeAndAdvance_of_neg h, Effect.store, if_pos h]
    simp only [State.afterFault, State.me_setMe _ hc, State.setMe_setMe]; rfl
  · rw [storeAndAdvance_of_nonneg h, Effect.store, if_neg (by omega)]
    simp only [State.me_setMe _ hc, State.setMe_setMe]; rfl

theorem Effect.store_takes_apply (tgt v : Int) (len : Nat) (m : MachineState) (s : State) :
    (Effect.store tgt v len m true).apply s =
      (Effect.store tgt v len m false).apply (s.setQueue (s.inputOf s.cur) (s.inputQueue s.cur).tail) := by
  unfold Effect.store
  split <;> rfl

theorem execInp_effect {s : State} (hc : s.cur < s.machines.length) (t : WriteOp) :
    execInp t s = Effect.outcome s (effectInp t s.view) := by
  unfold effectInp
  cases hq : s.inputQueue s.cur with
  | cons v vs =>
    have hv : s.view.head = some v := by simp [State.view, hq]
    rw [execInp_value hq, hv]
    show _ = Host.Outcome.next ((Effect.store (targetAddr s.me t) v 2 { s.me with noData := 0 } true).apply s)
    rw [store_setMe_effect (s := s.setQueue _ vs) hc, Effect.store_takes_apply, hq]
    rfl
  | nil =>
    have hv : s.view.head = none := by simp [State.view, hq]
    rw [hv]
    have hd : (s.view.params.queues.getD (s.view.params.machines.getD s.view.cur {}).input {}).discipline =
        s.disciplineOf s.cur := rfl
    simp only [hd]
    cases hp : s.disciplineOf s.cur with
    | blocking =>
      rw [execInp_wait hq hp]
      show _ = Host.Outcome.next (s.setMe s.me)
      rw [State.setMe_me]
    | polling =>
      have hn : s.view.params.noDataValue = s.params.noDataValue := rfl
      simp only [hn]
      cases hd : s.params.noDataValue with
      | none => unfold execInp; rw [hq]; simp only [hp, hd]; rfl
      | some d =>
        rw [execInp_poll hq hp hd, store_setMe_effect hc]; rfl

theorem execOut_effect {s : State} (hc : s.cur < s.machines.length) (a : ReadOp) :
    execOut a s = Effect.outcome s (effectOut a s.view) := by
  have hme : s.view.me = s.me := rfl
  unfold effectOut
  simp only [hme]
  cases ha : readOperand s.me a with
  | none => unfold execOut; rw [withOperand_none _ ha]; rfl
  | some v =>
    have hO : (s.view.params.machines.getD s.view.cur {}).output = s.outputOf s.cur := rfl
    rw [execOut_of_read ha]
    simp only [hO]
    unfold send
    have hO' : (s.setMe { s.me with noData := 0 }).outputOf (s.setMe { s.me with noData := 0 }).cur =
        s.outputOf s.cur := rfl
    have hm : (s.setMe { s.me with noData := 0 }).me = { s.me with noData := 0 } := State.me_setMe _ hc
    rw [hO']
    cases ho : s.outputOf s.cur with
    | queue q =>
      show Host.Outcome.next (((s.enqueue q v).setMe { s.me with noData := 0 }).advancePc 2) = _
      unfold State.advancePc
      rw [State.me_setMe (s := s.enqueue q v) _ hc, State.setMe_setMe]
      rfl
    | host =>
      show Host.Outcome.next ((State.setMe { s with hostOut := s.hostOut ++ [(s.cur, v)] }
        { s.me with noData := 0 }).advancePc 2) = _
      unfold State.advancePc
      rw [State.me_setMe (s := { s with hostOut := s.hostOut ++ [(s.cur, v)] }) _ hc, State.setMe_setMe]
      rfl
    | router r =>
      have hsend : ∀ d, (s.setMe { s.me with noData := 0 }).routerMaySend (s.setMe { s.me with noData := 0 }).cur d =
          s.view.maySend d := by
        intro d; cases d <;> rfl
      simp only [hm, hsend]
      split
      · cases hat : s.params.atomicDelivery with
        | true =>
          have h1 : (s.setMe { s.me with noData := 0 }).params.atomicDelivery = true := hat
          have h2 : s.view.params.atomicDelivery = true := hat
          simp only [h1, h2, if_true, andThen, Effect.outcome, State.setMe_setMe]
          have hme2 : ∀ (m : MachineState) (ds : List (Dest × Int)),
              ((s.setMe m).deliverAll (s.setMe { s.me with noData := 0 }).cur ds).me = m := by
            intro m ds
            show State.machine _ _ = _
            rw [State.deliverAll_cur, State.machine_of_machines (State.deliverAll_machines _ _ _)]
            exact State.me_setMe _ hc
          unfold State.advancePc
          rw [hme2, State.deliverAll_setMe, State.setMe_setMe]
          rfl
        | false =>
          have h1 : (s.setMe { s.me with noData := 0 }).params.atomicDelivery = false := hat
          have h2 : s.view.params.atomicDelivery = false := hat
          simp only [h1, h2, Bool.false_eq_true, if_false, andThen, Effect.outcome, State.setMe_setMe]
          unfold State.advancePc
          rw [State.me_setMe _ hc, State.setMe_setMe]
          rfl
      · rfl

/-- What `exec` answers, as a function of what the machine sees. -/
theorem exec_effect {s : State} (hc : s.cur < s.machines.length) (i : Instr) :
    exec i s = Effect.outcome s (effect i s.view) := by
  cases i
  case add a b t => exact computeAndStore_effect _ a b t s
  case mul a b t => exact computeAndStore_effect _ a b t s
  case lt a b t => exact computeAndStore_effect _ a b t s
  case eq a b t => exact computeAndStore_effect _ a b t s
  case jnz a b => exact jumpIf_effect _ a b s
  case jz a b => exact jumpIf_effect _ a b s
  case arb a => exact execArb_effect a s
  case hlt => rfl
  case inp t => exact execInp_effect hc t
  case out a => exact execOut_effect hc a

/-- The effect of a machine's instruction step: the fetched instruction's effect, or fault entry. -/
def View.stepEffect (v : View) : Except Refusal Effect :=
  match fetch v.me with
  | .error k => .ok (.fault k v.me)
  | .ok i => effect i v

/-- What an instruction step answers, as a function of what the machine sees. -/
theorem runInstruction_effect {s : State} (hc : s.cur < s.machines.length) :
    runInstruction s = Effect.outcome s s.view.stepEffect := by
  have hme : s.view.me = s.me := rfl
  unfold runInstruction View.stepEffect
  rw [hme]
  cases hf : fetch s.me with
  | error k => rfl
  | ok i => exact exec_effect hc i

/-! ### The state after an effect, field by field -/

theorem Effect.receive_frame (e : Effect) (s : State) :
    (e.receive s).params = s.params ∧ (e.receive s).machines = s.machines ∧ (e.receive s).cur = s.cur ∧
      (e.receive s).hostOut = s.hostOut ∧ (e.receive s).queues.length = s.queues.length := by
  unfold Effect.receive
  split
  · exact ⟨rfl, rfl, rfl, rfl, by simp⟩
  · exact ⟨rfl, rfl, rfl, rfl, rfl⟩

/-- The machine is as the effect says. -/
theorem Effect.me_apply {s : State} (hc : s.cur < s.machines.length) (e : Effect) : (e.apply s).me = e.me := by
  obtain ⟨_, hm, hcu, _, _⟩ := e.receive_frame s
  exact State.me_setMe _ (by simpa [hm, hcu] using hc)

/-- Every queue: the head of the machine's own taken where the effect takes it, then what is sent, at the tail. -/
theorem Effect.queue_apply (e : Effect) (s : State) (q : Nat) :
    (e.apply s).queue q =
      if q < s.queues.length then (e.receive s).queue q ++ wordsFor q e.sends else (e.receive s).queue q := by
  show ((e.receive s).deliverAll s.cur e.sends).queue q = _
  rw [State.queue_deliverAll, (e.receive_frame s).2.2.2.2]

theorem Effect.queue_receive_ne {s : State} {q : Nat} (e : Effect) (h : q ≠ s.inputOf s.cur) :
    (e.receive s).queue q = s.queue q := by
  unfold Effect.receive
  split
  · exact State.queue_setQueue_ne _ h
  · rfl

/-- The host's log grows by what is sent to it. -/
theorem Effect.hostOut_apply (e : Effect) (s : State) :
    (e.apply s).hostOut = s.hostOut ++ wordsForHost s.cur e.sends := by
  show ((e.receive s).deliverAll s.cur e.sends).hostOut = _
  rw [State.hostOut_deliverAll, (e.receive_frame s).2.2.2.1]

/-- Two states look alike to an instruction where these five agree. -/
theorem State.view_congr {s t : State} (hc : s.cur = t.cur) (hp : s.params = t.params)
    (hq : s.queues.length = t.queues.length) (hm : s.me = t.me)
    (hi : s.inputQueue s.cur = t.inputQueue s.cur) : s.view = t.view := by
  unfold State.view; rw [hp, hq, hm, hi, hc]

/-- Only IN looks at its queue. -/
theorem effect_congr_head {v w : View} (hp : v.params = w.params) (hc : v.cur = w.cur) (hq : v.nQueue = w.nQueue)
    (hm : v.me = w.me) (i : Instr) (h : (∃ t, i = .inp t) → v.head = w.head) : effect i v = effect i w := by
  cases i
  case inp t =>
    have : v = w := by cases v; cases w; simp_all
    rw [this]
  case out a =>
    show effectOut a v = effectOut a w
    unfold effectOut View.maySend; rw [hp, hc, hq, hm]
  all_goals (unfold effect; rw [hm])

end Sys2Proof.Machine
end

