-- ==== Sys2Proof/Laws/Agents.lean ====
section
/-! SUPPORT. What a step of the system can be, when it has ended, and what an accepted system gives. -/

namespace Sys2Proof.Machine

/-- A step that answers a next state is the next event's step, in an accepted system whose run has not ended. -/
theorem step_cases {s u : State} (h : step s = .next u) :
    s.problem = none ∧ runEnd s = none ∧ stepEvent s.nextEvent { s with agenda := s.agenda.tail } = .next u := by
  have h : advance s = .next u := h
  unfold advance at h
  split at h
  · cases h
  · rename_i hp
    split at h
    · cases h
    · rename_i he; exact ⟨hp, he, h⟩

/-- The step of a system whose run has ended. -/
theorem step_ended {s : State} {e : RunEnd} (hp : s.problem = none) (he : runEnd s = some e) :
    step s = .fault (.runEnded e) := by
  show advance s = _
  unfold advance; rw [hp, he]

/-- A stopped system has ended. -/
theorem runEnd_stopped {s : State} (h : s.stopped = true) : runEnd s = some s.classifyEnd := by
  unfold runEnd State.someEnabled; rw [h]; rfl

/-- A run that has ended has no enabled step, and ends as R116's table classifies it. -/
theorem runEnd_some {s : State} {e : RunEnd} (h : runEnd s = some e) : s.someEnabled = false ∧ s.classifyEnd = e := by
  unfold runEnd at h
  split at h
  · cases h
  · rename_i hn; cases h; exact ⟨by simpa using hn, rfl⟩

/-- No step is enabled (R116). -/
theorem someEnabled_false (s : State) :
    s.someEnabled = false ↔
      s.stopped = true ∨ (s.orchestratorEnabled = false ∧ ∀ i < s.machines.length,
        s.machineEnabled i = false ∧ s.deliverEnabled i = false ∧ s.hostMayWake i = false) := by
  unfold State.someEnabled
  cases s.stopped <;> simp [and_assoc]

/-- What an accepted state gives. -/
theorem problem_none {s : State} (h : s.problem = none) :
    s.params.problem = none ∧ s.machines.length = s.params.machines.length ∧
      s.queues.length = s.params.queues.length ∧ s.cur < s.machines.length := by
  unfold State.problem at h
  split at h
  · cases h
  · rename_i hp
    split at h
    · rename_i hs
      simp [State.shapeOk] at hs
      exact ⟨hp, hs.1.1, hs.1.2, hs.2⟩
    · cases h

/-- What accepted parameters give, check by check. -/
theorem params_none {p : Params} (h : p.problem = none) :
    p.machines ≠ [] ∧ (∀ q ∈ p.inputs, q < p.queues.length) ∧ p.inputs.Nodup ∧
      (∀ q < p.queues.length, q ∈ p.inputs) ∧
      (∀ mi ∈ p.machines.zipIdx, p.outputDeclared mi.2 mi.1 = true) ∧
      (p.noDataValue = none → ∀ qp ∈ p.queues, qp.discipline ≠ .polling) ∧ ∃ policy, p.faultPolicy = some policy := by
  unfold Params.problem at h
  split at h; · cases h
  rename_i h1
  split at h; · cases h
  rename_i h2
  split at h; · cases h
  rename_i h3
  split at h; · cases h
  rename_i h4
  split at h; · cases h
  rename_i h5
  split at h; · cases h
  rename_i h6
  split at h; · cases h
  rename_i h7
  refine ⟨by simpa using h1, ?_, by simpa using h3, ?_, ?_, ?_, ?_⟩
  · intro q hq; by_contra hn; apply h2; simp; exact ⟨q, hq, by omega⟩
  · intro q hq; by_contra hn; apply h4; simp; exact ⟨q, hq, by simpa using hn⟩
  · intro mi hm; by_contra hn; apply h5; rw [List.any_eq_true]; exact ⟨mi, hm, by simpa using hn⟩
  · intro hn qp hqp hpol; apply h6; simp [hn]; exact ⟨qp, hqp, hpol⟩
  · exact Option.ne_none_iff_exists'.1 (by simpa using h7)

/-- In an accepted state a machine's input is a queue of the system (R92). -/
theorem input_lt {s : State} (h : s.problem = none) {i : Nat} (hi : i < s.machines.length) :
    s.inputOf i < s.queues.length := by
  obtain ⟨hp, h1, h2, h3⟩ := problem_none h
  obtain ⟨_, hq, _⟩ := params_none hp
  rw [h2]
  apply hq
  rw [h1] at hi
  simp only [Params.inputs, State.inputOf, State.machineParams]
  rw [List.mem_map]
  exact ⟨s.params.machines[i], by simp, by simp [hi]⟩

/-- An instruction step of machine `i`, or nothing. -/
theorem machineStep_cases {s u : State} {i : Nat} (h : machineStep i s = .next u) :
    (i < s.machines.length ∧ (s.machine i).ready = true ∧ runInstruction { s with cur := i } = .next u) ∨ u = s := by
  unfold machineStep at h
  split at h
  · rename_i hr; exact .inl ⟨hr.1, hr.2, h⟩
  · cases h; exact .inr rfl

/-- A delivery step of machine `i`, or nothing. -/
theorem deliverStep_cases {s u : State} {i : Nat} (h : deliverStep i s = .next u) :
    u = s ∨ ∃ d x rest, (s.machine i).outbox = (d, x) :: rest ∧
      u = (s.setMachine i { s.machine i with outbox := rest }).deliver i d x := by
  unfold deliverStep at h
  split at h
  · cases h; exact .inl rfl
  · rename_i d x rest ho; cases h; exact .inr ⟨d, x, rest, ho, rfl⟩

/-- The orchestrator sets one of its latches, or nothing. -/
theorem orchestratorStep_cases {s u : State} (h : orchestratorStep s = .next u) :
    (s.detectEnabled = true ∧ u = { s with quiesced := true }) ∨
    (s.anyFaulted = true ∧ s.params.faultPolicy = some .abortAll ∧ u = { s with aborted := true }) ∨ u = s := by
  have hd : detectStep s = .next u → (s.detectEnabled = true ∧ u = { s with quiesced := true }) ∨ u = s := by
    intro h
    unfold detectStep at h
    split at h
    · rename_i hd; cases h; exact .inl ⟨hd, rfl⟩
    · cases h; exact .inr rfl
  unfold orchestratorStep at h
  split at h
  · rename_i hf
    split at h
    · rename_i hp; cases h; exact .inr (.inl ⟨hf, hp, rfl⟩)
    · rcases hd h with h | h
      · exact .inl h
      · exact .inr (.inr h)
    · cases h
  · rcases hd h with h | h
    · exact .inl h
    · exact .inr (.inr h)

/-- The host's append, or nothing. -/
theorem hostAppendStep_cases {s u : State} {q : Nat} {v : Int} (h : hostAppendStep q v s = .next u) :
    (s.hostFeeds q = true ∧ u = s.enqueue q v) ∨ u = s := by
  unfold hostAppendStep at h
  split at h
  · rename_i hf; cases h; exact .inl ⟨hf, rfl⟩
  · cases h; exact .inr rfl

/-- A machine that is not one of the system's reads as a fresh one (log 5). -/
theorem State.machine_of_not_lt {s : State} {i : Nat} (h : ¬ i < s.machines.length) :
    s.machine i = MachineState.fresh [] [] := by
  simp only [State.machine]; simp [List.getElem?_eq_none (Nat.le_of_not_lt h)]

/-- A Running machine has not ended. -/
theorem allEnded_false {s : State} (h : ∃ i < s.machines.length, (s.machine i).status = .running) : s.allEnded = false := by
  obtain ⟨i, hi, hr⟩ := h
  by_contra hh
  unfold State.allEnded at hh
  have hh : (s.machines.all fun m => decide (m.status ≠ .running)) = true := by
    cases h : (s.machines.all fun m => decide (m.status ≠ .running)) with
    | true => rfl
    | false => exact absurd h hh
  have := List.all_eq_true.1 hh _ (State.machine_mem hi)
  simp [hr] at this

/-- What it is to be Faulted. -/
theorem isFaulted_iff (m : MachineState) : m.isFaulted = true ↔ ∃ k pc, m.status = .faulted k pc := by
  unfold MachineState.isFaulted
  split
  · rename_i k pc h; simp [h]
  · rename_i h; constructor
    · intro h; cases h
    · rintro ⟨k, pc, h'⟩; exact absurd h' (h k pc)

/-- When R116's line `Faulted` matches. -/
theorem endsFaulted_iff (s : State) : s.endsFaulted = true ↔ s.params.faultPolicy = some .isolate ∧ (∃ m ∈ s.machines, ∃ k pc, m.status = .faulted k pc) ∧ ∀ m ∈ s.machines, m.status ≠ .running := by
  simp only [State.endsFaulted, State.anyFaulted, State.allEnded, Bool.and_eq_true, List.any_eq_true, List.all_eq_true, isFaulted_iff, decide_eq_true_eq]
  tauto

/-- No agent's step answers a fault of the model: that is the end of a run alone. -/
theorem stepEvent_ne_fault (e : Event) (s : State) (f : Fault) : stepEvent e s ≠ .fault f := by
  have hs : ∀ (t : Int) v n (s : State), storeAndAdvance t v n s ≠ .fault f := by
    intro t v n s h; unfold storeAndAdvance at h; split at h <;> cases h
  have hw : ∀ a (s : State) k, (∀ x, k x ≠ Host.Outcome.fault f) → withOperand a s k ≠ .fault f := by
    intro a s k hk h; unfold withOperand at h; split at h
    · exact hk _ h
    · cases h
  have hc : ∀ g a b t (s : State), computeAndStore g a b t s ≠ .fault f := fun g a b t s => hw _ _ _ fun x => hw _ _ _ fun y => hs _ _ _ _
  have hj : ∀ g a b (s : State), jumpIf g a b s ≠ .fault f := fun g a b s => hw _ _ _ fun x => hw _ _ _ fun y => by intro h; dsimp only at h; split at h <;> cases h
  have hx : ∀ i (s : State), exec i s ≠ .fault f := by
    intro i s h
    cases i
    case add => exact hc _ _ _ _ _ h
    case mul => exact hc _ _ _ _ _ h
    case lt => exact hc _ _ _ _ _ h
    case eq => exact hc _ _ _ _ _ h
    case jnz => exact hj _ _ _ _ h
    case jz => exact hj _ _ _ _ h
    case hlt => cases h
    case arb => exact hw _ _ _ (fun x h => by cases h) h
    case out =>
      refine hw _ _ _ (fun x h => ?_) h
      unfold andThen send at h
      split at h
      · cases h
      · rename_i g hg
        split at hg
        · cases hg
        · cases hg
        · simp only at hg; split at hg
          · split at hg <;> cases hg
          · cases hg
      · cases h
    case inp =>
      have h : execInp _ s = _ := h
      unfold execInp at h
      split at h
      · exact hs _ _ _ _ h
      · split at h
        · split at h
          · exact hs _ _ _ _ h
          · cases h
        · cases h
  intro h
  cases e with
  | machine k =>
    simp only [stepEvent, machineStep, runInstruction] at h
    split at h
    · split at h
      · cases h
      · exact hx _ _ h
    · cases h
  | deliver k => simp only [stepEvent, deliverStep] at h; split at h <;> cases h
  | orchestrator =>
    simp only [stepEvent, orchestratorStep, detectStep] at h
    split at h
    · split at h
      · cases h
      · split at h <;> cases h
      · cases h
    · split at h <;> cases h
  | hostAppend p v => simp only [stepEvent, hostAppendStep] at h; split at h <;> cases h
  | teardown => cases h

end Sys2Proof.Machine
end

