-- ==== Sys2Proof/Laws/Decode.lean ====
section
/-! SUPPORT. Laws of the decimal decoder: digits of an encoded word, and one law for each format. -/

namespace Sys2Proof

theorem decodeReadMode_digit (w i : Nat) (m : ReadMode) : decodeReadMode w i = .ok m ↔ digit w (i + 1) = m.digit := by
  unfold decodeReadMode
  split
  · rename_i h; cases m <;> simp [ReadMode.digit, h]
  · rename_i h; cases m <;> simp [ReadMode.digit, h]
  · rename_i h; cases m <;> simp [ReadMode.digit, h]
  · rename_i h0 h1 h2
    cases m <;> simp [ReadMode.digit] <;> intro h <;> contradiction

theorem decodeReadMode_error (w i : Nat) (e : FaultKind) :
    decodeReadMode w i = .error e ↔ e = .unknownMode ∧ 3 ≤ digit w (i + 1) := by
  unfold decodeReadMode
  split
  · rename_i h; simp [h]
  · rename_i h; simp [h]
  · rename_i h; simp [h]
  · rename_i h0 h1 h2
    constructor
    · intro h
      cases h
      have h0' : digit w (i + 1) ≠ 0 := h0
      have h1' : digit w (i + 1) ≠ 1 := h1
      have h2' : digit w (i + 1) ≠ 2 := h2
      exact ⟨rfl, by omega⟩
    · rintro ⟨rfl, -⟩; rfl

theorem decodeWriteMode_ok (w i : Nat) (m : WriteMode) :
    decodeWriteMode w i = .ok m ↔
      (m = .literal ∧ w < 10 ^ (i + 1)) ∨ (m = .relative ∧ 10 ^ (i + 1) ≤ w ∧ digit w (i + 1) = 2) := by
  unfold decodeWriteMode
  split
  · rename_i h
    constructor
    · intro h; cases h
    · rintro (⟨_, hw⟩ | ⟨_, _, hd⟩)
      · have : digit w (i + 1) = 0 := by simp [digit, Nat.div_eq_of_lt hw]
        omega
      · omega
  · split
    · rename_i hw
      cases m <;> simp [hw]
    · rename_i hw
      split
      · rename_i hd
        cases m
        · simp [hw]
        · simp [hd, hw]; omega
      · rename_i hd
        simp [hd, hw]

theorem decodeWriteMode_error (w i : Nat) (e : FaultKind) :
    decodeWriteMode w i = .error e ↔
      (e = .unknownMode ∧ 3 ≤ digit w (i + 1)) ∨
        (e = .invalidWriteMode ∧ digit w (i + 1) ≤ 1 ∧ 10 ^ (i + 1) ≤ w) := by
  unfold decodeWriteMode
  split
  · rename_i h
    constructor
    · intro h'; cases h'; exact .inl ⟨rfl, by omega⟩
    · rintro (⟨rfl, _⟩ | ⟨rfl, _, _⟩)
      · rfl
      · omega
  · split
    · rename_i hw
      constructor
      · intro h; cases h
      · rintro (⟨rfl, _⟩ | ⟨rfl, _, _⟩) <;> omega
    · rename_i hw
      split
      · rename_i hd
        constructor
        · intro h; cases h
        · rintro (⟨rfl, _⟩ | ⟨rfl, _, _⟩) <;> omega
      · rename_i hd
        constructor
        · intro h; cases h; exact .inr ⟨rfl, by omega, by omega⟩
        · rintro (⟨rfl, _⟩ | ⟨rfl, _, _⟩)
          · omega
          · rfl

theorem decodeRRW_ok {mk : ReadOp → ReadOp → WriteOp → Instr} {w : Nat} {p : Nat → Int} {i : Instr} :
    decodeRRW mk w p = .ok i ↔ ∃ m1 m2 m3, decodeReadMode w 1 = .ok m1 ∧ decodeReadMode w 2 = .ok m2 ∧
      decodeWriteMode w 3 = .ok m3 ∧ i = mk ⟨m1, p 1⟩ ⟨m2, p 2⟩ ⟨m3, p 3⟩ := by
  unfold decodeRRW
  split
  · rename_i e h; simp [h]
  · rename_i m1 h1
    split
    · rename_i e h; simp [h]
    · rename_i m2 h2
      split
      · rename_i e h; simp [h]
      · rename_i m3 h3; simp [h1, h2, h3, eq_comm]

theorem decodeRR_ok {mk : ReadOp → ReadOp → Instr} {w : Nat} {p : Nat → Int} {i : Instr} :
    decodeRR mk w p = .ok i ↔ ∃ m1 m2, decodeReadMode w 1 = .ok m1 ∧ decodeReadMode w 2 = .ok m2 ∧
      i = mk ⟨m1, p 1⟩ ⟨m2, p 2⟩ := by
  unfold decodeRR
  split
  · rename_i e h; simp [h]
  · rename_i m1 h1
    split
    · rename_i e h; simp [h]
    · rename_i m2 h2; simp [h1, h2, eq_comm]

theorem decodeR_ok {mk : ReadOp → Instr} {w : Nat} {p : Nat → Int} {i : Instr} :
    decodeR mk w p = .ok i ↔ ∃ m1, decodeReadMode w 1 = .ok m1 ∧ i = mk ⟨m1, p 1⟩ := by
  unfold decodeR
  split
  · rename_i e h; simp [h]
  · rename_i m1 h1; simp [h1, eq_comm]

theorem decodeW_ok {mk : WriteOp → Instr} {w : Nat} {p : Nat → Int} {i : Instr} :
    decodeW mk w p = .ok i ↔ ∃ m1, decodeWriteMode w 1 = .ok m1 ∧ i = mk ⟨m1, p 1⟩ := by
  unfold decodeW
  split
  · rename_i e h; simp [h]
  · rename_i m1 h1; simp [h1, eq_comm]

/-- Everything a word that decodes can be (R60, R63). -/
inductive DecodesTo (w : Nat) (p : Nat → Int) : Instr → Prop where
  | add (h : w % 100 = 1) {i : Instr} (d : decodeRRW .add w p = .ok i) : DecodesTo w p i
  | mul (h : w % 100 = 2) {i : Instr} (d : decodeRRW .mul w p = .ok i) : DecodesTo w p i
  | inp (h : w % 100 = 3) {i : Instr} (d : decodeW .inp w p = .ok i) : DecodesTo w p i
  | out (h : w % 100 = 4) {i : Instr} (d : decodeR .out w p = .ok i) : DecodesTo w p i
  | jnz (h : w % 100 = 5) {i : Instr} (d : decodeRR .jnz w p = .ok i) : DecodesTo w p i
  | jz (h : w % 100 = 6) {i : Instr} (d : decodeRR .jz w p = .ok i) : DecodesTo w p i
  | lt (h : w % 100 = 7) {i : Instr} (d : decodeRRW .lt w p = .ok i) : DecodesTo w p i
  | eq (h : w % 100 = 8) {i : Instr} (d : decodeRRW .eq w p = .ok i) : DecodesTo w p i
  | arb (h : w % 100 = 9) {i : Instr} (d : decodeR .arb w p = .ok i) : DecodesTo w p i
  | hlt (h : w % 100 = 99) : DecodesTo w p .hlt

theorem decode_of_neg {w : Int} (p : Nat → Int) (h : w < 0) : decode w p = .error .unknownOpcode := by
  simp [decode, h]

/-- The decoder by opcode, for a word that is not negative. -/
theorem decode_natCast (w : Nat) (p : Nat → Int) : decode (w : Int) p =
    if w % 100 = 1 then decodeRRW .add w p
    else if w % 100 = 2 then decodeRRW .mul w p
    else if w % 100 = 3 then decodeW .inp w p
    else if w % 100 = 4 then decodeR .out w p
    else if w % 100 = 5 then decodeRR .jnz w p
    else if w % 100 = 6 then decodeRR .jz w p
    else if w % 100 = 7 then decodeRRW .lt w p
    else if w % 100 = 8 then decodeRRW .eq w p
    else if w % 100 = 9 then decodeR .arb w p
    else if w % 100 = 99 then .ok .hlt
    else .error .unknownOpcode := by
  unfold decode
  rw [if_neg (by omega)]
  simp only [Int.toNat_natCast]

theorem decode_ok_natCast {w : Nat} {p : Nat → Int} {i : Instr} (h : decode (w : Int) p = .ok i) : DecodesTo w p i := by
  rw [decode_natCast] at h
  split at h
  · rename_i ho; exact .add ho h
  split at h
  · rename_i ho; exact .mul ho h
  split at h
  · rename_i ho; exact .inp ho h
  split at h
  · rename_i ho; exact .out ho h
  split at h
  · rename_i ho; exact .jnz ho h
  split at h
  · rename_i ho; exact .jz ho h
  split at h
  · rename_i ho; exact .lt ho h
  split at h
  · rename_i ho; exact .eq ho h
  split at h
  · rename_i ho; exact .arb ho h
  split at h
  · rename_i ho; cases h; exact .hlt ho
  · cases h

/-- A word that decodes is not negative. -/
theorem nonneg_of_decode_ok {w : Int} {p : Nat → Int} {i : Instr} (h : decode w p = .ok i) : 0 ≤ w := by
  by_contra hw
  rw [decode_of_neg p (by omega)] at h
  cases h

end Sys2Proof
end

