-- ==== Sys2Proof/Laws/PerInstr.lean ====
section
/-! SUPPORT. Statements about every instruction as syntax, one lemma for each constructor. -/

namespace Sys2Proof.Laws

/-- The shape of an instruction's encoding: the opcode in the lowest two digits (30_encoding.md R50), no digit above
the operands' mode digits (R68), one mode digit for each parameter word, and `n + 1` words (R51, R52). -/
def EncodedHead.Statement (i : Instr) : Prop :=
  i.headWord % 100 = i.opcode ∧ i.headWord < 10 ^ (i.params.length + 2) ∧
    i.modeDigits.length = i.params.length ∧ (encode i).length = i.length

theorem EncodedHead.add (a b : ReadOp) (t : WriteOp) : EncodedHead.Statement (.add a b t) := by
  obtain ⟨⟨⟩, _⟩ := a <;> obtain ⟨⟨⟩, _⟩ := b <;> obtain ⟨⟨⟩, _⟩ := t <;> 
    simp [EncodedHead.Statement, Instr.headWord, Instr.opcode, Instr.modeDigits, modeSum, Instr.params, encode,
    Instr.length, ReadMode.digit, WriteMode.digit]

theorem EncodedHead.mul (a b : ReadOp) (t : WriteOp) : EncodedHead.Statement (.mul a b t) := by
  obtain ⟨⟨⟩, _⟩ := a <;> obtain ⟨⟨⟩, _⟩ := b <;> obtain ⟨⟨⟩, _⟩ := t <;> 
    simp [EncodedHead.Statement, Instr.headWord, Instr.opcode, Instr.modeDigits, modeSum, Instr.params, encode,
    Instr.length, ReadMode.digit, WriteMode.digit]

theorem EncodedHead.inp (t : WriteOp) : EncodedHead.Statement (.inp t) := by
  obtain ⟨⟨⟩, _⟩ := t <;> 
    simp [EncodedHead.Statement, Instr.headWord, Instr.opcode, Instr.modeDigits, modeSum, Instr.params, encode,
    Instr.length, WriteMode.digit]

theorem EncodedHead.out (a : ReadOp) : EncodedHead.Statement (.out a) := by
  obtain ⟨⟨⟩, _⟩ := a <;> 
    simp [EncodedHead.Statement, Instr.headWord, Instr.opcode, Instr.modeDigits, modeSum, Instr.params, encode,
    Instr.length, ReadMode.digit]

theorem EncodedHead.jnz (a b : ReadOp) : EncodedHead.Statement (.jnz a b) := by
  obtain ⟨⟨⟩, _⟩ := a <;> obtain ⟨⟨⟩, _⟩ := b <;> 
    simp [EncodedHead.Statement, Instr.headWord, Instr.opcode, Instr.modeDigits, modeSum, Instr.params, encode,
    Instr.length, ReadMode.digit]

theorem EncodedHead.jz (a b : ReadOp) : EncodedHead.Statement (.jz a b) := by
  obtain ⟨⟨⟩, _⟩ := a <;> obtain ⟨⟨⟩, _⟩ := b <;> 
    simp [EncodedHead.Statement, Instr.headWord, Instr.opcode, Instr.modeDigits, modeSum, Instr.params, encode,
    Instr.length, ReadMode.digit]

theorem EncodedHead.lt (a b : ReadOp) (t : WriteOp) : EncodedHead.Statement (.lt a b t) := by
  obtain ⟨⟨⟩, _⟩ := a <;> obtain ⟨⟨⟩, _⟩ := b <;> obtain ⟨⟨⟩, _⟩ := t <;> 
    simp [EncodedHead.Statement, Instr.headWord, Instr.opcode, Instr.modeDigits, modeSum, Instr.params, encode,
    Instr.length, ReadMode.digit, WriteMode.digit]

theorem EncodedHead.eq (a b : ReadOp) (t : WriteOp) : EncodedHead.Statement (.eq a b t) := by
  obtain ⟨⟨⟩, _⟩ := a <;> obtain ⟨⟨⟩, _⟩ := b <;> obtain ⟨⟨⟩, _⟩ := t <;> 
    simp [EncodedHead.Statement, Instr.headWord, Instr.opcode, Instr.modeDigits, modeSum, Instr.params, encode,
    Instr.length, ReadMode.digit, WriteMode.digit]

theorem EncodedHead.arb (a : ReadOp) : EncodedHead.Statement (.arb a) := by
  obtain ⟨⟨⟩, _⟩ := a <;> 
    simp [EncodedHead.Statement, Instr.headWord, Instr.opcode, Instr.modeDigits, modeSum, Instr.params, encode,
    Instr.length, ReadMode.digit]

theorem EncodedHead.hlt : EncodedHead.Statement .hlt := by 
    simp [EncodedHead.Statement, Instr.headWord, Instr.opcode, Instr.modeDigits, modeSum, Instr.params, encode,
    Instr.length]

end Sys2Proof.Laws
end

