-- ==== Sys2Proof/Laws/Text.lean ====
section
/-! SUPPORT. Fields, white space and integers of a program text (30_encoding.md R66). -/

namespace Sys2Proof.Machine

/-- A missing value makes the whole missing. -/
theorem allSome_none {α : Type} {l : List (Option α)} (h : none ∈ l) : allSome l = none := by
  induction l with
  | nil => cases h
  | cons a l ih =>
    cases a with
    | none => rfl
    | some a => simp at h; simp [allSome, ih h]

/-- There is at least one field. -/
theorem splitAt_ne (sep : Char) (cs : List Char) : splitAt sep cs ≠ [] := by
  cases cs with
  | nil => simp [splitAt]
  | cons c cs => unfold splitAt; split; · simp
                 split <;> simp

/-- A character that is no separator is in some field. -/
theorem splitAt_mem {sep c : Char} {cs : List Char} (h : c ∈ cs) (hc : c ≠ sep) : ∃ f ∈ splitAt sep cs, c ∈ f := by
  induction cs with
  | nil => cases h
  | cons x cs ih =>
    unfold splitAt
    by_cases hx : x = sep
    · rw [if_pos hx]
      rcases List.mem_cons.1 h with rfl | h
      · exact absurd hx hc
      · obtain ⟨f, hf, hcf⟩ := ih h; exact ⟨f, List.mem_cons_of_mem _ hf, hcf⟩
    · rw [if_neg hx]
      cases hs : splitAt sep cs with
      | nil => exact absurd hs (splitAt_ne _ _)
      | cons g gs =>
        simp only
        rcases List.mem_cons.1 h with rfl | h
        · exact ⟨_, List.mem_cons_self, by simp⟩
        · obtain ⟨f, hf, hcf⟩ := ih h
          rw [hs] at hf
          rcases List.mem_cons.1 hf with rfl | hf
          · exact ⟨_, List.mem_cons_self, by simp [hcf]⟩
          · exact ⟨f, by simp [hf], hcf⟩

/-- The first field, and the fields after its separator. -/
theorem splitAt_append {sep : Char} (f rest : List Char) (h : sep ∉ f) : splitAt sep (f ++ sep :: rest) = f :: splitAt sep rest := by
  induction f with
  | nil => simp [splitAt]
  | cons c f ih =>
    simp at h
    show splitAt sep (c :: (f ++ sep :: rest)) = _
    rw [splitAt, if_neg (Ne.symm h.1), ih h.2]

/-- A text without separator is one field. -/
theorem splitAt_single {sep : Char} (f : List Char) (h : sep ∉ f) : splitAt sep f = [f] := by
  induction f with
  | nil => rfl
  | cons c f ih =>
    simp at h
    unfold splitAt
    rw [if_neg (Ne.symm h.1), ih h.2]

/-- Two separators in a row enclose an empty field. -/
theorem splitAt_empty {sep : Char} (pre post : List Char) : [] ∈ splitAt sep (pre ++ sep :: sep :: post) := by
  induction pre with
  | nil => simp [splitAt]
  | cons c f ih =>
    show [] ∈ splitAt sep (c :: (f ++ sep :: sep :: post))
    unfold splitAt
    split
    · exact List.mem_cons_of_mem _ ih
    · -- the first field is extended, the empty one is later or it is the first
      cases hs : splitAt sep (f ++ sep :: sep :: post) with
      | nil => exact absurd hs (splitAt_ne _ _)
      | cons g gs =>
        simp only
        have key : [] ∈ gs := by
          clear ih
          revert g gs
          induction f with
          | nil => intro g gs h; simp [splitAt] at h; simp [← h.2]
          | cons d f ih2 =>
            intro g gs h
            have h : splitAt sep (d :: (f ++ sep :: sep :: post)) = _ := h
            unfold splitAt at h
            split at h
            · simp at h; rw [← h.2]
              cases hs2 : splitAt sep (f ++ sep :: sep :: post) with
              | nil => exact absurd hs2 (splitAt_ne _ _)
              | cons a b => exact List.mem_cons_of_mem _ (ih2 _ _ hs2)
            · cases hs2 : splitAt sep (f ++ sep :: sep :: post) with
              | nil => exact absurd hs2 (splitAt_ne _ _)
              | cons a b => rw [hs2] at h; simp at h; rw [← h.2]; exact ih2 _ _ hs2
        exact List.mem_cons_of_mem _ key

/-- What is read as digits is digits. -/
theorem digitsFrom_mem {cs : List Char} {a n : Nat} (h : digitsFrom a cs = some n) : ∀ c ∈ cs, digitValue c ≠ none := by
  induction cs generalizing a with
  | nil => simp
  | cons c cs ih =>
    intro x hx
    unfold digitsFrom at h
    split at h
    · rename_i d hd
      rcases List.mem_cons.1 hx with rfl | hx
      · rw [hd]; simp
      · exact ih h x hx
    · cases h

/-- What is read as digits is digits, and not empty. -/
theorem parseDigits_mem {cs : List Char} {n : Nat} (h : parseDigits cs = some n) : cs ≠ [] ∧ ∀ c ∈ cs, digitValue c ≠ none := by
  cases cs with
  | nil => cases h
  | cons c cs => exact ⟨by simp, digitsFrom_mem h⟩

/-- What is read as an integer is digits and signs, and not empty. -/
theorem parseInt_mem {cs : List Char} {v : Int} (h : parseInt cs = some v) : cs ≠ [] ∧ ∀ c ∈ cs, digitValue c ≠ none ∨ c = '+' ∨ c = '-' := by
  unfold parseInt at h
  split at h
  · cases hd : parseDigits _ with
    | none => rw [hd] at h; cases h
    | some n => refine ⟨by simp, ?_⟩; intro c hc; rcases List.mem_cons.1 hc with rfl | hc; · simp
                exact .inl ((parseDigits_mem hd).2 c hc)
  · cases hd : parseDigits _ with
    | none => rw [hd] at h; cases h
    | some n => refine ⟨by simp, ?_⟩; intro c hc; rcases List.mem_cons.1 hc with rfl | hc; · simp
                exact .inl ((parseDigits_mem hd).2 c hc)
  · cases hd : parseDigits _ with
    | none => rw [hd] at h; cases h
    | some n => exact ⟨(parseDigits_mem hd).1, fun c hc => .inl ((parseDigits_mem hd).2 c hc)⟩

/-- White space is no digit, sign or comma. -/
theorem isWs_not_field {c : Char} (h : isWs c = true) : digitValue c = none ∧ c ≠ '+' ∧ c ≠ '-' ∧ c ≠ ',' := by
  simp [isWs] at h
  rcases h with ((rfl | rfl) | rfl) | rfl <;> decide

/-- Nothing is trimmed from a text without white space. -/
theorem trimWs_eq_self {cs : List Char} (h : ∀ c ∈ cs, isWs c = false) : trimWs cs = cs := by
  have dw : ∀ l : List Char, (∀ c ∈ l, isWs c = false) → l.dropWhile isWs = l := by
    intro l hl; cases l with
    | nil => rfl
    | cons a l => simp [List.dropWhile, hl a]
  unfold trimWs
  rw [dw cs h, dw cs.reverse (by simpa using h), List.reverse_reverse]

/-- White space in front is dropped. -/
theorem dropWhile_ws_append {l m : List Char} (h : l.all isWs = true) : (l ++ m).dropWhile isWs = m.dropWhile isWs := by
  induction l with
  | nil => rfl
  | cons a l ih => simp at h; simp [h.1]; exact ih (by simpa using h.2)

/-- Nothing is dropped from a text that starts with no white space. -/
theorem dropWhile_head {l : List Char} (h : ∀ c ∈ l.head?, isWs c = false) : l.dropWhile isWs = l := by
  cases l with
  | nil => rfl
  | cons a l => simp at h; simp [h]

/-- White space around a text without any is trimmed. -/
theorem trimWs_pad {a f b : List Char} (ha : a.all isWs = true) (hb : b.all isWs = true) (hf : ∀ c ∈ f, isWs c = false) : trimWs (a ++ f ++ b) = f := by
  unfold trimWs
  rw [List.append_assoc, dropWhile_ws_append ha]
  cases f with
  | nil =>
    have : b.dropWhile isWs = [] := by rw [← List.append_nil b, dropWhile_ws_append hb]; rfl
    simp [this]
  | cons c f =>
    rw [dropWhile_head (l := c :: f ++ b) (by intro x hx; simp at hx; subst hx; exact hf c (by simp)), List.reverse_append, dropWhile_ws_append (by simpa using hb), dropWhile_head, List.reverse_reverse]
    intro x hx; apply hf; have := List.mem_of_mem_head? hx; simpa [or_comm] using this

/-- What survives trimming: what is no white space, and white space between such characters. -/
theorem mem_trimWs {pre post : List Char} {c : Char} (h1 : isWs c = false ∨ ∃ x ∈ pre, isWs x = false) (h2 : isWs c = false ∨ ∃ x ∈ post, isWs x = false) :
   c ∈ trimWs (pre ++ c :: post) := by
  have d1 : ∀ (pre post : List Char), (isWs c = false ∨ ∃ x ∈ pre, isWs x = false) → ∃ p, (pre ++ c :: post).dropWhile isWs = p ++ c :: post := by
    intro pre post h
    induction pre with
    | nil =>
      rcases h with h | ⟨x, hx, _⟩
      · exact ⟨[], by simp [h]⟩
      · cases hx
    | cons a pre ih =>
      by_cases ha : isWs a = true
      · have : (a :: pre ++ c :: post).dropWhile isWs = (pre ++ c :: post).dropWhile isWs := by simp [ha]
        rw [this]
        apply ih
        rcases h with h | ⟨x, hx, hxw⟩
        · exact .inl h
        · rcases List.mem_cons.1 hx with rfl | hx
          · rw [ha] at hxw; cases hxw
          · exact .inr ⟨x, hx, hxw⟩
      · exact ⟨a :: pre, by simp [ha]⟩
  unfold trimWs
  obtain ⟨p, hp⟩ := d1 pre post h1
  rw [hp]
  have : (p ++ c :: post).reverse = post.reverse ++ c :: p.reverse := by simp
  rw [this]
  obtain ⟨p', hp'⟩ := d1 post.reverse p.reverse (by simpa using h2)
  rw [hp']; simp

/-- A character that no field may hold makes the text refused. -/
theorem parseProgram_of_bad_char {text : List Char} {c : Char} (h : c ∈ trimWs text) (hd : digitValue c = none) (hp : c ≠ '+') (hm : c ≠ '-') (hk : c ≠ ',') : parseProgram text = none := by
  obtain ⟨f, hf, hc⟩ := splitAt_mem h hk
  unfold parseProgram
  apply allSome_none
  rw [List.mem_map]
  refine ⟨f, hf, ?_⟩
  cases hv : parseInt f with
  | none => rfl
  | some v => rcases (parseInt_mem hv).2 c hc with h | h | h <;> contradiction

/-- An integer holds no white space and no comma. -/
theorem parseInt_clean {f : List Char} {v : Int} (h : parseInt f = some v) : (∀ c ∈ f, isWs c = false) ∧ ',' ∉ f := by
  have hm := (parseInt_mem h).2
  refine ⟨fun c hc => ?_, fun hc => ?_⟩
  · by_contra hw
    have := isWs_not_field (by simpa using hw)
    rcases hm c hc with h | h | h
    · exact h this.1
    · exact this.2.1 h
    · exact this.2.2.1 h
  · rcases hm _ hc with h | h | h
    · exact h (by decide)
    · exact absurd h (by decide)
    · exact absurd h (by decide)

/-- The digit character of `d` has the value `d`. -/
theorem digitValue_digitChar {d : Nat} (h : d < 10) : digitValue (Nat.digitChar d) = some d := by
  interval_cases d <;> rfl

/-- A character with a digit value is that digit. -/
theorem digitValue_some {c : Char} {d : Nat} (h : digitValue c = some d) : d < 10 ∧ c = Nat.digitChar d := by
  unfold digitValue at h
  split at h
  · rename_i hc
    cases h
    have h1 : '0'.toNat = 48 := rfl
    have h2 : '9'.toNat = 57 := rfl
    rw [h1, h2] at hc
    refine ⟨by omega, ?_⟩
    have e : c = Char.ofNat c.toNat := (Char.ofNat_toNat c).symm
    rw [h1]
    generalize hn : c.toNat = n at *
    rw [e]
    obtain ⟨a, b⟩ := hc
    interval_cases n <;> rfl
  · cases h

/-- Digits read after `a` are a list of digits, the most significant first. -/
theorem digitsFrom_iff {cs : List Char} {a n : Nat} : digitsFrom a cs = some n ↔
    ∃ ds : List Nat, (∀ d ∈ ds, d < 10) ∧ cs = ds.map Nat.digitChar ∧ n = a * 10 ^ ds.length + Nat.ofDigits 10 ds.reverse := by
  induction cs generalizing a with
  | nil =>
    constructor
    · intro h; cases h; exact ⟨[], by simp, rfl, by simp⟩
    · rintro ⟨ds, _, h, rfl⟩
      have : ds = [] := by simpa using h.symm
      subst this; simp [digitsFrom]
  | cons c cs ih =>
    have step : ∀ d (ds : List Nat), (a * 10 + d) * 10 ^ ds.length + Nat.ofDigits 10 ds.reverse = a * 10 ^ (d :: ds).length + Nat.ofDigits 10 (d :: ds).reverse := by
      intro d ds
      simp [Nat.ofDigits_append, pow_succ]; ring
    constructor
    · intro h
      unfold digitsFrom at h
      split at h
      · rename_i d hd
        obtain ⟨hlt, rfl⟩ := digitValue_some hd
        obtain ⟨ds, h1, rfl, rfl⟩ := ih.1 h
        exact ⟨d :: ds, by simpa [hlt] using h1, rfl, step d ds⟩
      · cases h
    · rintro ⟨ds, h1, h2, rfl⟩
      cases ds with
      | nil => cases h2
      | cons d ds =>
        simp at h2 h1
        obtain ⟨rfl, rfl⟩ := h2
        unfold digitsFrom
        rw [digitValue_digitChar h1.1]
        exact ih.2 ⟨ds, h1.2, rfl, (step d ds).symm⟩

/-- `digit+` is a non-empty list of digits with its base-10 value. -/
theorem parseDigits_iff {cs : List Char} {n : Nat} : parseDigits cs = some n ↔
    ∃ ds : List Nat, ds ≠ [] ∧ (∀ d ∈ ds, d < 10) ∧ cs = ds.map Nat.digitChar ∧ n = Nat.ofDigits 10 ds.reverse := by
  cases cs with
  | nil =>
    constructor
    · intro h; cases h
    · rintro ⟨ds, h, _, h2, _⟩; exact absurd (by simpa using h2.symm) h
  | cons c cs =>
    show digitsFrom 0 (c :: cs) = _ ↔ _
    rw [digitsFrom_iff]
    constructor
    · rintro ⟨ds, h1, h2, h3⟩; exact ⟨ds, (by rintro rfl; cases h2), h1, h2, by simpa using h3⟩
    · rintro ⟨ds, _, h1, h2, h3⟩; exact ⟨ds, h1, h2, by simpa using h3⟩

/-- What is dropped in front is white space. -/
theorem dropWhile_split (cs : List Char) : ∃ a, a.all isWs = true ∧ cs = a ++ cs.dropWhile isWs := by
  refine ⟨cs.takeWhile isWs, by simp, (List.takeWhile_append_dropWhile).symm⟩

/-- A text is white space, what is trimmed, white space. -/
theorem trimWs_split (cs : List Char) : ∃ a b, a.all isWs = true ∧ b.all isWs = true ∧ cs = a ++ trimWs cs ++ b := by
  obtain ⟨a, ha, e⟩ := dropWhile_split cs
  obtain ⟨b, hb, e2⟩ := dropWhile_split (cs.dropWhile isWs).reverse
  refine ⟨a, b.reverse, ha, by simpa using hb, ?_⟩
  have : cs.dropWhile isWs = trimWs cs ++ b.reverse := by
    unfold trimWs
    rw [← List.reverse_append, ← e2, List.reverse_reverse]
  rw [List.append_assoc, ← this]; exact e

/-- The fields, joined by commas, are the text. -/
theorem intercalate_splitAt (cs : List Char) : List.intercalate [','] (splitAt ',' cs) = cs := by
  induction cs with
  | nil => rfl
  | cons c cs ih =>
    unfold splitAt
    split
    · rename_i h; subst h
      cases hs : splitAt ',' cs with
      | nil => exact absurd hs (splitAt_ne _ _)
      | cons g gs => rw [hs] at ih; rw [List.intercalate_cons_cons, ih]; rfl
    · cases hs : splitAt ',' cs with
      | nil => exact absurd hs (splitAt_ne _ _)
      | cons g gs =>
        rw [hs] at ih
        simp only
        cases gs with
        | nil => simp [List.intercalate] at ih ⊢; exact ih
        | cons h hs => rw [List.intercalate_cons_cons] at ih ⊢; rw [← ih]; rfl

/-- Fields without commas, joined by commas, are the fields of the text. -/
theorem splitAt_intercalate {fs : List (List Char)} (hne : fs ≠ []) (h : ∀ f ∈ fs, ',' ∉ f) : splitAt ',' (List.intercalate [','] fs) = fs := by
  induction fs with
  | nil => exact absurd rfl hne
  | cons f fs ih =>
    cases fs with
    | nil => simp [List.intercalate]; exact splitAt_single f (h f (by simp))
    | cons g gs =>
      rw [List.intercalate_cons_cons]
      show splitAt ',' (f ++ [','] ++ _) = _
      rw [List.append_assoc]
      show splitAt ',' (f ++ ',' :: _) = _
      rw [splitAt_append _ _ (h f (by simp))]
      exact congrArg _ (ih (by simp) (fun x hx => h x (by simp [hx])))

/-- All values are there, and these are they. -/
theorem allSome_eq_some {l : List (Option Int)} {vs : List Int} : allSome l = some vs ↔ l = vs.map some := by
  induction l generalizing vs with
  | nil => cases vs <;> simp [allSome]
  | cons a l ih =>
    cases a with
    | none => simp [allSome]; cases vs <;> simp
    | some a =>
      simp only [allSome, Option.map_eq_some_iff]
      constructor
      · rintro ⟨as, h, rfl⟩; simp [ih.1 h]
      · intro h
        cases vs with
        | nil => cases h
        | cons v vs => simp at h; exact ⟨vs, ih.2 h.2, by rw [h.1]⟩

/-- Trimming reaches no further than characters that are no white space. -/
theorem trimWs_mid (pre mid post : List Char) (h1 : ∀ c ∈ mid.head?, isWs c = false) (h2 : ∀ c ∈ mid.getLast?, isWs c = false) (hne : mid ≠ []) :
    trimWs (pre ++ mid ++ post) = pre.dropWhile isWs ++ mid ++ (post.reverse.dropWhile isWs).reverse := by
  have dw : ∀ (l m : List Char), m ≠ [] → (∀ c ∈ m.head?, isWs c = false) → (l ++ m).dropWhile isWs = l.dropWhile isWs ++ m := by
    intro l m hm hh
    induction l with
    | nil => exact dropWhile_head hh
    | cons a l ih =>
      by_cases ha : isWs a = true
      · simp [ha]; exact ih
      · simp [ha]
  unfold trimWs
  rw [List.append_assoc, dw pre (mid ++ post) (by simp [hne]) (by cases mid with | nil => exact absurd rfl hne | cons x xs => simpa using h1)]
  rw [← List.append_assoc, List.reverse_append, dw]
  · simp
  · simp [hne]
  · intro c hc
    apply h2
    rw [List.reverse_append, List.head?_append] at hc
    simp [hne] at hc
    cases hl : mid.getLast? with
    | none => simp at hl; exact absurd hl hne
    | some x => rw [hl] at hc; simpa using hc

/-- A field that is no integer makes the text refused. -/
theorem parseProgram_of_bad_field {text f : List Char} (h : f ∈ splitAt ',' (trimWs text)) (hf : parseInt f = none) : parseProgram text = none := by
  unfold parseProgram; apply allSome_none; rw [List.mem_map]; exact ⟨f, h, hf⟩

/-- The fields of two texts joined: the last of the first and the first of the second become one. -/
theorem splitAt_app (l m : List Char) : ∃ gs g h hs, splitAt ',' l = gs ++ [g] ∧ splitAt ',' m = h :: hs ∧ splitAt ',' (l ++ m) = gs ++ [g ++ h] ++ hs := by
  induction l with
  | nil =>
    cases hm : splitAt ',' m with
    | nil => exact absurd hm (splitAt_ne _ _)
    | cons h hs => exact ⟨[], [], h, hs, rfl, rfl, hm⟩
  | cons c l ih =>
    obtain ⟨gs, g, h, hs, e1, e2, e3⟩ := ih
    by_cases hc : c = ','
    · subst hc
      refine ⟨[] :: gs, g, h, hs, ?_, e2, ?_⟩
      · rw [splitAt, if_pos rfl, e1]; rfl
      · show splitAt ',' (',' :: (l ++ m)) = _
        rw [splitAt, if_pos rfl, e3]; rfl
    · cases gs with
      | nil =>
        refine ⟨[], c :: g, h, hs, ?_, e2, ?_⟩
        · rw [splitAt, if_neg hc, e1]; rfl
        · show splitAt ',' (c :: (l ++ m)) = _
          rw [splitAt, if_neg hc, e3]; rfl
      | cons k gs =>
        refine ⟨(c :: k) :: gs, g, h, hs, ?_, e2, ?_⟩
        · rw [splitAt, if_neg hc, e1]; rfl
        · show splitAt ',' (c :: (l ++ m)) = _
          rw [splitAt, if_neg hc, e3]; rfl

end Sys2Proof.Machine
end

