-- ==== Sys2Proof/Tests/Slice0.lean ====
section
/-! SUPPORT. The model's own tests. Expected results come from 95_test_vectors.md or from the rules named at each
test; then, for every obligation with hypotheses, a concrete state that meets them. -/

namespace Sys2Proof.Tests

open Sys2Proof Sys2Proof.Machine

/-! ### Decoding: words written out from 30_encoding.md R51, R63 -/

theorem test_decode_add : decodeWords [21101, 2, 3, -1] = .ok (.add ⟨.immediate, 2⟩ ⟨.immediate, 3⟩ ⟨.relative, -1⟩) := by
  decide
theorem test_decode_mul : decodeWords [1002, 4, 3, 4] = .ok (.mul ⟨.position, 4⟩ ⟨.immediate, 3⟩ ⟨.literal, 4⟩) := by
  decide
theorem test_decode_in : decodeWords [203, 2] = .ok (.inp ⟨.relative, 2⟩) := by decide
theorem test_decode_out : decodeWords [204, -1] = .ok (.out ⟨.relative, -1⟩) := by decide
theorem test_decode_jnz : decodeWords [1105, 1, 7] = .ok (.jnz ⟨.immediate, 1⟩ ⟨.immediate, 7⟩) := by decide
theorem test_decode_jz : decodeWords [1006, 101, 0] = .ok (.jz ⟨.position, 101⟩ ⟨.immediate, 0⟩) := by decide
theorem test_decode_lt : decodeWords [21207, 1, 5, 7] = .ok (.lt ⟨.relative, 1⟩ ⟨.immediate, 5⟩ ⟨.relative, 7⟩) := by
  decide
theorem test_decode_eq : decodeWords [1108, 4, 5, 5] = .ok (.eq ⟨.immediate, 4⟩ ⟨.immediate, 5⟩ ⟨.literal, 5⟩) := by
  decide
theorem test_decode_arb : decodeWords [109, -5] = .ok (.arb ⟨.immediate, -5⟩) := by decide
theorem test_decode_hlt : decodeWords [10099] = .ok .hlt := by decide
/-- R84's examples, and R64. -/
theorem test_decode_faults : decodeWords [10001, -1, -1, 0] = .error .invalidWriteMode ∧
    decodeWords [10301] = .error .unknownMode ∧ decodeWords [3101] = .error .unknownMode ∧
    decodeWords [1003] = .error .invalidWriteMode ∧ decodeWords [0] = .error .unknownOpcode ∧
    decodeWords [98] = .error .unknownOpcode ∧ decodeWords [-99] = .error .unknownOpcode := by decide
/-- W4's word, and R67's third example, by R68. -/
theorem test_encode : encode (.mul ⟨.position, 4⟩ ⟨.immediate, 3⟩ ⟨.literal, 4⟩) = [1002, 4, 3, 4] ∧
    encode (.lt ⟨.relative, 1⟩ ⟨.immediate, 5⟩ ⟨.relative, 7⟩) = [21207, 1, 5, 7] := by decide

/-! ### What is refused before a system runs: one ill-formed term for each check -/

theorem smoke_noMachine : Params.problem { machines := [], queues := [] } = some .noMachine := by decide
theorem smoke_inputNotAQueue : Params.problem { machines := [{ input := 1 }], queues := [{}] } = some .inputNotAQueue := by
  decide
/-- UD8. -/
theorem smoke_sharedInput : Params.problem { machines := [{}, {}], queues := [{}] } = some .sharedInput := by decide
theorem smoke_queueWithoutConsumer :
    Params.problem { machines := [{}], queues := [{}, {}] } = some .queueWithoutConsumer := by decide
theorem smoke_outputNotDeclared :
    Params.problem { machines := [{ output := .queue 0 }], queues := [{ producers := [.host] }] } =
      some .outputNotDeclared := by decide
/-- UD9. -/
theorem smoke_noDataValueMissing :
    Params.problem { machines := [{}], queues := [{ discipline := .polling }] } = some .noDataValueMissing := by decide
/-- R109: the parameters of R8 are chosen before the first step. -/
theorem smoke_faultPolicyMissing :
    Params.problem { machines := [{}], queues := [{}] } = some .faultPolicyMissing := by decide
theorem smoke_stateShape : State.problem { State.reset with machines := [] } = some .stateShape := by decide
theorem smoke_accepted : Params.problem Params.single = none := by decide

/-! ### One step of one machine -/

/-- One machine with a program and a queue, its output bound as said. -/
def boot (prog : List Int) (inq : List Int := []) (d : Discipline := .blocking) (o : Output := .host) : State :=
  construct { machines := [{ prog := prog, output := o }]
              queues := [{ discipline := d, producers := [.host, .machine 0, .router 0], init := inq }]
              noDataValue := some (-1)
              faultPolicy := some .abortAll }

/-- The same, the machine's `rb` at `b`. -/
def bootRb (b : Int) (prog : List Int) : State :=
  (boot prog).setMachine 0 { (boot prog).machine 0 with rb := b }

/-- A machine's `pc`, `rb`, status and cell `a` after one step. -/
def look (a : Nat) (s : State) : Option (Int × Int × Status × Int) :=
  match step s with
  | .next u => some (u.me.pc, u.me.rb, u.me.status, u.me.mem.get a)
  | .fault _ => none
  | .refused _ => none

/-- What a machine's ports hold after one step: its queue, the host's log, its `noData`. -/
def ports (s : State) : Option (List Int × List (Nat × Int) × Nat) :=
  match step s with
  | .next u => some (u.queue 0, u.hostOut, u.me.noData)
  | .fault _ => none
  | .refused _ => none

/-- W1. -/
theorem test_add : look 0 (boot [1, 0, 0, 0, 99]) = some (4, 0, .running, 2) := by decide
/-- W9's second step: the write lands at `rb - 1 = 4`. -/
theorem test_add_relative : look 4 (bootRb 5 [21101, 2, 3, -1]) = some (4, 5, .running, 5) := by decide
/-- W4. -/
theorem test_mul : look 4 (boot [1002, 4, 3, 4, 33]) = some (4, 0, .running, 99) := by decide
/-- R72: `2^62 · 4 = 2^64`. -/
theorem test_mul_exact : look 9 (boot [1102, 4611686018427387904, 4, 9]) = some (4, 0, .running, 18446744073709551616) := by
  decide
/-- R73's example. -/
theorem test_in : look 3 (boot [3, 3, 99, 0] [7]) = some (2, 0, .running, 7) ∧
    ports (boot [3, 3, 99, 0] [7]) = some ([], [], 0) := by decide
/-- R73, second branch. -/
theorem test_in_poll : look 3 (boot [3, 3, 99, 0] [] .polling) = some (2, 0, .running, -1) ∧
    ports (boot [3, 3, 99, 0] [] .polling) = some ([], [], 1) := by decide
/-- R75's example. -/
theorem test_out : look 0 (boot [104, -7, 99]) = some (2, 0, .running, 104) ∧
    ports (boot [104, -7, 99]) = some ([], [(0, -7)], 0) := by decide
/-- R75: to its own input queue, after what is queued. -/
theorem test_out_queue : ports (boot [104, -7, 99] [3] .blocking (.queue 0)) = some ([3, -7], [], 0) := by decide
/-- R76's examples. -/
theorem test_jnz : look 0 (boot [1105, 1, 7, 99]) = some (7, 0, .running, 1105) ∧
    look 0 (boot [1105, 0, 7, 99]) = some (3, 0, .running, 1105) := by decide
/-- R76: both operands are resolved although the jump is not taken. -/
theorem test_jnz_resolves : look 0 (boot [5, 3, -1, 0]) = some (0, 0, .faulted .invalidAddress 0, 5) := by decide
/-- R77's examples. -/
theorem test_jz : look 0 (boot [1106, 0, 9, 99]) = some (9, 0, .running, 1106) ∧
    look 0 (boot [1106, -3, 9, 99]) = some (3, 0, .running, 1106) := by decide
/-- R79's example. -/
theorem test_lt : look 5 (boot [1107, -1, 0, 5, 99, 9]) = some (4, 0, .running, 1) := by decide
/-- R79: equal operands give 0. -/
theorem test_lt_equal : look 5 (boot [1107, 3, 3, 5, 99, 9]) = some (4, 0, .running, 0) := by decide
/-- R80's examples. -/
theorem test_eq : look 5 (boot [1108, 4, 4, 5, 99, 9]) = some (4, 0, .running, 1) ∧
    look 5 (boot [1108, 4, 5, 5, 99, 9]) = some (4, 0, .running, 0) := by decide
/-- R80: it writes over its own instruction word, and still advances by 4. -/
theorem test_eq_self : look 0 (boot [1108, 1, 1, 0]) = some (4, 0, .running, 1) := by decide
/-- R81: `9,0` adds `mem[0]`, which is 9. -/
theorem test_arb : look 0 (boot [9, 0]) = some (2, 9, .running, 9) := by decide
/-- R81: `209,1` with `rb = 1` adds `mem[2]`, read with the old `rb`. -/
theorem test_arb_relative : look 0 (bootRb 1 [209, 1, 40]) = some (2, 41, .running, 209) := by decide
/-- R82's example. -/
theorem test_hlt : look 0 (boot [99]) = some (0, 0, .halted, 99) := by decide
/-- W8 (a): the input is not taken. -/
theorem test_fault_keeps_input : look 0 (boot [1003, 5, 99] [4]) = some (0, 0, .faulted .invalidWriteMode 0, 1003) ∧
    ports (boot [1003, 5, 99] [4]) = some ([4], [], 0) := by decide
/-- R85: IN's value is lost where its write faults. -/
theorem test_fault_loses_input : look 0 (boot [3, -1] [4]) = some (0, 0, .faulted .invalidAddress 0, 3) ∧
    ports (boot [3, -1] [4]) = some ([], [], 0) := by decide
/-- R40: running off the program. -/
theorem test_fetch_unwritten : look 0 (boot []) = some (0, 0, .faulted .unknownOpcode 0, 0) := by decide
/-- The placing of a word: it is what the next step runs. -/
theorem test_withFetchWord : look 0 (State.reset.withFetchWord 32 1101) = some (4, 0, .running, 0) ∧
    (State.reset.withFetchWord 8 99).me.mem = [(0, 99)] := by decide

/-! ### The system -/

/-- A router with two points given: it sends one value to queue 0 and one to the host. -/
def router : Router where
  id := 0
  init := []
  rows := [⟨[], 5, [1], [(.queue 0, 5), (.host, 6)]⟩]
  pendingRows := [([], false), ([1], true)]

/-- R93, R98: the router's output waits in the outbox. -/
theorem test_router : (match step (boot [104, 5, 99] [] .blocking (.router router)) with
    | .next u => some (u.me.outbox, u.me.router, u.queue 0)
    | .fault _ => none
    | .refused _ => none) = some ([(.queue 0, 5), (.host, 6)], [1], []) := by decide

/-- Two machines, each reading its own queue; machine 0 has halted, machine 1 has an instruction to run. -/
def pair : State :=
  (construct { machines := [{ prog := [99], input := 0 }, { prog := [1101, 1, 2, 0, 99], input := 1 }]
               queues := [{ producers := [.host] }, {}]
               faultPolicy := some .isolate }).setMachine 0
    { MachineState.fresh (Memory.ofProgram [99]) [] with status := .halted }

/-- R99: the turn goes to the machine that has a step. -/
theorem test_turn : (match step pair with
    | .next u => some (u.cur, (u.machine 1).pc, (u.machine 0).status)
    | .fault _ => none
    | .refused _ => none) = some (1, 4, .halted) := by decide

/-- R116: every machine halted. -/
theorem test_all_halted : runEnd ((boot [99]).setMachine 0 { (boot [99]).machine 0 with status := .halted }) =
    some .allHalted := by decide

/-- R103, R116: a fault under `AbortAll`. -/
theorem test_abort : (match orchestratorStep ((boot []).afterFault .unknownOpcode) with
    | .next u => some (u.aborted, runEnd u)
    | .fault _ => none
    | .refused _ => none) = some (true, some .aborted) := by decide

/-- Two `Polling` machines under `Isolate`: machine 0 is Faulted, machine 1 is Running and has polled once. -/
def mixed : State :=
  { construct { machines := [{ input := 0 }, { prog := [99], input := 1 }]
                queues := [{ discipline := .polling }, { discipline := .polling }]
                noDataValue := some (-1), faultPolicy := some .isolate } with
    machines := [{ MachineState.fresh [] [] with status := .faulted .unknownOpcode 0 },
                 { MachineState.fresh [(0, 99)] [] with noData := 1 }] }

/-- R107, R116: torn down while a machine is Running, another being Faulted. -/
theorem test_torn_down : (match stepEvent .teardown mixed with
    | .next u => runEnd u
    | .fault _ => none
    | .refused _ => none) = some .tornDown := by decide

/-- R103, R116: a network with a Faulted machine under `Isolate` can still quiesce. -/
theorem test_isolate_quiesces : (match orchestratorStep mixed with
    | .next u => some (u.quiesced, runEnd u)
    | .fault _ => none
    | .refused _ => none) = some (true, some .quiesced) := by decide

/-- R101, R102: a polling machine that has polled once is idle, and quiescence ends the network. -/
theorem test_quiescence :
    (match orchestratorStep ((boot [] [] .polling).setMachine 0 { (boot []).machine 0 with noData := 1 }) with
    | .next u => some (u.quiesced, runEnd u)
    | .fault _ => none
    | .refused _ => none) = some (true, some .quiesced) := by decide

/-- R66. -/
theorem test_program_text : parseProgram [' ', '1', ',', '-', '2', ',', '+', '3', '\n'] = some [1, -2, 3] ∧
    parseProgram ['1', ',', ',', '2'] = none ∧ parseProgram ['1', ' ', ',', '2'] = none ∧
    parseProgram ['1', ','] = none ∧ parseProgram ['1', '-', '2'] = none ∧ parseProgram [] = none := by decide

/-- R67's second example and R69's, as text; its first spells opcode 2 as ADD, and R63 with R68 give 1001 (log 19). -/
theorem test_assembler : assembleText "ADD [4], 3, [4]".toList = some [1001, 4, 3, 4] ∧
    assembleText "OUT [rb-1]".toList = some [204, -1] ∧ assembleText "a: JMP a".toList = some [1105, 1, 0] := by decide

/-! ### Witnesses: for every obligation with hypotheses, a state and operands that meet them -/

/-- Two machines, each with a `Blocking` queue and an output to the other's: 0 sends, 1 receives. -/
def wired : State :=
  construct { machines := [{ prog := [104, 9, 99], input := 0, output := .queue 1 },
                           { prog := [3, 0, 99], input := 1, output := .queue 0 }]
              queues := [{ producers := [.machine 1] }, { producers := [.machine 0], init := [4] }]
              faultPolicy := some .isolate }

/-- A machine that waits on a queue nobody feeds. -/
def starved : State :=
  construct { machines := [{ prog := [3, 0, 99], input := 0 }], queues := [{}], faultPolicy := some .isolate }

/-- A machine with one undelivered value for its own queue. -/
def delivering (o : Output) : State :=
  (boot [99] [] .blocking o).setMachine 0 { (boot [99]).machine 0 with outbox := [(.queue 0, 5), (.host, 6)] }

theorem witness_DecodedWordIsCanonicalBelowSurplusDigits :
    decode 110099 (fun _ => 0) = .ok .hlt ∧
    decode 1001101 (fun _ => 7) = .error .invalidWriteMode ∧
    decode 1021101 (fun _ => 7) = .ok (.add ⟨.immediate, 7⟩ ⟨.immediate, 7⟩ ⟨.relative, 7⟩) := by decide
theorem witness_SurplusDigitsSelectNothing :
    decode (3 : Nat) (fun _ => 0) = .ok (.inp ⟨.literal, 0⟩) ∧ 0 < 1 ∧
    decode (203 : Nat) (fun _ => 0) = .ok (.inp ⟨.relative, 0⟩) := by decide
theorem witness_IllegalWordsRaiseTheirFault_opcode :
    (-1 : Int) < 0 ∧ opcodeShape ((0 : Int).toNat % 100) = none ∧ opcodeShape ((10 : Int).toNat % 100) = none ∧
    opcodeShape ((98 : Int).toNat % 100) = none := by decide
theorem witness_IllegalWordsRaiseTheirFault_mode :
    opcodeShape ((30001 : Int).toNat % 100) = some (3, true) ∧ 1 ≤ 3 ∧ 3 ≤ digit (30001 : Int).toNat (3 + 1) := by decide
theorem witness_IllegalWordsRaiseTheirFault_write :
    opcodeShape ((10001 : Int).toNat % 100) = some (3, true) ∧ 10 ^ (3 + 1) ≤ (10001 : Int).toNat ∧
    digit (10001 : Int).toNat (3 + 1) ≠ 2 ∧ digit (10001 : Int).toNat (1 + 1) ≤ 2 ∧ digit (10001 : Int).toNat (2 + 1) ≤ 2 := by
  decide
theorem witness_IllegalWordsRaiseTheirFault_legal :
    opcodeShape ((1102 : Int).toNat % 100) = some (3, true) ∧ (1102 : Int).toNat < 10 ^ (3 + 1) ∧
    digit (20001 : Int).toNat (3 + 1) = 2 := by decide
theorem witness_ModeDigitsSelectTheModes :
    decode (20001 : Nat) (fun _ => 0) = .ok (.add ⟨.position, 0⟩ ⟨.position, 0⟩ ⟨.relative, 0⟩) ∧
    decode (1107 : Nat) (fun _ => 0) = .ok (.lt ⟨.immediate, 0⟩ ⟨.immediate, 0⟩ ⟨.literal, 0⟩) ∧
    decode (203 : Nat) (fun _ => 0) = .ok (.inp ⟨.relative, 0⟩) := by decide
theorem witness_MemoryReadsAndWritesByCell : Memory.wf [(0, 5), (3, -1)] ∧ (-1 : Int) < 0 ∧
    Memory.read [(0, 5), (3, -1)] 0 = some 5 ∧ ∀ c ∈ ([(0, 5), (3, -1)] : Memory), (c.1 : Int) ≠ 1 := by decide
theorem witness_CanonicalMemoriesAreFunctions :
    Memory.wf [(0, 5)] ∧ ∀ a : Int, Memory.read [(0, 5)] a = Memory.read [(0, 5)] a := ⟨by decide, fun _ => rfl⟩
theorem witness_WritingZeroLeavesNoTrace :
    Memory.wf [(0, 5)] ∧ (0 : Int) ≤ 1 ∧ Memory.read [(0, 5)] 1 = some 0 := by decide

/-- AddStoresTheSum, MulStoresTheProduct and ComparisonsStoreTheirTruth: the target at the lowest address, and operands read in both ways. -/
theorem witness_storing : (boot [1, 0, 0, 0]).cur < (boot [1, 0, 0, 0]).machines.length ∧
    (boot [1, 0, 0, 0]).me.mem.wf ∧ readOperand (boot [1, 0, 0, 0]).me ⟨.position, 0⟩ = some 1 ∧
    readOperand (boot [1, 0, 0, 0]).me ⟨.immediate, -7⟩ = some (-7) ∧
    0 ≤ targetAddr (boot [1, 0, 0, 0]).me ⟨.literal, 0⟩ := by decide
theorem witness_InTakesTheHeadOfItsQueue : (boot [3, 3] [7]).cur < (boot [3, 3] [7]).machines.length ∧
    (boot [3, 3] [7]).me.mem.wf ∧ (boot [3, 3] [7]).inputQueue 0 = [7] ∧
    0 ≤ targetAddr (boot [3, 3] [7]).me ⟨.relative, 0⟩ := by decide
theorem witness_InPollsAnEmptyQueue : (boot [3, 3] [] .polling).me.mem.wf ∧
    (boot [3, 3] [] .polling).inputQueue 0 = [] ∧ (boot [3, 3] [] .polling).disciplineOf 0 = .polling ∧
    (boot [3, 3] [] .polling).params.noDataValue = some (-1) ∧
    0 ≤ targetAddr (boot [3, 3] [] .polling).me ⟨.literal, 0⟩ := by decide
theorem witness_InWaitsOnAnEmptyBlockingQueue : 0 < starved.machines.length ∧ (starved.machine 0).ready = true ∧
    fetch (starved.machine 0) = .ok (.inp ⟨.literal, 0⟩) ∧ starved.inputQueue 0 = [] ∧
    starved.disciplineOf 0 = .blocking ∧ starved.inputOf 0 < starved.queues.length := by decide
theorem witness_InWithNegativeTargetLosesItsInput : targetAddr (boot [3, -1] [4]).me ⟨.literal, -1⟩ < 0 ∧
    (boot [3, -1] [4]).inputQueue 0 = [4] ∧ (boot [3, -1] [] .polling).inputQueue 0 = [] ∧
    (boot [3, -1] [] .polling).disciplineOf 0 = .polling ∧
    (boot [3, -1] [] .polling).params.noDataValue = some (-1) := by decide
theorem witness_OutAppendsToTheWiredQueue : wired.cur < wired.machines.length ∧
    readOperand wired.me ⟨.immediate, 9⟩ = some 9 ∧ wired.outputOf wired.cur = .queue 1 ∧ 1 < wired.queues.length := by
  decide
theorem witness_OutReachesTheHost : readOperand (boot [104, 9]).me ⟨.immediate, 9⟩ = some 9 ∧
    (boot [104, 9]).outputOf 0 = .host := by decide
theorem witness_OutThroughARouterFillsTheOutbox :
    let s := boot [104, 5] [] .blocking (.router router)
    s.cur < s.machines.length ∧ readOperand s.me ⟨.immediate, 5⟩ = some 5 ∧ s.outputOf s.cur = .router router ∧
      routerOnSend router s.me.router 5 = ([1], [(.queue 0, 5), (.host, 6)]) ∧
      (∀ dx ∈ ([(.queue 0, 5), (.host, 6)] : List (Dest × Int)), s.routerMaySend s.cur dx.1 = true) ∧
      s.params.atomicDelivery = false := by decide
theorem witness_OutThroughAnAtomicRouterDeliversAtOnce :
    let t := boot [104, 5] [] .blocking (.router router)
    let s := { t with params := { t.params with atomicDelivery := true } }
    s.cur < s.machines.length ∧ readOperand s.me ⟨.immediate, 5⟩ = some 5 ∧ s.outputOf s.cur = .router router ∧
      routerOnSend router s.me.router 5 = ([1], [(.queue 0, 5), (.host, 6)]) ∧
      (∀ dx ∈ ([(.queue 0, 5), (.host, 6)] : List (Dest × Int)), s.routerMaySend s.cur dx.1 = true) ∧
      s.params.atomicDelivery = true := by decide
theorem witness_JumpsTestAndGo : readOperand (boot [5, 3, 1]).me ⟨.position, 3⟩ = some 0 ∧
    readOperand (boot [5, 3, 1]).me ⟨.relative, 2⟩ = some 1 ∧
    readOperand (boot [5, 3, 1]).me ⟨.immediate, -1⟩ = some (-1) := by decide
theorem witness_ArbAddsToTheRelativeBase : readOperand (bootRb 1 [209, 1, 40]).me ⟨.relative, 1⟩ = some 40 := by decide
theorem witness_HltOnlyHalts : (boot [99]).cur < (boot [99]).machines.length := by decide
theorem witness_NegativeOperandAddressFaults :
    ∃ o ∈ readOps (.jnz ⟨.position, 3⟩ ⟨.position, -1⟩), readOperand (boot [5, 3, -1]).me o = none := by decide
theorem witness_NegativeTargetFaults : readOperand (boot [1, 0, 0, -1]).me ⟨.position, 0⟩ = some 1 ∧
    targetAddr (boot [1, 0, 0, -1]).me ⟨.literal, -1⟩ < 0 := by decide
theorem witness_FetchFaults : ((boot []).setMachine 0 { (boot []).machine 0 with pc := -1 }).me.pc < 0 ∧
    0 ≤ (boot []).me.pc ∧ (boot []).me.mem.read (boot []).me.pc = some 0 := by decide
theorem witness_FaultsArePrecise : (boot [3, -1] [4]).me.status = .running ∧
    ∃ u, runInstruction (boot [3, -1] [4]) = .next u ∧ u.me.status = .faulted .invalidAddress 0 :=
  ⟨by decide, _, rfl, by decide⟩
theorem witness_FaultsArePrecise_notIn : (∀ t, fetch (boot [5, 3, -1]).me ≠ .ok (.inp t)) ∧
    ∃ u, runInstruction (boot [5, 3, -1]) = .next u ∧ u.me.status = .faulted .invalidAddress 0 := by
  refine ⟨fun t h => ?_, _, rfl, by decide⟩
  have : fetch (boot [5, 3, -1]).me = .ok (.jnz ⟨.position, 3⟩ ⟨.position, -1⟩) := by decide
  rw [this] at h
  cases h
theorem witness_StoreIsSeenByTheNextFetch :
    let s := boot [1101, 90, 9, 4]
    s.cur < s.machines.length ∧ s.me.mem.wf ∧ 0 ≤ s.me.pc ∧ readOperand s.me ⟨.immediate, 90⟩ = some 90 ∧
      readOperand s.me ⟨.immediate, 9⟩ = some 9 ∧ targetAddr s.me ⟨.literal, 4⟩ = s.me.pc + 4 ∧
      0 ≤ targetAddr s.me ⟨.literal, 0⟩ := by decide
theorem witness_StoreIsSeenByTheNextFetch_in :
    let s := boot [3, 2] [99]
    let p := boot [3, 2] [] .polling
    (s.cur < s.machines.length ∧ s.me.mem.wf ∧ 0 ≤ s.me.pc ∧ targetAddr s.me ⟨.literal, 2⟩ = s.me.pc + 2 ∧
      s.inputQueue s.cur = [99]) ∧
      p.cur < p.machines.length ∧ p.me.mem.wf ∧ 0 ≤ p.me.pc ∧ 0 ≤ targetAddr p.me ⟨.literal, 2⟩ ∧
      p.inputQueue p.cur = [] ∧ p.disciplineOf p.cur = .polling ∧ p.params.noDataValue = some (-1) := by decide
theorem witness_OpenParametersAndUndeclaredSendsStopByName :
    let t := boot [3, 3] [] .polling (.router router)
    let s := { t with params := { t.params with noDataValue := none, faultPolicy := none } }
    s.inputQueue s.cur = [] ∧ s.disciplineOf s.cur = .polling ∧ s.params.noDataValue = none ∧
      (s.afterFault .unknownOpcode).anyFaulted = true ∧ s.params.faultPolicy = none := by decide
theorem witness_OpenParametersAndUndeclaredSendsStopByName_router :
    let s := construct { machines := [{ prog := [104, 5], output := .router router }], queues := [{}] }
    s.cur < s.machines.length ∧ readOperand s.me ⟨.immediate, 5⟩ = some 5 ∧ s.outputOf s.cur = .router router ∧
      ∃ dx ∈ (routerOnSend router s.me.router 5).2, s.routerMaySend s.cur dx.1 = false := by decide

/-- OnlyArbWritesTheRelativeBase, InstructionTouchesOnlyItsMachine, OnlyInAndOutTouchPorts,
InstructionWritesOnlyItsTarget and PcAdvancesByTheLength: an instruction that answers a next state, and is neither ARB,
nor IN, nor OUT, nor a jump; it stores at 0 and not at 1. -/
theorem witness_frames : (boot [1, 0, 0, 0]).me.status = .running ∧
    (∃ u, exec (.add ⟨.position, 0⟩ ⟨.position, 0⟩ ⟨.literal, 0⟩) (boot [1, 0, 0, 0]) = .next u) ∧
    storeAddr (boot [1, 0, 0, 0]).me (.add ⟨.position, 0⟩ ⟨.position, 0⟩ ⟨.literal, 0⟩) ≠ some 1 :=
  ⟨by decide, ⟨_, rfl⟩, by decide⟩
theorem witness_StepRunsTheDecodedInstruction : (boot [1, 0, 0, 0]).problem = none ∧ runEnd (boot [1, 0, 0, 0]) = none ∧
    (boot [1, 0, 0, 0]).nextEvent = .machine 0 ∧ ((boot [1, 0, 0, 0]).machine 0).status = .running ∧
    ((boot [1, 0, 0, 0]).machine 0).outbox = [] ∧ 0 ≤ ((boot [1, 0, 0, 0]).machine 0).pc ∧
    decode (((boot [1, 0, 0, 0]).machine 0).mem.get ((boot [1, 0, 0, 0]).machine 0).pc.toNat)
      (fun j => ((boot [1, 0, 0, 0]).machine 0).mem.get (((boot [1, 0, 0, 0]).machine 0).pc.toNat + j)) =
        .ok (.add ⟨.position, 0⟩ ⟨.position, 0⟩ ⟨.literal, 0⟩) := by decide
theorem witness_StepEntersTheDecodeFault : (boot []).problem = none ∧ runEnd (boot []) = none ∧
    (boot []).nextEvent = .machine 0 ∧ 0 < (boot []).machines.length ∧ ((boot []).machine 0).status = .running ∧
    ((boot []).machine 0).outbox = [] ∧ fetch ((boot []).machine 0) = .error .unknownOpcode := by decide

/-- Where no machine is Faulted, the invariant's clause on Faulted machines holds. -/
theorem faultPc_of_no_fault {s : State} (hs : ∀ m ∈ s.machines, m.isFaulted = false) :
    ∀ m ∈ s.machines, ∀ k pc, m.status = .faulted k pc → m.pc = pc := by
  intro m hm k pc h
  have := hs m hm
  rw [MachineState.isFaulted, h] at this
  cases this

/-- A state with a halted machine that meets the invariant. -/
theorem pair_inv : pair.Inv where
  configured := by decide
  memories := by decide
  outboxes := by decide
  atomicOutboxes := by decide
  blockingNoData := by decide
  faultPc := faultPc_of_no_fault (by decide)
  abortedAfterFault := by decide
  quiescedIdle := by decide

/-- A machine whose program is empty. -/
theorem empty_inv : (boot []).Inv where
  configured := by decide
  memories := by decide
  outboxes := by decide
  atomicOutboxes := by decide
  blockingNoData := by decide
  faultPc := faultPc_of_no_fault (by decide)
  abortedAfterFault := by decide
  quiescedIdle := by decide

theorem witness_TerminalMachinesNeverChange : pair.Inv ∧ 0 < pair.machines.length ∧
    (pair.machine 0).status ≠ .running ∧ ∃ u, step pair = .next u := ⟨pair_inv, by decide, by decide, _, rfl⟩
theorem witness_EveryStepKeepsTheInvariant : pair.Inv ∧ ∃ u, step pair = .next u := ⟨pair_inv, _, rfl⟩
theorem witness_DeliveryStepsEmptyTheOutboxInOrder : 0 < (delivering .host).machines.length ∧
    ((delivering .host).machine 0).outbox = [(.queue 0, 5), (.host, 6)] := by decide
theorem witness_QueuesAreFifo : (∃ u, step wired = .next u) ∧ wired.nextEvent = .machine 1 ∧ wired.queue 1 = [4] :=
  ⟨⟨_, rfl⟩, by decide, by decide⟩
theorem witness_HostAppendsOnlyWhereItIsAProducer : 0 < pair.queues.length ∧
    Producer.host ∈ (pair.queueParams 0).producers ∧ Producer.host ∉ (pair.queueParams 1).producers := by decide
theorem witness_OnlyInstructionsChangeMachines : (∀ k, (Event.deliver 0) ≠ .machine k) ∧
    ∃ u, stepEvent (.deliver 0) (delivering .host) = .next u := ⟨fun _ h => (by cases h), _, rfl⟩
/-- Two states that differ in another machine, another queue, a latch and the agenda. -/
theorem witness_InstructionDependsOnItsOwnMachine :
    let t := { wired.setMachine 1 { wired.machine 1 with rb := 7 } with quiesced := true, agenda := [.teardown] }
    let u := t.setQueue 1 [8, 8]
    wired.cur < wired.machines.length ∧ u.cur < u.machines.length ∧ wired.cur = u.cur ∧ wired.params = u.params ∧
      wired.queues.length = u.queues.length ∧ wired.me = u.me ∧
      wired.inputQueue wired.cur = u.inputQueue wired.cur ∧ ∃ v, runInstruction wired = .next v :=
  ⟨by decide, by decide, by decide, by decide, by decide, by decide, by decide, _, rfl⟩
theorem witness_WiredMachinesCommute : (0 : Nat) ≠ 1 ∧ wired.inputOf 0 ≠ wired.inputOf 1 ∧
    wired.outputOf 0 = .queue 1 ∧ wired.outputOf 1 = .queue 0 ∧ wired.disciplineOf 0 = .blocking ∧
    wired.disciplineOf 1 = .blocking ∧ wired.machineEnabled 0 = true ∧ wired.machineEnabled 1 = true := by decide

/-- A network of one machine that has polled once. -/
def polled : State := (boot [99] [] .polling).setMachine 0 { (boot [99]).machine 0 with noData := 1 }

theorem witness_QuiescenceIsDetectedExactlyWhenIdle : polled.anyFaulted = false ∧
    ((∀ i < polled.machines.length, polled.disciplineOf i = .polling) ∧
      ∀ i < polled.machines.length, polled.inputQueue i = [] ∧ (polled.machine i).outbox = [] ∧
        polled.routerPendingAt i = false ∧
        ((polled.machine i).status ≠ .running ∨ polled.params.idlePolls ≤ (polled.machine i).noData)) ∧
    (boot [99] [] .polling).anyFaulted = false ∧
    ¬ (boot [99] [] .polling).params.idlePolls ≤ ((boot [99] [] .polling).machine 0).noData := by decide
/-- Under `Isolate`, with a Faulted machine. -/
theorem witness_QuiescenceIsDetectedExactlyWhenIdle_isolate : mixed.anyFaulted = true ∧
    mixed.params.faultPolicy = some .isolate ∧
    ((∀ i < mixed.machines.length, mixed.disciplineOf i = .polling) ∧
      ∀ i < mixed.machines.length, mixed.inputQueue i = [] ∧ (mixed.machine i).outbox = [] ∧
        mixed.routerPendingAt i = false ∧
        ((mixed.machine i).status ≠ .running ∨ mixed.params.idlePolls ≤ (mixed.machine i).noData)) := by decide
theorem witness_QuiescenceEndsTheNetwork :
    let s := { polled with quiesced := true }
    s.problem = none ∧ s.quiesced = true ∧ s.params.onIdle = .terminate ∧ s.aborted = false ∧ s.tornDown = false ∧
      s.anyFaulted = false ∧ ({ s with params := { s.params with onIdle := .report } } : State).problem = none := by decide
theorem witness_QuiescenceEndsTheNetwork_isolate :
    let s := { mixed with quiesced := true }
    s.problem = none ∧ s.quiesced = true ∧ s.params.onIdle = .terminate ∧ s.aborted = false ∧ s.tornDown = false ∧
      s.anyFaulted = true ∧ ∃ i < s.machines.length, (s.machine i).status = .running := by decide
theorem witness_FaultPolicyDecidesTheAbort :
    let s := (boot []).afterFault .unknownOpcode
    s.problem = none ∧ s.anyFaulted = true ∧ s.params.faultPolicy = some .abortAll ∧
      ({ s with params := { s.params with faultPolicy := some .isolate } } : State).problem = none := by decide
theorem witness_TeardownEndsTheRun : mixed.problem = none ∧ mixed.aborted = false ∧
    ∃ i < mixed.machines.length, (mixed.machine i).status = .running := by decide

/-- The starved machine's state meets the invariant. -/
theorem starved_inv : starved.Inv where
  configured := by decide
  memories := by decide
  outboxes := by decide
  atomicOutboxes := by decide
  blockingNoData := by decide
  faultPc := faultPc_of_no_fault (by decide)
  abortedAfterFault := by decide
  quiescedIdle := by decide

theorem witness_DeadlockMeansEveryRunningMachineWaits : starved.Inv ∧ runEnd starved = some .deadlock :=
  ⟨starved_inv, by decide⟩
/-- A machine Faulted under `Isolate`, alone. -/
def isolated : State := starved.afterFault .invalidAddress

theorem witness_EndsMeanWhatTheTableSays :
    runEnd { boot [] with tornDown := true } = some .tornDown ∧
    runEnd { (boot []).afterFault .unknownOpcode with aborted := true } = some .aborted ∧
    runEnd { polled with quiesced := true } = some .quiesced ∧ runEnd isolated = some .faulted ∧
    runEnd ((boot [99]).setMachine 0 { (boot [99]).machine 0 with status := .halted }) = some .allHalted := by decide
theorem witness_EndsMeanWhatTheTableSays_faulted : isolated.aborted = false ∧
    isolated.params.faultPolicy = some .isolate ∧ (∃ m ∈ isolated.machines, ∃ k pc, m.status = .faulted k pc) ∧
    ∀ m ∈ isolated.machines, m.status ≠ .running :=
  ⟨by decide, by decide, ⟨_, List.mem_singleton.2 rfl, _, _, rfl⟩, by decide⟩
theorem witness_AnUnendedRunHasAStep : starved.problem = none ∧ (boot []).problem = none ∧
    runEnd (boot []) = none := by decide
theorem witness_RunReturnsTheMachinesResult :
    runMachine 1 0 (boot [99]) = some (.ok [(0, 99)]) ∧ runMachine 1 0 (boot []) = some (.err .unknownOpcode 0) := by
  decide
/-- A machine that has halted after 0 steps, and one that has faulted after 1. -/
theorem witness_RunReturnsTheMachinesResult_ends : pair.Inv ∧ 0 ≤ 1 ∧
    (∃ u, Host.Core.run Sys2Proof.core 0 pair = .next u ∧ (u.machine 0).status = .halted) ∧ (boot []).Inv ∧ 1 ≤ 1 ∧
    ∃ u, Host.Core.run Sys2Proof.core 1 (boot []) = .next u ∧ (u.machine 0).status = .faulted .unknownOpcode 0 :=
  ⟨pair_inv, by decide, ⟨_, rfl, by decide⟩, empty_inv, by decide, _, rfl, by decide⟩
theorem witness_ConstructionGivesTheResetState :
    (∃ mp, wired.params.machines[1]? = some mp) ∧ ∃ qp, wired.params.queues[1]? = some qp := ⟨⟨_, rfl⟩, _, rfl⟩
theorem witness_BadWiringsAreRefused :
    let s := construct { machines := [{}, {}], queues := [{}] }
    let t := construct { machines := [{}], queues := [{ discipline := .polling }] }
    ((0 : Nat) < 1 ∧ 1 < s.params.machines.length ∧ s.inputOf 0 = s.inputOf 1) ∧
      (t.params.noDataValue = none ∧ ∃ qp ∈ t.params.queues, qp.discipline = .polling) ∧
      t.params.faultPolicy = none := by decide
theorem witness_InvariantHoldsAfterReset : newSystem wired.params = .ok wired := by decide
theorem witness_BadProgramTextIsRefused :
    [' ', '\n'].all isWs = true ∧ isWs ' ' = true ∧ (∃ x ∈ ['1'], isWs x = false) ∧ '1' ≠ ',' ∧ isWs '1' = false ∧
    'x' ∈ ['1', 'x'] ∧ isWs 'x' = false ∧ digitValue 'x' = none ∧ 'x' ≠ '+' ∧ 'x' ≠ '-' ∧ 'x' ≠ ',' :=
  ⟨by decide, by decide, ⟨'1', by simp, by decide⟩, by decide, by decide, by decide, by decide, by decide, by decide,
    by decide, by decide⟩
/-- ProgramTextReadsFieldByField has no hypotheses: what its right side says of ` -10,7`. -/
theorem witness_ProgramTextReadsFieldByField : WrittenProgram [' ', '-', '1', '0', ',', '7'] [-10, 7] :=
  ⟨[' '], [], [['-', '1', '0'], ['7']], by simp, by simp [WrittenWs], by simp [WrittenWs], by decide,
    .cons ⟨['-'], [1, 0], by decide, by decide, by decide, .inr ⟨rfl, by decide⟩⟩
      (.cons ⟨[], [7], by decide, by decide, by decide, .inl ⟨.inl rfl, by decide⟩⟩ .nil)⟩

end Sys2Proof.Tests
end

/-! ### Canonical memories as functions -/

namespace Sys2Proof

/-- A canonical memory lists exactly the cells that do not read as an unwritten one. -/
theorem Memory.mem_iff_get {m : Memory} (h : m.wf) (c : Cell) : c ∈ m ↔ m.get c.1 = c.2 ∧ c.2 ≠ Memory.unwritten := by
  induction m with
  | nil => simpa [Memory.get] using fun e => e.symm
  | cons x rest ih =>
    obtain ⟨b, w⟩ := x
    obtain ⟨a, v⟩ := c
    have ih := ih (Memory.wf_tail h)
    have hw : w ≠ Memory.unwritten := h.2 (b, w) (by simp)
    by_cases hab : a = b
    · subst hab
      have hrest : (a, v) ∉ rest := fun hm => lt_irrefl a (Memory.lt_of_wf_cons h _ hm)
      simp only [List.mem_cons, hrest, or_false, Memory.get, if_true, Prod.mk.injEq, true_and]
      constructor
      · rintro rfl; exact ⟨rfl, hw⟩
      · exact fun hv => hv.1.symm
    · simpa [Memory.get, hab] using ih

/-- Two canonical memories with the same word at every natural address are the same data. -/
theorem Memory.eq_of_get_eq {m m' : Memory} (h : m.wf) (h' : m'.wf) (hget : ∀ a : Nat, m.get a = m'.get a) : m = m' := by
  have hanti : Std.Antisymm (fun x y : Cell => x.1 < y.1) := ⟨fun _ _ hxy hyx => absurd hxy (lt_asymm hyx)⟩
  have hirrefl : Std.Irrefl (fun x y : Cell => x.1 < y.1) := ⟨fun _ => lt_irrefl _⟩
  refine List.Pairwise.eq_of_mem_iff h.1 h'.1 fun c => ?_
  rw [Memory.mem_iff_get h, Memory.mem_iff_get h', hget]

/-- What a loaded program reads as at a natural address (R39). -/
theorem Memory.read_ofProgram (prog : List Int) (a : Nat) :
    (Memory.ofProgram prog).read (a : Int) = some (prog.getD a 0) := by
  rw [Memory.read_of_nonneg (Int.natCast_nonneg a), Memory.ofProgram, Memory.get_load _ _ _ _ Memory.wf_nil]
  by_cases ha : a < prog.length
  · simp [ha]
  · simp [ha, Memory.get, Memory.unwritten]

/-- Settles O8: canonical memories list the same cells where they read the same. -/
theorem canonicalMemoriesAreFunctions : Obligations.CanonicalMemoriesAreFunctions := by
  intro m m' h h' hread
  refine Memory.eq_of_get_eq h h' fun a => ?_
  have ha := hread a
  rw [Memory.read_of_nonneg (Int.natCast_nonneg a), Memory.read_of_nonneg (Int.natCast_nonneg a)] at ha
  simpa using ha

end Sys2Proof

namespace Sys2Proof.Machine

/-! ### What an instruction keeps of the system -/

/-- An instruction keeps everything outside its machine and the ports (R26, R27, R42). -/
theorem exec_othersKept {i : Instr} {s u : State} (h : exec i s = .next u) : OthersKept s u := by
  cases i with
  | add | mul | lt | eq => exact (computeAndStore_frame h).1
  | jnz | jz => exact (jumpIf_frame h).1
  | inp => exact execInp_othersKept h
  | out => exact execOut_othersKept h
  | arb => exact (execArb_frame h).1
  | hlt => cases h; exact OthersKept.setMe _ _

/-- The queues stay as many as they were, and the latch `quiesced` is not set: all that the invariant asks of the
ports. -/
structure PortsSteady (s t : State) : Prop where
  queueCount : t.queues.length = s.queues.length
  quiesced   : s.quiesced = false → t.quiesced = false

theorem PortsKept.steady {s t : State} (h : PortsKept s t) : PortsSteady s t where
  queueCount := by rw [h.queues]
  quiesced hq := by rw [h.quiesced, hq]

theorem PortsSteady.trans {s t u : State} (h : PortsSteady s t) (h' : PortsSteady t u) : PortsSteady s u where
  queueCount := h'.queueCount.trans h.queueCount
  quiesced hq := h'.quiesced (h.quiesced hq)

theorem PortsSteady.setMachine (s : State) (i : Nat) (m : MachineState) : PortsSteady s (s.setMachine i m) := ⟨rfl, id⟩

theorem PortsSteady.setMe (s : State) (m : MachineState) : PortsSteady s (s.setMe m) := PortsSteady.setMachine s s.cur m

theorem PortsSteady.setQueue (s : State) (q : Nat) (vs : List Int) : PortsSteady s (s.setQueue q vs) where
  queueCount := by simp
  quiesced := id

theorem PortsSteady.enqueue (s : State) (q : Nat) (v : Int) : PortsSteady s (s.enqueue q v) where
  queueCount := by simp
  quiesced hq := by simp [hq]

theorem PortsSteady.deliver (s : State) (i : Nat) (d : Dest) (v : Int) : PortsSteady s (s.deliver i d v) := by
  cases d with
  | queue q => exact PortsSteady.enqueue s q v
  | host => exact ⟨rfl, id⟩

theorem PortsSteady.deliverAll (ds : List (Dest × Int)) (i : Nat) (s : State) : PortsSteady s (s.deliverAll i ds) := by
  induction ds generalizing s with
  | nil => exact ⟨rfl, id⟩
  | cons x xs ih => exact (PortsSteady.deliver s i x.1 x.2).trans (ih _)

theorem send_portsSteady {v : Int} {s u : State} (h : send v s = .next u) : PortsSteady s u := by
  rcases send_cases h with ⟨q, _, rfl⟩ | ⟨_, rfl⟩ | ⟨r, _, _, ⟨_, rfl⟩ | ⟨_, rfl⟩⟩
  · exact PortsSteady.enqueue _ _ _
  · exact ⟨rfl, id⟩
  · exact (PortsSteady.setMe _ _).trans (PortsSteady.deliverAll _ _ _)
  · exact PortsSteady.setMe _ _

theorem InTakes.portsSteady {s s' : State} {v : Int} (h : InTakes s v s') : PortsSteady s s' := by
  cases h with
  | value => exact (PortsSteady.setQueue _ _ _).trans (PortsSteady.setMe _ _)
  | poll => exact PortsSteady.setMe _ _

theorem exec_portsSteady {i : Instr} {s u : State} (h : exec i s = .next u) : PortsSteady s u := by
  cases i with
  | add | mul | lt | eq => exact (computeAndStore_frame h).2.steady
  | jnz | jz => exact (jumpIf_frame h).2.steady
  | inp =>
    rcases execInp_cases h with ⟨_, _, rfl⟩ | ⟨v, s', hin, hstore⟩
    · exact ⟨rfl, id⟩
    · exact hin.portsSteady.trans (storeAndAdvance_frame hstore).2.steady
  | out =>
    rcases execOut_cases h with ⟨_, rfl⟩ | ⟨v, s', _, hs, rfl⟩
    · exact PortsSteady.setMe _ _
    · exact ((PortsSteady.setMe _ _).trans (send_portsSteady hs)).trans (PortsSteady.setMe _ _)
  | arb => exact (execArb_frame h).2.steady
  | hlt => cases h; exact PortsSteady.setMe _ _

/-! ### What an instruction leaves of its machine -/

/-- A count of no-data polls that an instruction of machine `s.cur` may leave: only a `Polling` input counts up (R23). -/
def NoDataAfter (s : State) (n : Nat) : Prop := s.disciplineOf s.cur = .blocking → n = s.me.noData ∨ n = 0

/-- Every way in which an instruction that does not wait can leave its machine. -/
inductive MachineAfter (s : State) : Instr → MachineState → Prop
  /-- It enters a fault (R85). IN has received before it does (R84). -/
  | fault {i : Instr} (k : FaultKind) (n : Nat) (hn : NoDataAfter s n) :
      MachineAfter s i { s.me with status := .faulted k s.me.pc, noData := n }
  /-- It stores a word and advances (R61). -/
  | store {i : Instr} (a : Nat) (v : Int) (n : Nat) (hn : NoDataAfter s n) :
      MachineAfter s i { s.me with mem := s.me.mem.set a v, pc := s.me.pc + (i.length : Int), noData := n }
  /-- JNZ or JZ, taken or not (R76, R77). -/
  | jump {i : Instr} (y : Int) (hi : ∃ a b, i = .jnz a b ∨ i = .jz a b) : MachineAfter s i { s.me with pc := y }
  /-- OUT (R75): only without `atomicDelivery` does it fill the outbox (R98). -/
  | out (a : ReadOp) (ρ : RouterState) (ob : List (Dest × Int))
      (hob : s.params.atomicDelivery = true → ob = s.me.outbox) :
      MachineAfter s (.out a) { s.me with pc := s.me.pc + 2, noData := 0, router := ρ, outbox := ob }
  /-- ARB (R81). -/
  | arb (a : ReadOp) (v : Int) : MachineAfter s (.arb a) { s.me with rb := s.me.rb + v, pc := s.me.pc + 2 }
  /-- HLT (R82). -/
  | hlt : MachineAfter s .hlt { s.me with status := .halted }

/-- An instruction that faults before it receives anything. -/
theorem MachineAfter.of_afterFault {s : State} (i : Instr) (k : FaultKind) (hc : s.cur < s.machines.length) :
    MachineAfter s i (s.afterFault k).me := by
  rw [State.me_afterFault _ hc]
  exact .fault k s.me.noData fun _ => .inl rfl

/-- A store whose machine is that of `s` but for a count of no-data polls that IN may leave. -/
theorem MachineAfter.of_store {s s' u : State} {i : Instr} {tgt v : Int} {n : Nat} (hc : s'.cur < s'.machines.length)
    (hme : s'.me = { s.me with noData := n }) (hn : NoDataAfter s n)
    (h : storeAndAdvance tgt v i.length s' = .next u) : MachineAfter s i u.me := by
  rcases storeAndAdvance_cases h with ⟨_, rfl⟩ | ⟨_, rfl⟩
  · rw [State.me_afterFault _ hc, hme]
    exact .fault _ n hn
  · rw [State.me_setMe _ hc, hme]
    exact .store _ _ n hn

theorem computeAndStore_machineAfter {s u : State} {i : Instr} {f : Int → Int → Int} {a b : ReadOp} {t : WriteOp}
    (hlen : i.length = 4) (hc : s.cur < s.machines.length) (h : computeAndStore f a b t s = .next u) :
    MachineAfter s i u.me := by
  rcases withOperands_cases h with ⟨_, rfl⟩ | ⟨x, y, _, _, hstore⟩
  · exact .of_afterFault i _ hc
  · exact .of_store hc (n := s.me.noData) rfl (fun _ => .inl rfl) (hlen ▸ hstore)

theorem jumpIf_machineAfter {s u : State} {i : Instr} {taken : Int → Bool} {a b : ReadOp}
    (hi : ∃ a b, i = .jnz a b ∨ i = .jz a b) (hc : s.cur < s.machines.length) (h : jumpIf taken a b s = .next u) :
    MachineAfter s i u.me := by
  rcases jumpIf_cases h with rfl | ⟨x, y, _, _, rfl⟩
  · exact .of_afterFault i _ hc
  · rw [State.me_setMe _ hc]
    exact .jump _ hi

/-- A receive counts up only at a `Polling` queue. -/
theorem InTakes.noDataAfter {s s' : State} {v : Int} (hc : s.cur < s.machines.length) (h : InTakes s v s') :
    NoDataAfter s s'.me.noData := by
  intro hb
  cases h with
  | value => exact .inr (by rw [State.me_setMe (s := s.setQueue _ _) _ hc])
  | poll _ hp => rw [hp] at hb; cases hb

theorem execInp_machineAfter {s u : State} {t : WriteOp} (hc : s.cur < s.machines.length)
    (h : execInp t s = .next u) : u = s ∨ MachineAfter s (.inp t) u.me := by
  rcases execInp_cases h with ⟨_, _, rfl⟩ | ⟨v, s', hin, hstore⟩
  · exact .inl rfl
  · have hc' : s'.cur < s'.machines.length := by rwa [hin.othersKept.cur, hin.othersKept.count]
    exact .inr (.of_store hc' (hin.me hc) (hin.noDataAfter hc) hstore)

/-- With `atomicDelivery` a send leaves the outbox. -/
theorem send_outbox_of_atomic {v : Int} {s u : State} (hc : s.cur < s.machines.length)
    (hat : s.params.atomicDelivery = true) (h : send v s = .next u) : u.me.outbox = s.me.outbox := by
  rcases send_cases h with ⟨q, _, rfl⟩ | ⟨_, rfl⟩ | ⟨r, _, _, ⟨_, rfl⟩ | ⟨hna, _⟩⟩
  · rfl
  · rfl
  · rw [State.me, State.deliverAll_cur, State.machine_of_machines (State.deliverAll_machines _ _ _), ← State.me,
      State.me_setMe _ hc]
  · rw [hat] at hna; cases hna

theorem execOut_machineAfter {s u : State} {a : ReadOp} (hc : s.cur < s.machines.length)
    (h : execOut a s = .next u) : MachineAfter s (.out a) u.me := by
  rcases execOut_cases h with ⟨_, rfl⟩ | ⟨v, s', _, hs, rfl⟩
  · exact .of_afterFault _ _ hc
  · have hc0 : s.cur < (s.setMe { s.me with noData := 0 }).machines.length := by simpa using hc
    have hk := send_othersKept hs
    have hme := send_me hc0 hs
    have hob := fun hat => send_outbox_of_atomic hc0 hat hs
    rw [State.me_setMe _ hc] at hme hob
    rw [State.me_advancePc _ (by rwa [hk.cur, hk.count]), hme]
    exact .out a _ _ hob

/-- Everything an instruction can leave of its machine: IN may wait, and then nothing has changed. -/
theorem exec_cases {i : Instr} {s u : State} (hc : s.cur < s.machines.length) (h : exec i s = .next u) :
    (∃ t, i = .inp t ∧ u = s) ∨ MachineAfter s i u.me := by
  cases i with
  | add | mul | lt | eq => exact .inr (computeAndStore_machineAfter rfl hc h)
  | jnz a b => exact .inr (jumpIf_machineAfter ⟨a, b, .inl rfl⟩ hc h)
  | jz a b => exact .inr (jumpIf_machineAfter ⟨a, b, .inr rfl⟩ hc h)
  | inp t => exact (execInp_machineAfter hc h).imp_left fun hu => ⟨t, rfl, hu⟩
  | out => exact .inr (execOut_machineAfter hc h)
  | arb a =>
    rcases execArb_cases h with ⟨_, rfl⟩ | ⟨v, _, rfl⟩
    · exact .inr (.of_afterFault _ _ hc)
    · rw [State.me_setMe _ hc]
      exact .inr (.arb a v)
  | hlt =>
    cases h
    rw [State.me_setMe _ hc]
    exact .inr .hlt

/-- An instruction of an index that is no machine's leaves the fresh machine that is read there. -/
theorem exec_me_of_not_lt {i : Instr} {s u : State} (hc : ¬ s.cur < s.machines.length) (h : exec i s = .next u) :
    u.me = s.me := by
  have hk := exec_othersKept h
  rw [State.me, State.me, State.machine_of_not_lt hc, hk.cur, State.machine_of_not_lt (by rwa [hk.count])]

/-- Of all instructions, only ARB leaves another relative base (R18). -/
theorem MachineAfter.rb_eq {s : State} {i : Instr} {m : MachineState} (h : MachineAfter s i m) (hi : ∀ a, i ≠ .arb a) :
    m.rb = s.me.rb := by
  cases h with
  | fault | store | jump | out | hlt => rfl
  | arb a => exact absurd rfl (hi a)

/-- Where no jump is made, the machine advances by the instruction's length or stops where it is (R17, R61). -/
theorem MachineAfter.pc_eq {s : State} {i : Instr} {m : MachineState} (h : MachineAfter s i m)
    (hrun : s.me.status = .running) (hjnz : ∀ a b, i ≠ .jnz a b) (hjz : ∀ a b, i ≠ .jz a b) :
    (m.status = .running ∧ m.pc = s.me.pc + (i.length : Int)) ∨ (m.status ≠ .running ∧ m.pc = s.me.pc) := by
  cases h with
  | fault | hlt => exact .inr ⟨by simp, rfl⟩
  | store | out | arb => exact .inl ⟨hrun, rfl⟩
  | jump _ hi =>
    obtain ⟨a, b, rfl | rfl⟩ := hi
    · exact absurd rfl (hjnz a b)
    · exact absurd rfl (hjz a b)

/-- Settles O32, by the ways in which an instruction leaves its machine. -/
theorem onlyArbWritesTheRelativeBase : Obligations.OnlyArbWritesTheRelativeBase := by
  intro s u i h hi
  by_cases hc : s.cur < s.machines.length
  · rcases exec_cases hc h with ⟨_, _, rfl⟩ | hafter
    · rfl
    · exact hafter.rb_eq hi
  · rw [exec_me_of_not_lt hc h]

/-- Settles O36, by the ways in which an instruction leaves its machine. -/
theorem pcAdvancesByTheLength : Obligations.PcAdvancesByTheLength := by
  intro s u i hc hrun h hjnz hjz
  rcases exec_cases hc h with hwait | hafter
  · exact .inr (.inr hwait)
  · exact (hafter.pc_eq hrun hjnz hjz).imp_right .inl

/-! ### The invariant, machine by machine -/

/-- What the invariant says of one machine, given whether delivery is atomic and its input's discipline. -/
structure MachineState.Sound (atomic : Bool) (d : Discipline) (m : MachineState) : Prop where
  memory : m.mem.wf
  outbox : m.outbox ≠ [] → m.status = .running
  atomicOutbox : atomic = true → m.outbox = []
  blockingNoData : d = .blocking → m.noData = 0
  faultPc : ∀ k pc, m.status = .faulted k pc → m.pc = pc

/-- Machine `i` of a state is sound for that state's parameters. -/
def State.SoundAt (s : State) (i : Nat) : Prop := (s.machine i).Sound s.params.atomicDelivery (s.disciplineOf i)

theorem State.SoundAt.of_eq {s t : State} {i : Nat} (h : s.SoundAt i) (hp : t.params = s.params)
    (hm : t.machine i = s.machine i) : t.SoundAt i := by
  rwa [State.SoundAt, hm, hp, State.disciplineOf_of_params hp]

theorem State.Inv.soundAt {s : State} (h : s.Inv) {i : Nat} (hi : i < s.machines.length) : s.SoundAt i where
  memory := h.memories _ (State.machine_mem hi)
  outbox := h.outboxes _ (State.machine_mem hi)
  atomicOutbox hat := h.atomicOutboxes hat _ (State.machine_mem hi)
  blockingNoData := h.blockingNoData i hi
  faultPc := h.faultPc _ (State.machine_mem hi)

/-- The invariant from its clauses on the system, each machine and the latches. -/
theorem State.Inv.of_soundAt {s : State} (hp : s.problem = none) (hs : ∀ i < s.machines.length, s.SoundAt i)
    (ha : s.aborted = true → s.params.faultPolicy = some .abortAll ∧ s.anyFaulted = true)
    (hq : s.quiesced = true → s.params.onIdle = .terminate →
      s.isNetwork = true ∧ ∀ i < s.machines.length, s.idle i = true) : s.Inv := by
  have hmem : ∀ m ∈ s.machines, ∃ d, m.Sound s.params.atomicDelivery d := by
    intro m hm
    obtain ⟨i, hi, rfl⟩ := State.exists_machine hm
    exact ⟨_, hs i hi⟩
  exact {
    configured := hp
    memories := fun m hm => (hmem m hm).elim fun _ h => h.memory
    outboxes := fun m hm => (hmem m hm).elim fun _ h => h.outbox
    atomicOutboxes := fun hat m hm => (hmem m hm).elim fun _ h => h.atomicOutbox hat
    blockingNoData := fun i hi => (hs i hi).blockingNoData
    faultPc := fun m hm => (hmem m hm).elim fun _ h => h.faultPc
    abortedAfterFault := ha
    quiescedIdle := hq }

/-- A state is accepted where its parameters are and it has their shape. -/
theorem State.problem_eq_none {s : State} (hp : s.params.problem = none)
    (hm : s.machines.length = s.params.machines.length) (hq : s.queues.length = s.params.queues.length)
    (hc : s.cur < s.machines.length) : s.problem = none := by
  simp [State.problem, hp, State.shapeOk, hm, hq, hm ▸ hc]

/-- No latch that ends the run is set. -/
structure State.Live (s : State) : Prop where
  aborted  : s.aborted = false
  quiesced : s.params.onIdle = .terminate → s.quiesced = false

theorem live_of_runEnd {s : State} (h : runEnd s = none) : s.Live := by
  have hs : s.stopped = false := by
    cases hst : s.stopped with
    | false => rfl
    | true => rw [runEnd_stopped hst] at h; cases h
  simp only [State.stopped, Bool.or_eq_false_iff] at hs
  obtain ⟨⟨ha, _⟩, hq⟩ := hs
  exact ⟨ha, fun ht => by simpa [ht] using hq⟩

/-- A change that sets no latch and keeps the shape keeps the invariant where it keeps each machine sound. -/
theorem State.Inv.of_steady {s u : State} (h : s.Inv) (hl : s.Live) (hparams : u.params = s.params)
    (hcount : u.machines.length = s.machines.length) (hcur : u.cur = s.cur) (haborted : u.aborted = s.aborted)
    (hports : PortsSteady s u) (hs : ∀ i < s.machines.length, u.SoundAt i) : u.Inv := by
  obtain ⟨hp, hm, hq, hc⟩ := problem_none h.configured
  refine .of_soundAt ?_ (hcount ▸ hs) ?_ ?_
  · exact State.problem_eq_none (hparams ▸ hp) (by rw [hcount, hm, hparams]) (by rw [hports.queueCount, hq, hparams])
      (by rwa [hcur, hcount])
  · rw [haborted, hl.aborted]
    exact fun ha => by cases ha
  · intro hqu ht
    rw [hports.quiesced (hl.quiesced (hparams ▸ ht))] at hqu
    cases hqu

/-! ### The invariant under each agent's step -/

/-- Fault entry records the machine's `pc`, so a machine with nothing undelivered stays sound (R85). -/
theorem MachineState.Sound.faulted {atomic : Bool} {d : Discipline} {m : MachineState} {n : Nat} (h : m.Sound atomic d)
    (k : FaultKind) (hob : m.outbox = []) (hn : d = .blocking → n = 0) :
    ({ m with status := .faulted k m.pc, noData := n } : MachineState).Sound atomic d where
  memory := h.memory
  outbox hne := absurd hob hne
  atomicOutbox := h.atomicOutbox
  blockingNoData := hn
  faultPc k' pc hk := by cases hk; rfl

/-- An instruction of a ready machine leaves that machine sound. -/
theorem MachineAfter.sound {s : State} {i : Instr} {m : MachineState} (h : MachineAfter s i m) (hs : s.SoundAt s.cur)
    (hrun : s.me.status = .running) (hob : s.me.outbox = []) :
    m.Sound s.params.atomicDelivery (s.disciplineOf s.cur) := by
  have hcount : ∀ {n}, NoDataAfter s n → s.disciplineOf s.cur = .blocking → n = 0 := fun hn hb =>
    (hn hb).elim (fun e => e.trans (hs.blockingNoData hb)) id
  have hnofault : ∀ {x : Int} k pc, s.me.status = .faulted k pc → x = pc := by simp [hrun]
  cases h with
  | fault k n hn => exact hs.faulted k hob (hcount hn)
  | store a v n hn => exact ⟨Memory.set_wf _ _ hs.memory, hs.outbox, hs.atomicOutbox, hcount hn, hnofault⟩
  | jump => exact ⟨hs.memory, hs.outbox, hs.atomicOutbox, hs.blockingNoData, hnofault⟩
  | out a ρ ob h => exact ⟨hs.memory, fun _ => hrun, fun hat => (h hat).trans hob, fun _ => rfl, hnofault⟩
  | arb => exact ⟨hs.memory, hs.outbox, hs.atomicOutbox, hs.blockingNoData, hnofault⟩
  | hlt => exact ⟨hs.memory, fun h => absurd hob h, hs.atomicOutbox, hs.blockingNoData, by simp⟩

/-- What the fetch, the decode and the instruction can do together. -/
theorem runInstruction_cases {s u : State} (h : runInstruction s = .next u) :
    (∃ k, u = s.afterFault k) ∨ ∃ i, exec i s = .next u := by
  unfold runInstruction at h
  split at h
  · cases h; exact .inl ⟨_, rfl⟩
  · exact .inr ⟨_, h⟩

theorem runInstruction_keeps_inv {s u : State} (h : s.Inv) (hl : s.Live) (hready : s.me.ready = true)
    (hstep : runInstruction s = .next u) : u.Inv := by
  obtain ⟨_, _, _, hc⟩ := problem_none h.configured
  obtain ⟨hrun, hob⟩ : s.me.status = .running ∧ s.me.outbox = [] := by simpa [MachineState.ready] using hready
  have hs := h.soundAt hc
  have hkeep : OthersKept s u ∧ PortsSteady s u ∧ u.me.Sound s.params.atomicDelivery (s.disciplineOf s.cur) := by
    rcases runInstruction_cases hstep with ⟨k, rfl⟩ | ⟨i, hx⟩
    · refine ⟨OthersKept.afterFault s k, (PortsKept.afterFault s k).steady, ?_⟩
      rw [State.me_afterFault k hc]
      exact hs.faulted k hob hs.blockingNoData
    · refine ⟨exec_othersKept hx, exec_portsSteady hx, ?_⟩
      rcases exec_cases hc hx with ⟨_, _, rfl⟩ | hafter
      · exact hs
      · exact hafter.sound hs hrun hob
  obtain ⟨hk, hports, hme⟩ := hkeep
  refine h.of_steady hl hk.params hk.count hk.cur hk.aborted hports fun j hj => ?_
  by_cases hjc : j = s.cur
  · rw [State.SoundAt, hk.params, State.disciplineOf_of_params hk.params, hjc]
    rwa [State.me, hk.cur] at hme
  · exact (h.soundAt hj).of_eq hk.params (hk.machines j hjc)

/-- The invariant does not look at the agenda, and at `cur` only as at a machine of the system. -/
theorem State.Inv.of_cur_agenda {s : State} (h : s.Inv) {i : Nat} (hi : i < s.machines.length) (es : List Event) :
    ({ s with cur := i, agenda := es } : State).Inv := by
  obtain ⟨hp, hm, hq, _⟩ := problem_none h.configured
  exact { h with configured := State.problem_eq_none hp hm hq hi }

theorem machineStep_keeps_inv {s u : State} {i : Nat} (h : s.Inv) (hl : s.Live) (hstep : machineStep i s = .next u) :
    u.Inv := by
  rcases machineStep_cases hstep with ⟨hi, hready, hrun⟩ | rfl
  · exact runInstruction_keeps_inv (h.of_cur_agenda hi s.agenda) ⟨hl.aborted, hl.quiesced⟩ hready hrun
  · exact h

theorem deliverStep_keeps_inv {s u : State} {i : Nat} (h : s.Inv) (hl : s.Live) (hstep : deliverStep i s = .next u) :
    u.Inv := by
  rcases deliverStep_cases hstep with rfl | ⟨d, x, rest, hout, rfl⟩
  · exact h
  · have hsteady : PortsSteady s ((s.setMachine i { s.machine i with outbox := rest }).deliver i d x) :=
      (PortsSteady.setMachine s i _).trans (PortsSteady.deliver _ i d x)
    refine h.of_steady hl (by simp) (by simp) (by simp) (by simp) hsteady fun j hj => ?_
    have hs := h.soundAt hj
    by_cases hji : j = i
    · subst hji
      rw [State.SoundAt, State.machine_of_machines (State.deliver_machines _ _ _ _), State.machine_setMachine_self _ hj,
        State.disciplineOf_of_params (s := s) (by simp), State.deliver_params]
      have hrun := hs.outbox (by simp [hout])
      have hrest (hat : s.params.atomicDelivery = true) : rest = [] := by simpa [hout] using hs.atomicOutbox hat
      exact ⟨hs.memory, fun _ => hrun, hrest, hs.blockingNoData, hs.faultPc⟩
    · refine hs.of_eq (by simp) ?_
      rw [State.machine_of_machines (State.deliver_machines _ _ _ _), State.machine_setMachine_ne _ hji]

theorem idle_of_detectEnabled {s : State} (h : s.detectEnabled = true) :
    s.isNetwork = true ∧ ∀ i < s.machines.length, s.idle i = true := by
  simp only [State.detectEnabled, Bool.and_eq_true, List.all_eq_true, List.mem_range] at h
  obtain ⟨⟨hnet, _⟩, hidle⟩ := h
  exact ⟨hnet, hidle⟩

theorem orchestratorStep_keeps_inv {s u : State} (h : s.Inv) (hstep : orchestratorStep s = .next u) : u.Inv := by
  rcases orchestratorStep_cases hstep with ⟨hd, rfl⟩ | ⟨hf, hpolicy, rfl⟩ | rfl
  · have hidle := idle_of_detectEnabled hd
    exact { h with quiescedIdle := fun _ _ => hidle }
  · exact { h with abortedAfterFault := fun _ => ⟨hpolicy, hf⟩ }
  · exact h

theorem hostAppendStep_keeps_inv {s u : State} {q : Nat} {v : Int} (h : s.Inv) (hl : s.Live)
    (hstep : hostAppendStep q v s = .next u) : u.Inv := by
  rcases hostAppendStep_cases hstep with ⟨_, rfl⟩ | rfl
  · exact h.of_steady hl rfl rfl rfl rfl (PortsSteady.enqueue s q v) fun j hj => h.soundAt hj
  · exact h

theorem stepEvent_keeps_inv {s u : State} (e : Event) (h : s.Inv) (hl : s.Live) (hstep : stepEvent e s = .next u) :
    u.Inv := by
  cases e with
  | machine i => exact machineStep_keeps_inv h hl hstep
  | deliver i => exact deliverStep_keeps_inv h hl hstep
  | orchestrator => exact orchestratorStep_keeps_inv h hstep
  | hostAppend q v => exact hostAppendStep_keeps_inv h hl hstep
  | teardown => cases hstep; exact { h with }

/-- Settles O57, agent by agent: a run that has not ended has no latch set that its step could leave false. -/
theorem everyStepKeepsTheInvariant : Obligations.EveryStepKeepsTheInvariant := by
  intro s u h hstep
  obtain ⟨hp, hlive, hevent⟩ := step_cases hstep
  obtain ⟨_, _, _, hc⟩ := problem_none hp
  have hl := live_of_runEnd hlive
  exact stepEvent_keeps_inv _ (h.of_cur_agenda hc s.agenda.tail) ⟨hl.aborted, hl.quiesced⟩ hevent

/-! ### Construction -/

theorem construct_machine {p : Params} {i : Nat} {mp : MachineParams} (h : p.machines[i]? = some mp) :
    (construct p).machine i = constructMachine mp := by
  simp [State.machine, construct, h]

/-- Settles O54. -/
theorem constructionGivesTheResetState : Obligations.ConstructionGivesTheResetState := by
  intro p
  refine ⟨fun i mp h => ?_, fun q qp h => ?_, rfl, rfl, rfl⟩
  · rw [construct_machine h]
    refine ⟨Memory.read_ofProgram mp.prog, rfl, rfl, rfl, rfl, rfl, fun r hr => ?_⟩
    simp [constructMachine, MachineState.fresh, initialRouter, hr]
  · simp [State.queue, construct, h]

/-- A machine after construction is sound under any parameters. -/
theorem constructMachine_sound (atomic : Bool) (d : Discipline) (mp : MachineParams) :
    (constructMachine mp).Sound atomic d where
  memory := Memory.ofProgram_wf mp.prog
  outbox _ := rfl
  atomicOutbox _ := rfl
  blockingNoData _ := rfl
  faultPc k pc h := by cases h

theorem construct_inv {p : Params} (h : p.problem = none) : (construct p).Inv := by
  have hne : p.machines ≠ [] := (params_none h).1
  refine .of_soundAt ?_ (fun i hi => ?_) (fun ha => by cases ha) (fun hq => by cases hq)
  · exact State.problem_eq_none h (List.length_map _) (List.length_map _)
      (by simpa [construct] using List.length_pos_iff.2 hne)
  · have hi : i < p.machines.length := by simpa [construct] using hi
    rw [State.SoundAt, construct_machine (List.getElem?_eq_getElem hi)]
    exact constructMachine_sound _ _ _

theorem newSystem_ok {p : Params} {s : State} (h : newSystem p = .ok s) : p.problem = none ∧ s = construct p := by
  unfold newSystem at h
  split at h
  · cases h
  · rename_i hp; cases h; exact ⟨hp, rfl⟩

theorem reset_eq_construct : State.reset = construct Params.single := by decide

/-- Settles O56. -/
theorem invariantHoldsAfterReset : Obligations.InvariantHoldsAfterReset := by
  refine ⟨reset_eq_construct, ?_, fun p s h => ?_⟩
  · rw [reset_eq_construct]
    exact construct_inv (by decide)
  · obtain ⟨hp, rfl⟩ := newSystem_ok h
    exact construct_inv hp

end Sys2Proof.Machine

/-! ### Memory, cell by cell -/

namespace Sys2Proof

theorem Memory.read_eq_none_iff (m : Memory) (a : Int) : m.read a = none ↔ a < 0 := by
  simp [Memory.read]

/-- An address that a canonical memory does not list reads as an unwritten cell (R31). -/
theorem Memory.get_of_unlisted {m : Memory} {a : Nat} (h : m.wf) (ha : ∀ c ∈ m, c.1 ≠ a) :
    m.get a = Memory.unwritten := by
  by_contra hne
  exact ha _ ((Memory.mem_iff_get h (a, m.get a)).2 ⟨rfl, hne⟩) rfl

/-- Writing what a cell already reads changes nothing. -/
theorem Memory.set_get {m : Memory} (a : Nat) (h : m.wf) : m.set a (m.get a) = m := by
  refine Memory.eq_of_get_eq (Memory.set_wf _ _ h) h fun b => ?_
  rw [Memory.get_set _ _ _ h]
  split
  · next hb => rw [hb]
  · rfl

/-- Of two writes to one cell, the second decides. -/
theorem Memory.set_set {m : Memory} (a : Nat) (v w : Int) (h : m.wf) : (m.set a v).set a w = m.set a w := by
  have hv : (m.set a v).wf := Memory.set_wf _ _ h
  refine Memory.eq_of_get_eq (Memory.set_wf _ _ hv) (Memory.set_wf _ _ h) fun b => ?_
  rw [Memory.get_set _ _ _ hv, Memory.get_set _ _ _ h, Memory.get_set _ _ _ h]
  split <;> rfl

/-- Settles O7: the cell laws of `get` and `set`, at natural addresses. -/
theorem memoryReadsAndWritesByCell : Obligations.MemoryReadsAndWritesByCell := by
  intro m a v h
  refine ⟨Memory.read_eq_none_iff m a, fun ha hun => ?_, Memory.write_of_neg, fun ha => ?_⟩
  · have hget : m.get a.toNat = Memory.unwritten := Memory.get_of_unlisted h fun c hc => by have := hun c hc; omega
    rw [Memory.read_of_nonneg ha, hget, Memory.unwritten]
  · exact ⟨_, Memory.write_of_nonneg ha, Machine.storesWord_set v ha h, Memory.set_wf _ _ h⟩

/-- Settles O9: the canonical form lists no cell that holds 0, so a 0 written back restores the data. -/
theorem writingZeroLeavesNoTrace : Obligations.WritingZeroLeavesNoTrace := by
  intro m a v h ha hread
  have hget : m.get a.toNat = 0 := by simpa [Memory.read_of_nonneg ha] using hread
  have hzero : m.set a.toNat 0 = m := by simpa [hget] using Memory.set_get a.toNat h
  refine ⟨by rw [Memory.write_of_nonneg ha, hzero], fun m' hw => ?_⟩
  rw [Memory.write_of_nonneg ha] at hw
  cases hw
  rw [Memory.write_of_nonneg ha, Memory.set_set _ _ _ h, hzero]

/-- Settles O10. -/
theorem loadingCopiesTheProgram : Obligations.LoadingCopiesTheProgram :=
  fun prog => ⟨Memory.ofProgram_wf prog, Memory.read_ofProgram prog⟩

end Sys2Proof

namespace Sys2Proof.Machine

/-! ### What an instruction leaves alone -/

/-- Settles O33. -/
theorem instructionTouchesOnlyItsMachine : Obligations.InstructionTouchesOnlyItsMachine :=
  fun _ _ _ h => exec_othersKept h

/-- An instruction that is neither IN nor OUT changes at most the memory, `pc`, `rb` and status of its machine (R38). -/
theorem exec_eq_setMe {i : Instr} {s u : State} (h : exec i s = .next u) (hin : ∀ t, i ≠ .inp t)
    (hout : ∀ a, i ≠ .out a) :
    ∃ mem pc rb status, u = s.setMe { s.me with mem := mem, pc := pc, rb := rb, status := status } := by
  cases i with
  | add | mul | lt | eq =>
    rcases computeAndStore_cases h with rfl | ⟨_, _, _, _, _, rfl⟩ <;> exact ⟨_, _, _, _, rfl⟩
  | jnz | jz =>
    rcases jumpIf_cases h with rfl | ⟨_, _, _, _, rfl⟩ <;> exact ⟨_, _, _, _, rfl⟩
  | arb =>
    rcases execArb_cases h with ⟨_, rfl⟩ | ⟨_, _, rfl⟩ <;> exact ⟨_, _, _, _, rfl⟩
  | hlt => cases h; exact ⟨_, _, _, _, rfl⟩
  | inp t => exact absurd rfl (hin t)
  | out a => exact absurd rfl (hout a)

/-- A field of the machine that an update keeps is kept, also where `cur` is no machine's index. -/
theorem State.me_setMe_field {α : Type} (f : MachineState → α) {s : State} {m : MachineState} (h : f m = f s.me) :
    f (s.setMe m).me = f s.me := by
  by_cases hc : s.cur < s.machines.length
  · rw [State.me_setMe _ hc, h]
  · rw [State.setMe_of_not_lt hc]

/-- Settles O34: such an instruction is an update of its machine's other fields. -/
theorem onlyInAndOutTouchPorts : Obligations.OnlyInAndOutTouchPorts := by
  intro s u i h hin hout
  obtain ⟨mem, pc, rb, status, rfl⟩ := exec_eq_setMe h hin hout
  exact ⟨PortsKept.setMe s _, State.me_setMe_field (·.noData) rfl, State.me_setMe_field (·.outbox) rfl,
    State.me_setMe_field (·.router) rfl⟩

/-! ### The one cell an instruction writes -/

/-- The memory `m'` is `m`, or `m` after a write at the address `a`, where there is one. -/
def WritesAtMost (a : Option Int) (m m' : Memory) : Prop := m' = m ∨ ∃ tgt v, a = some tgt ∧ m.write tgt v = some m'

theorem WritesAtMost.read_eq {a : Option Int} {m m' : Memory} (h : WritesAtMost a m m') {b : Int} (hb : a ≠ some b) :
    m'.read b = m.read b := by
  rcases h with rfl | ⟨tgt, v, rfl, hw⟩
  · rfl
  · exact Memory.read_write_ne hw fun e => hb (by rw [e])

/-- An update of the machine that keeps its memory. -/
theorem WritesAtMost.setMe {s : State} {m : MachineState} (a : Option Int) (h : m.mem = s.me.mem) :
    WritesAtMost a s.me.mem (s.setMe m).me.mem := .inl (State.me_setMe_field (·.mem) h)

theorem storeAndAdvance_writesAtMost {tgt v : Int} {len : Nat} {s u : State}
    (h : storeAndAdvance tgt v len s = .next u) : WritesAtMost (some tgt) s.me.mem u.me.mem := by
  rcases storeAndAdvance_cases h with ⟨_, rfl⟩ | ⟨ht, rfl⟩
  · exact .setMe _ rfl
  · by_cases hc : s.cur < s.machines.length
    · rw [State.me_setMe _ hc]
      exact .inr ⟨tgt, v, rfl, Memory.write_of_nonneg ht⟩
    · rw [State.setMe_of_not_lt hc]
      exact .inl rfl

theorem computeAndStore_writesAtMost {f : Int → Int → Int} {a b : ReadOp} {t : WriteOp} {s u : State}
    (h : computeAndStore f a b t s = .next u) : WritesAtMost (some (targetAddr s.me t)) s.me.mem u.me.mem := by
  rcases withOperands_cases h with ⟨_, rfl⟩ | ⟨_, _, _, _, hstore⟩
  · exact .setMe _ rfl
  · exact storeAndAdvance_writesAtMost hstore

/-- A receive leaves the machine's memory. -/
theorem InTakes.mem {s s' : State} {v : Int} (h : InTakes s v s') : s'.me.mem = s.me.mem := by
  cases h with
  | value => exact State.me_setMe_field (s := s.setQueue _ _) (·.mem) rfl
  | poll => exact State.me_setMe_field (·.mem) rfl

theorem execInp_writesAtMost {t : WriteOp} {s u : State} (h : execInp t s = .next u) :
    WritesAtMost (some (targetAddr s.me t)) s.me.mem u.me.mem := by
  rcases execInp_cases h with ⟨_, _, rfl⟩ | ⟨v, s', hin, hstore⟩
  · exact .inl rfl
  · rw [← hin.mem]
    exact storeAndAdvance_writesAtMost hstore

theorem send_mem {v : Int} {s u : State} (hc : s.cur < s.machines.length) (h : send v s = .next u) :
    u.me.mem = s.me.mem := by
  rw [send_me hc h]

/-- OUT stores nothing. -/
theorem execOut_mem {a : ReadOp} {s u : State} (hc : s.cur < s.machines.length) (h : execOut a s = .next u) :
    u.me.mem = s.me.mem := by
  rcases execOut_cases h with ⟨_, rfl⟩ | ⟨v, s', _, hs, rfl⟩
  · exact State.me_setMe_field (·.mem) rfl
  · have hc0 : s.cur < (s.setMe { s.me with noData := 0 }).machines.length := by simpa using hc
    calc (s'.advancePc 2).me.mem = s'.me.mem := State.me_setMe_field (·.mem) rfl
      _ = (s.setMe { s.me with noData := 0 }).me.mem := send_mem hc0 hs
      _ = s.me.mem := State.me_setMe_field (·.mem) rfl

/-- Every instruction writes at most at the address of its write operand (R37). -/
theorem exec_writesAtMost {i : Instr} {s u : State} (h : exec i s = .next u) :
    WritesAtMost (storeAddr s.me i) s.me.mem u.me.mem := by
  cases i with
  | add | mul | lt | eq => exact computeAndStore_writesAtMost h
  | inp => exact execInp_writesAtMost h
  | out =>
    by_cases hc : s.cur < s.machines.length
    · exact .inl (execOut_mem hc h)
    · exact .inl (by rw [exec_me_of_not_lt hc h])
  | jnz | jz =>
    rcases jumpIf_cases h with rfl | ⟨_, _, _, _, rfl⟩ <;> exact .setMe _ rfl
  | arb =>
    rcases execArb_cases h with ⟨_, rfl⟩ | ⟨_, _, rfl⟩ <;> exact .setMe _ rfl
  | hlt => cases h; exact .setMe _ rfl

/-- Settles O35. -/
theorem instructionWritesOnlyItsTarget : Obligations.InstructionWritesOnlyItsTarget :=
  fun _ _ _ h _ hb => (exec_writesAtMost h).read_eq hb

/-! ### A store and the next fetch -/

/-- A store that follows a receive or nothing is seen by the machine's next fetch (R48). -/
theorem storeAndAdvance_fetchSeesStore {s s' : State} {tgt : Int} (v : Int) (len : Nat) (hm : s.me.mem.wf)
    (hp : 0 ≤ s.me.pc) (ht : 0 ≤ tgt) (hc' : s'.cur < s'.machines.length) (hmem : s'.me.mem = s.me.mem)
    (hpc : s'.me.pc = s.me.pc) :
    ∃ u, storeAndAdvance tgt v len s' = .next u ∧ FetchSeesStore s u tgt v len :=
  ⟨_, storeAndAdvance_of_nonneg ht, fetchSeesStore_of_set hm hp ht hc' (by rw [hmem]) (by rw [hpc])⟩

theorem computeAndStore_fetchSeesStore (f : Int → Int → Int) {a b : ReadOp} {t : WriteOp} {s : State} {x y : Int}
    (hc : s.cur < s.machines.length) (hm : s.me.mem.wf) (hp : 0 ≤ s.me.pc) (ha : readOperand s.me a = some x)
    (hb : readOperand s.me b = some y) (ht : 0 ≤ targetAddr s.me t) :
    ∃ u, computeAndStore f a b t s = .next u ∧ FetchSeesStore s u (targetAddr s.me t) (f x y) 4 := by
  rw [computeAndStore, withOperands_some _ ha hb]
  exact storeAndAdvance_fetchSeesStore _ 4 hm hp ht hc rfl rfl

theorem InTakes.fetchSeesStore {s s' : State} {v tgt : Int} (h : InTakes s v s') (hc : s.cur < s.machines.length)
    (hm : s.me.mem.wf) (hp : 0 ≤ s.me.pc) (ht : 0 ≤ tgt) :
    ∃ u, storeAndAdvance tgt v 2 s' = .next u ∧ FetchSeesStore s u tgt v 2 := by
  have hc' : s'.cur < s'.machines.length := by rwa [h.othersKept.cur, h.othersKept.count]
  exact storeAndAdvance_fetchSeesStore v 2 hm hp ht hc' h.mem (by rw [h.me hc])

theorem truthWord_decide (p : Prop) [Decidable p] : truthWord (decide p) = if p then 1 else 0 := by
  simp [truthWord]

/-- Settles O30: each storing instruction ends in a store by its own machine, whose memory the next fetch reads. -/
theorem storeIsSeenByTheNextFetch : Obligations.StoreIsSeenByTheNextFetch := by
  refine ⟨fun s a b t x y hc hm hp ha hb ht => ?_, fun s t hc hm hp ht => ⟨fun v vs hq => ?_, fun d hq hpoll hd => ?_⟩⟩
  · have hstores (f : Int → Int → Int) := computeAndStore_fetchSeesStore f hc hm hp ha hb ht
    rw [← truthWord_decide (x < y), ← truthWord_decide (x = y)]
    exact ⟨hstores _, hstores _, hstores _, hstores _⟩
  · rw [exec, execInp_value hq]
    exact (InTakes.value hq).fetchSeesStore hc hm hp ht
  · rw [exec, execInp_poll hq hpoll hd]
    exact (InTakes.poll hq hpoll hd).fetchSeesStore hc hm hp ht

/-! ### Agents other than the machine's own instruction -/

/-- The machines of `t` are those of `s` but for their outboxes. -/
structure SameButOutboxes (s t : State) : Prop where
  machine (i : Nat) : t.machine i = { s.machine i with outbox := (t.machine i).outbox }
  count : t.machines.length = s.machines.length

theorem SameButOutboxes.refl (s : State) : SameButOutboxes s s := ⟨fun _ => rfl, rfl⟩

theorem SameButOutboxes.of_machines_eq {s t u : State} (h : SameButOutboxes s t) (hm : u.machines = t.machines) :
    SameButOutboxes s u where
  machine i := by rw [State.machine_of_machines hm]; exact h.machine i
  count := by rw [hm, h.count]

/-- A change of one machine's outbox. -/
theorem SameButOutboxes.setMachine_outbox (s : State) (i : Nat) (ob : List (Dest × Int)) :
    SameButOutboxes s (s.setMachine i { s.machine i with outbox := ob }) := by
  refine ⟨fun j => ?_, by simp⟩
  by_cases hj : j = i
  · subst hj
    by_cases hlt : j < s.machines.length
    · rw [State.machine_setMachine_self _ hlt]
    · rw [State.machine_of_not_lt hlt, State.machine_of_not_lt (by simpa using hlt)]
  · rw [State.machine_setMachine_ne _ hj]

theorem deliverStep_sameButOutboxes {s u : State} {i : Nat} (h : deliverStep i s = .next u) : SameButOutboxes s u := by
  rcases deliverStep_cases h with rfl | ⟨d, x, rest, _, rfl⟩
  · exact .refl _
  · exact (SameButOutboxes.setMachine_outbox s i rest).of_machines_eq (State.deliver_machines _ _ _ _)

theorem orchestratorStep_machines {s u : State} (h : orchestratorStep s = .next u) : u.machines = s.machines := by
  rcases orchestratorStep_cases h with ⟨_, rfl⟩ | ⟨_, _, rfl⟩ | rfl <;> rfl

theorem hostAppendStep_machines {s u : State} {q : Nat} {v : Int} (h : hostAppendStep q v s = .next u) :
    u.machines = s.machines := by
  rcases hostAppendStep_cases h with ⟨_, rfl⟩ | rfl <;> rfl

theorem stepEvent_sameButOutboxes {s u : State} {e : Event} (he : ∀ k, e ≠ .machine k) (h : stepEvent e s = .next u) :
    SameButOutboxes s u := by
  cases e with
  | machine k => exact absurd rfl (he k)
  | deliver => exact deliverStep_sameButOutboxes h
  | orchestrator => exact (SameButOutboxes.refl s).of_machines_eq (orchestratorStep_machines h)
  | hostAppend => exact (SameButOutboxes.refl s).of_machines_eq (hostAppendStep_machines h)
  | teardown => cases h; exact (SameButOutboxes.refl s).of_machines_eq rfl

/-- Settles O43, agent by agent. -/
theorem onlyInstructionsChangeMachines : Obligations.OnlyInstructionsChangeMachines := by
  intro s u e i he h
  have hsame := stepEvent_sameButOutboxes he h
  exact ⟨hsame.machine i, hsame.count⟩

end Sys2Proof.Machine

/-! ### Which words decode, and to what -/

namespace Sys2Proof

open Machine (readOps opcodeShape)

/-! #### The decimal digits of an instruction word -/

/-- A digit below `10 ^ m` does not see what is added in multiples of `10 ^ m`. -/
theorem digit_add_mul_pow (w k : Nat) {j m : Nat} (h : j < m) : digit (w + k * 10 ^ m) j = digit w j := by
  obtain ⟨d, rfl⟩ := Nat.exists_eq_add_of_lt h
  have hpow : w + k * 10 ^ (j + d + 1) = w + k * 10 ^ d * 10 * 10 ^ j := by ring
  rw [digit, hpow, Nat.add_mul_div_right _ _ (by positivity), Nat.add_mul_mod_self_right, digit]

theorem digit_shift (w k : Nat) : (fun j => digit w (j + k)) ∘ Nat.succ = fun j => digit w (j + (k + 1)) := by
  funext j
  exact congrArg (digit w) (Nat.succ_add_eq_add_succ j k)

/-- The digits of a word from position `k` on, weighed, with what stands below them. -/
theorem mod_pow_eq_modeSum (w n k : Nat) :
    w % 10 ^ (k + n) = w % 10 ^ k + modeSum k ((List.range n).map fun j => digit w (j + k)) := by
  induction n generalizing k with
  | zero => rfl
  | succ n ih =>
    have hexp : k + (n + 1) = k + 1 + n := by omega
    rw [hexp, ih, Nat.mod_pow_succ, List.range_succ_eq_map, List.map_cons, List.map_map, digit_shift, modeSum,
      digit, Nat.zero_add, Nat.mul_comm (10 ^ k), Nat.add_assoc]

theorem pow_dvd_modeSum (k : Nat) (ds : List Nat) : 10 ^ k ∣ modeSum k ds := by
  induction ds generalizing k with
  | nil => exact dvd_zero _
  | cons d ds ih => exact dvd_add (dvd_mul_left _ _) ((pow_dvd_pow 10 k.le_succ).trans (ih (k + 1)))

/-- Weighing digits from position `k` on, above a lower part, puts each at its position. -/
theorem digits_add_modeSum {low k : Nat} {ds : List Nat} (hlow : low < 10 ^ k) (hds : ∀ d ∈ ds, d < 10) :
    (List.range ds.length).map (fun j => digit (low + modeSum k ds) (j + k)) = ds := by
  induction ds generalizing low k with
  | nil => rfl
  | cons d ds ih =>
    have hd : d < 10 := hds d (by simp)
    have hlow' : low + d * 10 ^ k < 10 ^ (k + 1) := by
      rw [pow_succ]; nlinarith
    have hsum : low + modeSum k (d :: ds) = low + d * 10 ^ k + modeSum (k + 1) ds := by rw [modeSum]; ring
    have hhead : digit (low + modeSum k (d :: ds)) k = d := by
      obtain ⟨x, hx⟩ := pow_dvd_modeSum (k + 1) ds
      have hw : low + modeSum k (d :: ds) = low + (d + x * 10) * 10 ^ k := by rw [hsum, hx]; ring
      rw [digit, hw, Nat.add_mul_div_right _ _ (by positivity), Nat.div_eq_of_lt hlow]
      omega
    have htail := ih hlow' fun x hx => hds x (by simp [hx])
    rw [List.length_cons, List.range_succ_eq_map, List.map_cons, List.map_map, Nat.zero_add, hhead, digit_shift, hsum,
      htail]

/-! #### The operands of an instruction, read operands first -/

/-- The write-role operand of an instruction, where it has one: always its last (R51). -/
def Instr.writeOp : Instr → Option WriteOp
  | .add _ _ t | .mul _ _ t | .lt _ _ t | .eq _ _ t | .inp t => some t
  | .out _ | .jnz _ _ | .jz _ _ | .arb _ | .hlt => none

theorem Instr.modeDigits_eq (i : Instr) :
    i.modeDigits = (readOps i).map (·.mode.digit) ++ i.writeOp.toList.map (·.mode.digit) := by
  cases i <;> rfl

theorem Instr.params_eq (i : Instr) : i.params = (readOps i).map (·.word) ++ i.writeOp.toList.map (·.word) := by
  cases i <;> rfl

theorem opcodeShape_opcode (i : Instr) : opcodeShape i.opcode = some (i.params.length, i.writeOp.isSome) := by
  cases i <;> rfl

theorem ReadMode.digit_le (m : ReadMode) : m.digit ≤ 2 := by cases m <;> decide

theorem WriteMode.digit_le (m : WriteMode) : m.digit ≤ 2 := by cases m <;> decide

theorem WriteMode.digit_eq_zero_iff (m : WriteMode) : m.digit = 0 ↔ m = .literal := by cases m <;> decide

theorem Instr.modeDigits_le (i : Instr) : ∀ d ∈ i.modeDigits, d ≤ 2 := by
  intro d hd
  rw [i.modeDigits_eq, List.mem_append, List.mem_map, List.mem_map] at hd
  rcases hd with ⟨o, _, rfl⟩ | ⟨t, _, rfl⟩
  · exact o.mode.digit_le
  · exact t.mode.digit_le

theorem Instr.params_length_of_writeOp {i : Instr} {t : WriteOp} (h : i.writeOp = some t) :
    i.params.length = (readOps i).length + 1 := by
  simp [i.params_eq, h]

/-- The shape of every instruction's encoding, from the lemma for each constructor. -/
theorem encodedHead (i : Instr) : Laws.EncodedHead.Statement i := by
  cases i with
  | add a b t => exact Laws.EncodedHead.add a b t
  | mul a b t => exact Laws.EncodedHead.mul a b t
  | inp t => exact Laws.EncodedHead.inp t
  | out a => exact Laws.EncodedHead.out a
  | jnz a b => exact Laws.EncodedHead.jnz a b
  | jz a b => exact Laws.EncodedHead.jz a b
  | lt a b t => exact Laws.EncodedHead.lt a b t
  | eq a b t => exact Laws.EncodedHead.eq a b t
  | arb a => exact Laws.EncodedHead.arb a
  | hlt => exact Laws.EncodedHead.hlt

/-! #### What a word that decodes looks like -/

/-- The instruction `i` is what the word `w` and the parameter words `p` say (R50, R54 to R57): its opcode, its mode
digits and its parameter words stand there, and its write operand is the literal where `w` ends below that digit. -/
structure Instr.WrittenBy (w : Nat) (p : Nat → Int) (i : Instr) : Prop where
  opcode : w % 100 = i.opcode
  modes  : i.modeDigits = (List.range i.params.length).map fun k => digit w (k + 2)
  write  : ∀ t, i.writeOp = some t → (t.mode = .literal ↔ w < 10 ^ ((readOps i).length + 2))
  params : i.params = (List.range i.params.length).map fun k => p (k + 1)

/-- A write digit and its absence, as `Instr.WrittenBy` says them. -/
theorem decodeWriteMode_ok_iff (w i : Nat) (m : WriteMode) :
    decodeWriteMode w i = .ok m ↔ m.digit = digit w (i + 1) ∧ (m = .literal ↔ w < 10 ^ (i + 1)) := by
  have habsent (h : w < 10 ^ (i + 1)) : digit w (i + 1) = 0 := by simp [digit, Nat.div_eq_of_lt h]
  rw [decodeWriteMode_ok]
  cases m with
  | literal => simpa [WriteMode.digit] using fun h => (habsent h).symm
  | relative => simp [WriteMode.digit, and_comm, eq_comm]

/-- What the decoder reads, the word says: format by format (R51). -/
theorem writtenBy_of_decodesTo {w : Nat} {p : Nat → Int} {i : Instr} (h : DecodesTo w p i) : i.WrittenBy w p := by
  cases h with
  | add ho d | mul ho d | lt ho d | eq ho d =>
    obtain ⟨m1, m2, m3, h1, h2, h3, rfl⟩ := decodeRRW_ok.1 d
    rw [decodeReadMode_digit] at h1 h2
    rw [decodeWriteMode_ok_iff] at h3
    refine ⟨ho, ?_, by rintro _ ⟨⟩; exact h3.2, rfl⟩
    simp [Instr.modeDigits, Instr.params, List.range_succ, h1, h2, h3.1]
  | jnz ho d | jz ho d =>
    obtain ⟨m1, m2, h1, h2, rfl⟩ := decodeRR_ok.1 d
    rw [decodeReadMode_digit] at h1 h2
    refine ⟨ho, ?_, by rintro _ ⟨⟩, rfl⟩
    simp [Instr.modeDigits, Instr.params, List.range_succ, h1, h2]
  | out ho d | arb ho d =>
    obtain ⟨m1, h1, rfl⟩ := decodeR_ok.1 d
    rw [decodeReadMode_digit] at h1
    refine ⟨ho, ?_, by rintro _ ⟨⟩, rfl⟩
    simp [Instr.modeDigits, Instr.params, h1]
  | inp ho d =>
    obtain ⟨m1, h1, rfl⟩ := decodeW_ok.1 d
    rw [decodeWriteMode_ok_iff] at h1
    refine ⟨ho, ?_, by rintro _ ⟨⟩; exact h1.2, rfl⟩
    simp [Instr.modeDigits, Instr.params, h1.1]
  | hlt ho => exact ⟨ho, rfl, by rintro _ ⟨⟩, rfl⟩

/-- What the word says, the decoder reads: format by format (R51). -/
theorem decode_of_writtenBy {w : Nat} {p : Nat → Int} {i : Instr} (h : i.WrittenBy w p) :
    decode (w : Int) p = .ok i := by
  obtain ⟨hop, hmodes, hwrite, hparams⟩ := h
  rw [decode_natCast, hop]
  cases i with
  | add a b t | mul a b t | lt a b t | eq a b t =>
    obtain ⟨da, db, dt⟩ : a.mode.digit = digit w 2 ∧ b.mode.digit = digit w 3 ∧ t.mode.digit = digit w 4 := by
      simpa [Instr.modeDigits, Instr.params, List.range_succ] using hmodes
    obtain ⟨wa, wb, wt⟩ : a.word = p 1 ∧ b.word = p 2 ∧ t.word = p 3 := by
      simpa [Instr.params, List.range_succ] using hparams
    refine decodeRRW_ok.2 ⟨a.mode, b.mode, t.mode, ?_, ?_, ?_, by rw [← wa, ← wb, ← wt]⟩
    · rw [decodeReadMode_digit, da]
    · rw [decodeReadMode_digit, db]
    · exact (decodeWriteMode_ok_iff w 3 _).2 ⟨dt, hwrite t rfl⟩
  | jnz a b | jz a b =>
    obtain ⟨da, db⟩ : a.mode.digit = digit w 2 ∧ b.mode.digit = digit w 3 := by
      simpa [Instr.modeDigits, Instr.params, List.range_succ] using hmodes
    obtain ⟨wa, wb⟩ : a.word = p 1 ∧ b.word = p 2 := by simpa [Instr.params, List.range_succ] using hparams
    refine decodeRR_ok.2 ⟨a.mode, b.mode, ?_, ?_, by rw [← wa, ← wb]⟩
    · rw [decodeReadMode_digit, da]
    · rw [decodeReadMode_digit, db]
  | out a | arb a =>
    have da : a.mode.digit = digit w 2 := by simpa [Instr.modeDigits, Instr.params] using hmodes
    have wa : a.word = p 1 := by simpa [Instr.params] using hparams
    exact decodeR_ok.2 ⟨a.mode, by rw [decodeReadMode_digit, da], by rw [← wa]⟩
  | inp t =>
    have dt : t.mode.digit = digit w 2 := by simpa [Instr.modeDigits, Instr.params] using hmodes
    have wt : t.word = p 1 := by simpa [Instr.params] using hparams
    exact decodeW_ok.2 ⟨t.mode, (decodeWriteMode_ok_iff w 1 _).2 ⟨dt, hwrite t rfl⟩, by rw [← wt]⟩
  | hlt => rfl

/-- The decoder reads `i` from exactly the words that say `i`. -/
theorem decode_ok_iff {w : Nat} {p : Nat → Int} {i : Instr} : decode (w : Int) p = .ok i ↔ i.WrittenBy w p :=
  ⟨fun h => writtenBy_of_decodesTo (decode_ok_natCast h), decode_of_writtenBy⟩

/-- The mode digit and the parameter word of operand `k` stand at its place. -/
theorem Instr.WrittenBy.getElem? {w : Nat} {p : Nat → Int} {i : Instr} (h : i.WrittenBy w p) {k d : Nat} {v : Int}
    (hd : i.modeDigits[k]? = some d) (hv : i.params[k]? = some v) : digit w (k + 2) = d ∧ v = p (k + 1) := by
  have hk : k < i.params.length := (List.getElem?_eq_some_iff.1 hv).1
  rw [h.modes] at hd
  rw [h.params] at hv
  exact ⟨by simpa [hk] using hd, by simpa [hk, eq_comm] using hv⟩

theorem Instr.WrittenBy.readOp {w : Nat} {p : Nat → Int} {i : Instr} (h : i.WrittenBy w p) {k : Nat} {o : ReadOp}
    (ho : (readOps i)[k]? = some o) : digit w (k + 2) = o.mode.digit ∧ o.word = p (k + 1) := by
  obtain ⟨hk, rfl⟩ := List.getElem?_eq_some_iff.1 ho
  exact h.getElem? (by simp [i.modeDigits_eq, List.getElem?_append, hk]) (by simp [i.params_eq, List.getElem?_append, hk])

/-- The write operand comes after the read operands. -/
theorem Instr.WrittenBy.writeOp {w : Nat} {p : Nat → Int} {i : Instr} (h : i.WrittenBy w p) {t : WriteOp}
    (ht : i.writeOp = some t) :
    digit w ((readOps i).length + 2) = t.mode.digit ∧ t.word = p ((readOps i).length + 1) :=
  h.getElem? (by simp [i.modeDigits_eq, ht]) (by simp [i.params_eq, ht])

/-- A word that decodes, seen as the number it is. -/
theorem writtenBy_of_decode {w : Int} {p : Nat → Int} {i : Instr} (h : decode w p = .ok i) :
    0 ≤ w ∧ i.WrittenBy w.toNat p := by
  have hw := nonneg_of_decode_ok h
  rw [← Int.toNat_of_nonneg hw] at h
  exact ⟨hw, decode_ok_iff.1 h⟩

theorem Instr.WrittenBy.digit_le {w : Nat} {p : Nat → Int} {i : Instr} (h : i.WrittenBy w p) {k : Nat}
    (hk : k < i.params.length) : digit w (k + 2) ≤ 2 := by
  refine i.modeDigits_le _ ?_
  rw [h.modes]
  exact List.mem_map_of_mem (List.mem_range.2 hk)

theorem Instr.opcode_lt (i : Instr) : i.opcode < 10 ^ 2 := by cases i <;> simp [Instr.opcode]

/-! #### Decoding and encoding -/

/-- The encoder's first word, over the encoder's parameter words, says its instruction (R68). -/
theorem writtenBy_headWord {p : Nat → Int} {i : Instr}
    (hp : i.params = (List.range i.params.length).map fun k => p (k + 1)) : i.WrittenBy i.headWord p := by
  obtain ⟨hop, hlt, hlen, _⟩ := encodedHead i
  have hmodes : i.modeDigits = (List.range i.params.length).map fun k => digit i.headWord (k + 2) := by
    have hdigits := digits_add_modeSum i.opcode_lt fun d hd => (i.modeDigits_le d hd).trans_lt (by decide : 2 < 10)
    rw [hlen] at hdigits
    exact hdigits.symm
  refine ⟨hop, hmodes, fun t ht => ?_, hp⟩
  have hn := Instr.params_length_of_writeOp ht
  have hlast : digit i.headWord ((readOps i).length + 2) = t.mode.digit := by
    have hget : i.modeDigits[(readOps i).length]? = some t.mode.digit := by simp [i.modeDigits_eq, ht]
    rw [hmodes] at hget
    simpa [hn] using hget
  have htop : i.headWord / 10 ^ ((readOps i).length + 2) < 10 := by
    rw [Nat.div_lt_iff_lt_mul (by positivity), ← pow_succ']
    rwa [hn, add_right_comm] at hlt
  rw [← WriteMode.digit_eq_zero_iff, ← hlast, digit, Nat.mod_eq_of_lt htop, Nat.div_eq_zero_iff_lt (by positivity)]

/-- Settles O2: the encoder's words say the instruction, whatever follows them. -/
theorem decodeOfEncodeIsTheInstruction : Obligations.DecodeOfEncodeIsTheInstruction := by
  intro i rest
  refine decode_ok_iff.2 (writtenBy_headWord ?_)
  refine List.ext_getElem (by simp) fun k hk _ => ?_
  simp [encode, List.getElem?_append_left hk, List.getElem?_eq_getElem hk]

/-- Settles O3: the weighed digits of the word are those of its instruction's canonical word. -/
theorem decodedWordIsCanonicalBelowSurplusDigits : Obligations.DecodedWordIsCanonicalBelowSurplusDigits := by
  intro w p i h
  obtain ⟨hw, hwritten⟩ := writtenBy_of_decode h
  refine ⟨hw, ?_, hwritten.params⟩
  calc w.toNat % 10 ^ (i.params.length + 2)
      = w.toNat % 10 ^ 2 + modeSum 2 ((List.range i.params.length).map fun k => digit w.toNat (k + 2)) := by
        rw [Nat.add_comm, mod_pow_eq_modeSum]
    _ = i.opcode + modeSum 2 i.modeDigits := by
        rw [← hwritten.modes, ← hwritten.opcode]
        rfl

/-! #### Which words do not decode -/

/-- The mode digits of the first `n` parameters are legal for some role (R55). -/
def LegalModes (w n : Nat) : Prop := ∀ k, 1 ≤ k → k ≤ n → digit w (k + 1) ≤ 2

/-- Everything the decoder can answer to a word of a known opcode with `n` parameters, of which the last has the write
role where `wr` says so (R55, R56, R64). -/
inductive ModesAnswer (w n : Nat) (wr : Bool) : Except FaultKind Instr → Prop where
  | unknownMode (k : Nat) (h1 : 1 ≤ k) (hn : k ≤ n) (hd : 3 ≤ digit w (k + 1)) :
      ModesAnswer w n wr (.error .unknownMode)
  | invalidWriteMode (hlegal : LegalModes w n) (hwr : wr = true) (hexplicit : 10 ^ (n + 1) ≤ w)
      (hd : digit w (n + 1) ≠ 2) : ModesAnswer w n wr (.error .invalidWriteMode)
  | ok (hlegal : LegalModes w n) (hwrite : wr = true → w < 10 ^ (n + 1) ∨ digit w (n + 1) = 2) (i : Instr) :
      ModesAnswer w n wr (.ok i)

/-- A read parameter has a legal mode digit, or its decode raises `UnknownMode`. -/
theorem decodeReadMode_cases (w i : Nat) :
    (∃ m, decodeReadMode w i = .ok m ∧ digit w (i + 1) ≤ 2) ∨
      (decodeReadMode w i = .error .unknownMode ∧ 3 ≤ digit w (i + 1)) := by
  cases h : decodeReadMode w i with
  | ok m => exact .inl ⟨m, rfl, by rw [(decodeReadMode_digit w i m).1 h]; exact m.digit_le⟩
  | error e =>
    obtain ⟨rfl, hd⟩ := (decodeReadMode_error w i e).1 h
    exact .inr ⟨rfl, hd⟩

/-- So has a write parameter, and one that is explicit must select the relative mode. -/
theorem decodeWriteMode_cases (w i : Nat) :
    (∃ m, decodeWriteMode w i = .ok m ∧ digit w (i + 1) ≤ 2 ∧ (w < 10 ^ (i + 1) ∨ digit w (i + 1) = 2)) ∨
      (decodeWriteMode w i = .error .unknownMode ∧ 3 ≤ digit w (i + 1)) ∨
      (decodeWriteMode w i = .error .invalidWriteMode ∧ digit w (i + 1) ≤ 1 ∧ 10 ^ (i + 1) ≤ w) := by
  cases h : decodeWriteMode w i with
  | ok m =>
    have hd : digit w (i + 1) ≤ 2 := ((decodeWriteMode_ok_iff w i m).1 h).1 ▸ m.digit_le
    exact .inl ⟨m, rfl, hd, ((decodeWriteMode_ok w i m).1 h).imp And.right fun hrel => hrel.2.2⟩
  | error e =>
    rcases (decodeWriteMode_error w i e).1 h with ⟨rfl, hd⟩ | ⟨rfl, hd, hexplicit⟩
    · exact .inr (.inl ⟨rfl, hd⟩)
    · exact .inr (.inr ⟨rfl, hd, hexplicit⟩)

theorem LegalModes.zero (w : Nat) : LegalModes w 0 := fun k h1 hn => by omega

theorem LegalModes.succ {w n : Nat} (h : LegalModes w n) (hd : digit w (n + 2) ≤ 2) : LegalModes w (n + 1) := by
  intro k h1 hk
  rcases Nat.lt_or_eq_of_le hk with hk | rfl
  · exact h k h1 (by omega)
  · exact hd

theorem decodeR_answer (mk : ReadOp → Instr) (w : Nat) (p : Nat → Int) :
    ModesAnswer w 1 false (decodeR mk w p) := by
  rcases decodeReadMode_cases w 1 with ⟨m1, h1, d1⟩ | ⟨h1, d1⟩
  · simp only [decodeR, h1]
    exact .ok ((LegalModes.zero w).succ d1) (fun h => by cases h) _
  · simp only [decodeR, h1]
    exact .unknownMode 1 le_rfl le_rfl d1

theorem decodeRR_answer (mk : ReadOp → ReadOp → Instr) (w : Nat) (p : Nat → Int) :
    ModesAnswer w 2 false (decodeRR mk w p) := by
  rcases decodeReadMode_cases w 1 with ⟨m1, h1, d1⟩ | ⟨h1, d1⟩
  · rcases decodeReadMode_cases w 2 with ⟨m2, h2, d2⟩ | ⟨h2, d2⟩
    · simp only [decodeRR, h1, h2]
      exact .ok (((LegalModes.zero w).succ d1).succ d2) (fun h => by cases h) _
    · simp only [decodeRR, h1, h2]
      exact .unknownMode 2 (by decide) le_rfl d2
  · simp only [decodeRR, h1]
    exact .unknownMode 1 le_rfl (by decide) d1

theorem decodeW_answer (mk : WriteOp → Instr) (w : Nat) (p : Nat → Int) :
    ModesAnswer w 1 true (decodeW mk w p) := by
  rcases decodeWriteMode_cases w 1 with ⟨m1, h1, d1, hw⟩ | ⟨h1, d1⟩ | ⟨h1, d1, hexplicit⟩
  · simp only [decodeW, h1]
    exact .ok ((LegalModes.zero w).succ d1) (fun _ => hw) _
  · simp only [decodeW, h1]
    exact .unknownMode 1 le_rfl le_rfl d1
  · simp only [decodeW, h1]
    exact .invalidWriteMode ((LegalModes.zero w).succ (d1.trans (by decide))) rfl hexplicit (by omega)

theorem decodeRRW_answer (mk : ReadOp → ReadOp → WriteOp → Instr) (w : Nat) (p : Nat → Int) :
    ModesAnswer w 3 true (decodeRRW mk w p) := by
  rcases decodeReadMode_cases w 1 with ⟨m1, h1, d1⟩ | ⟨h1, d1⟩
  · rcases decodeReadMode_cases w 2 with ⟨m2, h2, d2⟩ | ⟨h2, d2⟩
    · have hreads : LegalModes w 2 := ((LegalModes.zero w).succ d1).succ d2
      rcases decodeWriteMode_cases w 3 with ⟨m3, h3, d3, hw⟩ | ⟨h3, d3⟩ | ⟨h3, d3, hexplicit⟩
      · simp only [decodeRRW, h1, h2, h3]
        exact .ok (hreads.succ d3) (fun _ => hw) _
      · simp only [decodeRRW, h1, h2, h3]
        exact .unknownMode 3 (by decide) le_rfl d3
      · simp only [decodeRRW, h1, h2, h3]
        exact .invalidWriteMode (hreads.succ (d3.trans (by decide))) rfl hexplicit (by omega)
    · simp only [decodeRRW, h1, h2]
      exact .unknownMode 2 (by decide) (by decide) d2
  · simp only [decodeRRW, h1]
    exact .unknownMode 1 le_rfl (by decide) d1

/-- A word of a known opcode is answered as its mode digits say. -/
theorem decode_answer {w n : Nat} {wr : Bool} (p : Nat → Int) (h : opcodeShape (w % 100) = some (n, wr)) :
    ModesAnswer w n wr (decode (w : Int) p) := by
  rw [decode_natCast]
  generalize w % 100 = op at h
  unfold opcodeShape at h
  split at h
  · next hop =>
    cases h
    rcases hop with rfl | rfl | rfl | rfl <;> exact decodeRRW_answer _ w p
  split at h
  · next hop => cases h; cases hop; exact decodeW_answer _ w p
  split at h
  · next hop =>
    cases h
    rcases hop with rfl | rfl <;> exact decodeR_answer _ w p
  split at h
  · next hop =>
    cases h
    rcases hop with rfl | rfl <;> exact decodeRR_answer _ w p
  split at h
  · next hop => cases h; cases hop; exact .ok (LegalModes.zero w) (fun h => by cases h) _
  · cases h

/-- An opcode that is none of R63's encodes no instruction: the decoder takes none of its branches. -/
theorem decode_of_opcodeShape_none {w : Nat} (p : Nat → Int) (h : opcodeShape (w % 100) = none) :
    decode (w : Int) p = .error .unknownOpcode := by
  rw [decode_natCast]
  generalize w % 100 = op at h
  simp only [opcodeShape] at h
  split_ifs at h
  simp_all

/-- Settles O5, by everything the decoder can answer to a word of a known opcode. -/
theorem illegalWordsRaiseTheirFault : Obligations.IllegalWordsRaiseTheirFault := by
  intro w p
  refine ⟨decode_of_neg p, fun hw hop => ?_, fun n wr hw hop => ?_⟩
  · lift w to Nat using hw
    exact decode_of_opcodeShape_none p hop
  · lift w to Nat using hw
    rw [Int.toNat_natCast] at *
    have hanswer := decode_answer p hop
    generalize decode (w : Int) p = r at hanswer
    cases hanswer with
    | unknownMode k h1 hn hd => exact ⟨fun _ => rfl, fun hlegal => absurd (hlegal k h1 hn) (by omega)⟩
    | invalidWriteMode hlegal hwr hexplicit hd =>
      refine ⟨fun ⟨k, h1, hn, hk⟩ => absurd (hlegal k h1 hn) (by omega), fun _ => ⟨fun _ _ _ => rfl, ?_⟩⟩
      exact fun hwrite => absurd (hwrite hwr) (not_or.2 ⟨not_lt.2 hexplicit, hd⟩)
    | ok hlegal hwrite i =>
      refine ⟨fun ⟨k, h1, hn, hk⟩ => absurd (hlegal k h1 hn) (by omega), fun _ => ⟨?_, fun _ => ⟨i, rfl⟩⟩⟩
      exact fun hwr hexplicit hd => absurd (hwrite hwr) (not_or.2 ⟨not_lt.2 hexplicit, hd⟩)

/-! #### Digits above the mode digits -/

theorem opcode_add_mul_pow (w k n : Nat) : (w + k * 10 ^ (n + 2)) % 100 = w % 100 := by
  have hpow : k * 10 ^ (n + 2) = k * 10 ^ n * 100 := by ring
  rw [hpow, Nat.add_mul_mod_self_right]

/-- Without a default write operand, digits above the mode digits change nothing. -/
theorem decode_surplus {w : Nat} {p : Nat → Int} {i : Instr} (k : Nat) (h : decode (w : Int) p = .ok i)
    (hw : ∀ t, i.writeOp = some t → t.mode = .relative) :
    decode ((w + k * 10 ^ (i.params.length + 2) : Nat) : Int) p = .ok i := by
  have hwritten := decode_ok_iff.1 h
  refine decode_ok_iff.2 ⟨?_, ?_, fun t ht => ?_, hwritten.params⟩
  · rw [opcode_add_mul_pow, hwritten.opcode]
  · rw [hwritten.modes]
    refine List.map_congr_left fun j hj => (digit_add_mul_pow w k ?_).symm
    simpa using hj
  · have hne : t.mode ≠ .literal := by simp [hw t ht]
    have hexplicit : ¬ w < 10 ^ ((readOps i).length + 2) := fun hlt => hne ((hwritten.write t ht).2 hlt)
    exact iff_of_false hne (by omega)

/-- A default write operand's absent digit becomes an explicit 0 (R56, R57). -/
theorem decode_surplus_of_literal {w : Nat} {p : Nat → Int} {i : Instr} {k : Nat} {t : WriteOp}
    (h : decode (w : Int) p = .ok i) (hk : 0 < k) (ht : i.writeOp = some t) (hlit : t.mode = .literal) :
    decode ((w + k * 10 ^ (i.params.length + 2) : Nat) : Int) p = .error .invalidWriteMode := by
  have hwritten := decode_ok_iff.1 h
  have hn := Instr.params_length_of_writeOp ht
  have hdigit {j : Nat} (hj : j ≤ i.params.length) :
      digit (w + k * 10 ^ (i.params.length + 2)) (j + 1) = digit w (j + 1) := digit_add_mul_pow w k (by omega)
  have hlast : digit w (i.params.length + 1) = 0 := by rw [hn, (hwritten.writeOp ht).1, hlit]; rfl
  have hexplicit : 10 ^ (i.params.length + 1) ≤ w + k * 10 ^ (i.params.length + 2) :=
    calc 10 ^ (i.params.length + 1) ≤ 10 ^ (i.params.length + 2) := Nat.pow_le_pow_right (by decide) (by omega)
      _ ≤ k * 10 ^ (i.params.length + 2) := Nat.le_mul_of_pos_left _ hk
      _ ≤ _ := Nat.le_add_left _ _
  have hshape : opcodeShape ((w + k * 10 ^ (i.params.length + 2)) % 100) = some (i.params.length, true) := by
    rw [opcode_add_mul_pow, hwritten.opcode, opcodeShape_opcode, ht]
    rfl
  have hanswer := decode_answer p hshape
  generalize decode ((w + k * 10 ^ (i.params.length + 2) : Nat) : Int) p = r at hanswer
  cases hanswer with
  | unknownMode j h1 hj hd =>
    rw [hdigit hj] at hd
    have hle : digit w (j - 1 + 2) ≤ 2 := hwritten.digit_le (by omega)
    rw [show j - 1 + 2 = j + 1 by omega] at hle
    omega
  | invalidWriteMode => rfl
  | ok _ hwrite =>
    rw [hdigit le_rfl, hlast] at hwrite
    exact absurd (hwrite rfl) (not_or.2 ⟨not_lt.2 hexplicit, by decide⟩)

/-- Settles O4: only a default write operand sees the digits above. -/
theorem surplusDigitsSelectNothing : Obligations.SurplusDigitsSelectNothing := by
  intro w k p i h hk
  cases i with
  | add _ _ t | mul _ _ t | lt _ _ t | eq _ _ t | inp t =>
    obtain ⟨⟨⟩, v⟩ := t
    · exact decode_surplus_of_literal h hk rfl rfl
    · exact decode_surplus k h (by rintro _ ⟨⟩; rfl)
  | out | jnz | jz | arb | hlt => exact decode_surplus k h (by rintro _ ⟨⟩)

/-! #### The modes of a decoded word -/

/-- The two modes of a write operand, and its parameter word (R56). -/
theorem Instr.WrittenBy.write_modes {w : Nat} {p : Nat → Int} {i : Instr} (h : i.WrittenBy w p) {t : WriteOp}
    (ht : i.writeOp = some t) {n : Nat} (hn : (readOps i).length = n) :
    (t.mode = .literal ↔ w < 10 ^ (n + 2)) ∧ (t.mode = .relative ↔ 10 ^ (n + 2) ≤ w ∧ digit w (n + 2) = 2) ∧
      t.word = p (n + 1) := by
  subst hn
  obtain ⟨hdigit, hword⟩ := h.writeOp ht
  refine ⟨h.write t ht, ?_, hword⟩
  rw [hdigit, ← not_lt, ← h.write t ht]
  cases t.mode <;> simp [WriteMode.digit]

/-- Settles O6, operand by operand. -/
theorem modeDigitsSelectTheModes : Obligations.ModeDigitsSelectTheModes := by
  intro w p i h
  have hwritten := decode_ok_iff.1 h
  refine ⟨hwritten.opcode.symm, fun k o ho => ?_, ?_, ?_⟩
  · obtain ⟨hdigit, hword⟩ := hwritten.readOp ho
    refine ⟨hdigit.trans ?_, hword⟩
    cases o.mode <;> rfl
  · rintro t ⟨a, b, rfl | rfl | rfl | rfl⟩ <;> exact hwritten.write_modes rfl rfl
  · rintro t rfl
    exact hwritten.write_modes rfl rfl

/-- Settles O1. -/
theorem sampleWordsDecode : Obligations.SampleWordsDecode :=
  ⟨rfl, rfl, rfl, rfl, rfl, rfl, rfl⟩

end Sys2Proof

/-! ### Program text -/

namespace Sys2Proof.Machine

/-- A text that begins with no sign is read as digits alone. -/
theorem parseInt_of_no_sign {cs : List Char} (hm : '-' ∉ cs.head?) (hp : '+' ∉ cs.head?) :
    parseInt cs = (parseDigits cs).map fun (n : Nat) => (n : Int) := by
  unfold parseInt
  split
  · simp at hm
  · simp at hp
  · rfl

/-- A sign or none before digits, as the three branches of the parser see it. -/
theorem parseInt_of_written {f : List Char} {v : Int} (h : WrittenInt f v) : parseInt f = some v := by
  obtain ⟨sign, ds, hne, hlt, rfl, hv⟩ := h
  have hdigits : parseDigits (ds.map Nat.digitChar) = some (Nat.ofDigits 10 ds.reverse) :=
    parseDigits_iff.2 ⟨ds, hne, hlt, rfl, rfl⟩
  rcases hv with ⟨rfl | rfl, rfl⟩ | ⟨rfl, rfl⟩
  · have hhead (c : Char) (hc : digitValue c = none) : c ∉ (ds.map Nat.digitChar).head? := fun h =>
      (parseDigits_mem hdigits).2 c (List.mem_of_mem_head? h) hc
    rw [List.nil_append, parseInt_of_no_sign (hhead '-' (by decide)) (hhead '+' (by decide)), hdigits]
    rfl
  · simp [parseInt, hdigits]
  · simp [parseInt, hdigits]

/-- Digits that are read, with a sign in front or none. -/
theorem WrittenInt.of_digits {cs sign : List Char} {n : Nat} {v : Int} (h : parseDigits cs = some n)
    (hv : ((sign = [] ∨ sign = ['+']) ∧ v = n) ∨ (sign = ['-'] ∧ v = -n)) : WrittenInt (sign ++ cs) v := by
  obtain ⟨ds, hne, hlt, rfl, rfl⟩ := parseDigits_iff.1 h
  exact ⟨sign, ds, hne, hlt, rfl, hv⟩

theorem written_of_parseInt {f : List Char} {v : Int} (h : parseInt f = some v) : WrittenInt f v := by
  unfold parseInt at h
  split at h
  · obtain ⟨n, hn, rfl⟩ := Option.map_eq_some_iff.1 h
    exact .of_digits (sign := ['-']) hn (.inr ⟨rfl, rfl⟩)
  · obtain ⟨n, hn, rfl⟩ := Option.map_eq_some_iff.1 h
    exact .of_digits (sign := ['+']) hn (.inl ⟨.inr rfl, rfl⟩)
  · obtain ⟨n, hn, rfl⟩ := Option.map_eq_some_iff.1 h
    exact .of_digits (sign := []) hn (.inl ⟨.inl rfl, rfl⟩)

theorem parseInt_iff (f : List Char) (v : Int) : parseInt f = some v ↔ WrittenInt f v :=
  ⟨written_of_parseInt, parseInt_of_written⟩

theorem writtenWs_iff (cs : List Char) : WrittenWs cs ↔ cs.all isWs = true := by
  simp [WrittenWs, isWs, or_assoc]

/-- The values of fields, read one by one. -/
theorem allSome_parseInt_iff (fs : List (List Char)) (vs : List Int) :
    allSome (fs.map parseInt) = some vs ↔ List.Forall₂ WrittenInt fs vs := by
  rw [allSome_eq_some, ← List.forall₂_eq_eq_eq, List.forall₂_map_left_iff, List.forall₂_map_right_iff]
  simp only [parseInt_iff]

/-- The commas and fields of a list of integers hold no white space. -/
theorem intercalate_clean {fs : List (List Char)} (h : ∀ f ∈ fs, ∀ c ∈ f, isWs c = false) :
    ∀ c ∈ List.intercalate [','] fs, isWs c = false := by
  induction fs with
  | nil => simp [List.intercalate]
  | cons f fs ih =>
    have hfs := ih fun g hg => h g (by simp [hg])
    cases fs with
    | nil => simpa [List.intercalate] using h f (by simp)
    | cons g gs =>
      intro c hc
      rw [List.intercalate_cons_cons, List.append_assoc, List.mem_append, List.mem_append] at hc
      rcases hc with hc | hc | hc
      · exact h f (by simp) c hc
      · rw [List.mem_singleton.1 hc]; decide
      · exact hfs c hc

/-- Integers hold no white space and no comma. -/
theorem clean_of_written {fs : List (List Char)} {vs : List Int} (h : List.Forall₂ WrittenInt fs vs) :
    ∀ f ∈ fs, (∀ c ∈ f, isWs c = false) ∧ ',' ∉ f := by
  induction h with
  | nil => simp
  | cons hv _ ih => exact List.forall_mem_cons.2 ⟨parseInt_clean (parseInt_of_written hv), ih⟩

theorem parseProgram_iff (text : List Char) (vs : List Int) : parseProgram text = some vs ↔ WrittenProgram text vs := by
  unfold parseProgram
  constructor
  · intro h
    obtain ⟨before, after, hb, ha, htext⟩ := trimWs_split text
    refine ⟨before, after, _, splitAt_ne _ _, (writtenWs_iff _).2 hb, (writtenWs_iff _).2 ha, ?_,
      (allSome_parseInt_iff _ vs).1 h⟩
    rw [intercalate_splitAt, ← htext]
  · rintro ⟨before, after, fields, hne, hb, ha, rfl, hvs⟩
    have hclean := clean_of_written hvs
    rw [trimWs_pad ((writtenWs_iff _).1 hb) ((writtenWs_iff _).1 ha) (intercalate_clean fun f hf => (hclean f hf).1),
      splitAt_intercalate hne fun f hf => (hclean f hf).2]
    exact (allSome_parseInt_iff fields vs).2 hvs

/-- Settles O59. -/
theorem programTextReadsFieldByField : Obligations.ProgramTextReadsFieldByField := by
  refine ⟨parseProgram_iff, fun text => ?_, parseInt_iff⟩
  simp only [← parseProgram_iff, Option.eq_none_iff_forall_ne_some, not_exists, ne_eq]

/-! #### Texts the loader refuses -/

/-- Behind its first character an integer holds digits only. -/
theorem digitValue_of_mem_tail {c : Char} {f : List Char} {v : Int} (h : parseInt f = some v) (hc : c ∈ f.tail) :
    digitValue c ≠ none := by
  obtain ⟨sign, ds, _, hlt, rfl, hv⟩ := written_of_parseInt h
  have hmem : c ∈ ds.map Nat.digitChar := by
    rcases hv with ⟨rfl | rfl, _⟩ | ⟨rfl, _⟩
    · exact List.mem_of_mem_tail hc
    · exact hc
    · exact hc
  obtain ⟨d, hd, rfl⟩ := List.mem_map.1 hmem
  simp [digitValue_digitChar (hlt d hd)]

/-- What a sign is not: white space, a digit, a comma, an integer. -/
structure IsSign (c : Char) : Prop where
  ws : isWs c = false
  digit : digitValue c = none
  comma : c ≠ ','
  int : parseInt [c] = none

theorem isSign_of_eq {c : Char} (h : c = '+' ∨ c = '-') : IsSign c := by
  rcases h with rfl | rfl <;> exact ⟨by decide, by decide, by decide, by decide⟩

/-- A sign behind the first character of a field. -/
theorem parseInt_of_inner_sign {c : Char} {f : List Char} (hs : IsSign c) (h : c ∈ f.tail) : parseInt f = none := by
  cases hv : parseInt f with
  | none => rfl
  | some v => exact absurd hs.digit (digitValue_of_mem_tail hv h)

/-- A sign at the end of a field. -/
theorem parseInt_of_last_sign {c : Char} (f : List Char) (hs : IsSign c) : parseInt (f ++ [c]) = none := by
  cases f with
  | nil => exact hs.int
  | cons x f => exact parseInt_of_inner_sign hs (by simp)

/-- A character that is no separator goes in front of the first field. -/
theorem splitAt_cons_ne {sep c : Char} (cs : List Char) (h : c ≠ sep) :
    ∃ f fs, splitAt sep cs = f :: fs ∧ splitAt sep (c :: cs) = (c :: f) :: fs := by
  cases hs : splitAt sep cs with
  | nil => exact absurd hs (splitAt_ne _ _)
  | cons f fs => exact ⟨f, fs, rfl, by rw [splitAt, if_neg h, hs]⟩

/-- The first field of what follows `l` ends a field of the whole. -/
theorem exists_field_append (l : List Char) {m f : List Char} {fs : List (List Char)} (h : splitAt ',' m = f :: fs) :
    ∃ g, ∀ x ∈ (g ++ f) :: fs, x ∈ splitAt ',' (l ++ m) := by
  obtain ⟨gs, g, f', fs', _, hm, hlm⟩ := splitAt_app l m
  rw [h] at hm
  cases hm
  exact ⟨g, fun x hx => by rw [hlm, List.append_assoc]; exact List.mem_append_right gs hx⟩

/-- A bad field around `mid` makes the text refused: trimming does not reach `mid`, and it takes away what stands before
or after it where that is white space alone. -/
theorem parseProgram_of_bad_mid {pre mid post : List Char} (hws : ∀ c ∈ mid, isWs c = false) (hne : mid ≠ [])
    (hbad : ∀ l r, (pre.all isWs = true → l = []) → (post.all isWs = true → r = []) →
      ∃ f ∈ splitAt ',' (l ++ (mid ++ r)), parseInt f = none) : parseProgram (pre ++ mid ++ post) = none := by
  have htrim := trimWs_mid pre mid post (fun c hc => hws c (List.mem_of_mem_head? hc))
    (fun c hc => hws c (List.mem_of_mem_getLast? hc)) hne
  obtain ⟨f, hf, hnone⟩ := hbad (pre.dropWhile isWs) (post.reverse.dropWhile isWs).reverse
    (fun h => List.dropWhile_eq_nil_iff.2 (by simpa using h)) (fun h => by simpa [List.dropWhile_eq_nil_iff] using h)
  rw [← List.append_assoc, ← htrim] at hf
  exact parseProgram_of_bad_field hf hnone

theorem parseProgram_of_ws {text : List Char} (h : text.all isWs = true) : parseProgram text = none := by
  have htrim : trimWs (text ++ [] ++ []) = [] := trimWs_pad h rfl (by simp)
  rw [List.append_nil, List.append_nil] at htrim
  exact parseProgram_of_bad_field (f := []) (by rw [htrim]; simp [splitAt]) rfl

theorem parseProgram_of_two_commas (pre post : List Char) : parseProgram (pre ++ ',' :: ',' :: post) = none := by
  have h : parseProgram (pre ++ [',', ','] ++ post) = none :=
    parseProgram_of_bad_mid (by simp [isWs]) (by simp) fun l r _ _ => ⟨[], splitAt_empty l r, rfl⟩
  simpa using h

theorem parseProgram_of_first_comma {ws : List Char} (rest : List Char) (h : ws.all isWs = true) :
    parseProgram (ws ++ ',' :: rest) = none := by
  have h : parseProgram (ws ++ [','] ++ rest) = none :=
    parseProgram_of_bad_mid (by simp [isWs]) (by simp) fun l r hl _ => by
      rw [hl h]
      exact ⟨[], by simp [splitAt], rfl⟩
  simpa using h

theorem parseProgram_of_last_comma {ws : List Char} (rest : List Char) (h : ws.all isWs = true) :
    parseProgram (rest ++ ',' :: ws) = none := by
  have h : parseProgram (rest ++ [','] ++ ws) = none :=
    parseProgram_of_bad_mid (by simp [isWs]) (by simp) fun l r _ hr => by
      obtain ⟨g, hg⟩ := exists_field_append l (m := [',']) (f := []) (fs := [[]]) rfl
      rw [hr h]
      exact ⟨[], hg [] (by simp), rfl⟩
  simpa using h

theorem parseProgram_of_inner_ws {pre post : List Char} {c : Char} (hc : isWs c = true)
    (hpre : ∃ x ∈ pre, isWs x = false) (hpost : ∃ x ∈ post, isWs x = false) :
    parseProgram (pre ++ c :: post) = none := by
  obtain ⟨hdigit, hplus, hminus, hcomma⟩ := isWs_not_field hc
  exact parseProgram_of_bad_char (mem_trimWs (.inr hpre) (.inr hpost)) hdigit hplus hminus hcomma

theorem parseProgram_of_sign_comma {sign : Char} (pre post : List Char) (hs : IsSign sign) :
    parseProgram (pre ++ sign :: ',' :: post) = none := by
  have h : parseProgram (pre ++ [sign, ','] ++ post) = none :=
    parseProgram_of_bad_mid (by simpa using ⟨hs.ws, by decide⟩) (by simp) fun l r _ _ => by
      obtain ⟨g, hg⟩ := exists_field_append l (splitAt_append [sign] r (by simpa using hs.comma.symm))
      exact ⟨g ++ [sign], hg _ (by simp), parseInt_of_last_sign g hs⟩
  simpa using h

theorem parseProgram_of_last_sign {sign : Char} (pre : List Char) {ws : List Char} (hs : IsSign sign)
    (hws : ws.all isWs = true) : parseProgram (pre ++ sign :: ws) = none := by
  have h : parseProgram (pre ++ [sign] ++ ws) = none :=
    parseProgram_of_bad_mid (by simpa using hs.ws) (by simp) fun l r _ hr => by
      obtain ⟨g, hg⟩ := exists_field_append l (splitAt_single [sign] (by simpa using hs.comma.symm))
      rw [hr hws]
      exact ⟨g ++ [sign], hg _ (by simp), parseInt_of_last_sign g hs⟩
  simpa using h

theorem parseProgram_of_inner_sign {x sign : Char} (pre post : List Char) (hs : IsSign sign) (hx : x ≠ ',')
    (hxws : isWs x = false) : parseProgram (pre ++ x :: sign :: post) = none := by
  have h : parseProgram (pre ++ [x, sign] ++ post) = none :=
    parseProgram_of_bad_mid (by simpa using ⟨hxws, hs.ws⟩) (by simp) fun l r _ _ => by
      obtain ⟨f, fs, hr, hsign⟩ := splitAt_cons_ne r hs.comma
      obtain ⟨f', fs', hsign', hxsign⟩ := splitAt_cons_ne (sign :: r) hx
      rw [hsign] at hsign'
      cases hsign'
      obtain ⟨g, hg⟩ := exists_field_append l hxsign
      exact ⟨_, hg _ List.mem_cons_self, parseInt_of_inner_sign hs (by cases g <;> simp)⟩
  simpa using h

/-- Settles O58: each such text has a field that is no integer, or a character that no field may hold. -/
theorem badProgramTextIsRefused : Obligations.BadProgramTextIsRefused := by
  refine ⟨fun _ => parseProgram_of_ws, parseProgram_of_two_commas, fun ws rest h => ?_, fun _ _ _ hc hpre hpost => ?_,
    fun pre post ws sign hs hws => ?_, fun pre post x sign hs hx hxws => ?_, fun text c hc hws hd hp hm hk => ?_⟩
  · exact ⟨parseProgram_of_first_comma rest h, parseProgram_of_last_comma rest h⟩
  · exact parseProgram_of_inner_ws hc hpre hpost
  · have hs := isSign_of_eq hs
    exact ⟨parseProgram_of_sign_comma pre post hs, parseProgram_of_last_sign pre hs hws⟩
  · exact parseProgram_of_inner_sign pre post (isSign_of_eq hs) hx hxws
  · obtain ⟨pre, post, rfl⟩ := List.append_of_mem hc
    exact parseProgram_of_bad_char (mem_trimWs (.inl hws) (.inl hws)) hd hp hm hk

/-! ### The assembler -/

/-- A line without a label is its instruction's encoding. -/
theorem assembleLine_eq_encode {m : Mnemonic} {operands : List AsmOperand} {i : Instr}
    (h : assembleInstr [] m operands = some i) : assembleLine m operands = some (encode i) := by
  simp [assembleLine, assemble, labelsFrom, AsmBody.words, allSome, h]

@[simp] theorem toRead_writtenRead (env : List (Label × Int)) (o : ReadOp) : (writtenRead o).toRead env = some o := by
  obtain ⟨⟨⟩, v⟩ := o <;> rfl

@[simp] theorem toWrite_writtenWrite (env : List (Label × Int)) (t : WriteOp) :
    (writtenWrite t).toWrite env = some t := by
  obtain ⟨⟨⟩, v⟩ := t <;> rfl

/-- An RRW line with its operands as written. -/
theorem buildRRW_written (env : List (Label × Int)) (mk : ReadOp → ReadOp → WriteOp → Instr) (a b : ReadOp)
    (t : WriteOp) : buildRRW env mk (writtenRead a) (writtenRead b) (writtenWrite t) = some (mk a b t) := by
  simp [buildRRW]

/-- An RR line with its operands as written. -/
theorem buildRR_written (env : List (Label × Int)) (mk : ReadOp → ReadOp → Instr) (a b : ReadOp) :
    buildRR env mk (writtenRead a) (writtenRead b) = some (mk a b) := by
  simp [buildRR]

theorem toWrite_map_written (env : List (Label × Int)) (mk : WriteOp → Instr) (t : WriteOp) :
    ((writtenWrite t).toWrite env).map mk = some (mk t) := by
  rw [toWrite_writtenWrite, Option.map_some]

theorem toRead_map_written (env : List (Label × Int)) (mk : ReadOp → Instr) (a : ReadOp) :
    ((writtenRead a).toRead env).map mk = some (mk a) := by
  rw [toRead_writtenRead, Option.map_some]

/-- Settles O60: each mnemonic's operands are built in its format; JMP's condition 1, and MOV's 0 and target, are what
those operands are as written. -/
theorem assemblerWritesTheEncoding : Obligations.AssemblerWritesTheEncoding := by
  refine ⟨fun a b t => ⟨?_, ?_, ?_, ?_, ?_, ?_, ?_, ?_, ?_, ?_, ?_, fun d => ?_⟩, fun o => ⟨?_, ?_⟩, by decide⟩
  · exact assembleLine_eq_encode (buildRRW_written [] .add a b t)
  · exact assembleLine_eq_encode (buildRRW_written [] .mul a b t)
  · exact assembleLine_eq_encode (buildRRW_written [] .lt a b t)
  · exact assembleLine_eq_encode (buildRRW_written [] .eq a b t)
  · exact assembleLine_eq_encode (buildRR_written [] .jnz a b)
  · exact assembleLine_eq_encode (buildRR_written [] .jz a b)
  · exact assembleLine_eq_encode (toWrite_map_written [] .inp t)
  · exact assembleLine_eq_encode (toRead_map_written [] .out a)
  · exact assembleLine_eq_encode (toRead_map_written [] .arb a)
  · exact assembleLine_eq_encode rfl
  · exact assembleLine_eq_encode (buildRR_written [] .jnz ⟨.immediate, 1⟩ b)
  · exact assembleLine_eq_encode (buildRRW_written [] .add a ⟨.immediate, 0⟩ ⟨.literal, d⟩)
  · exact assembleLine_eq_encode rfl
  · exact assembleLine_eq_encode rfl

/-! ### Operands, fetch and step -/

/-- Settles O11. -/
theorem operandsResolveByMode : Obligations.OperandsResolveByMode :=
  fun _ _ => ⟨rfl, rfl, rfl, rfl, rfl⟩

/-- Settles O26. -/
theorem negativeOperandAddressFaults : Obligations.NegativeOperandAddressFaults := by
  intro s i h
  cases i with
  | add | mul | lt | eq | jnz | jz => exact withOperands_none _ (by simpa [readOps] using h)
  | out | arb => exact withOperand_none _ (by simpa [readOps] using h)
  | inp | hlt => simp [readOps] at h

theorem fetch_of_neg {m : MachineState} (h : m.pc < 0) : fetch m = .error .invalidAddress := by
  simp [fetch, h]

theorem fetch_of_nonneg {m : MachineState} (h : 0 ≤ m.pc) :
    fetch m = decode (m.mem.get m.pc.toNat) (fun i => m.mem.get (m.pc.toNat + i)) := by
  rw [fetch, if_neg (not_lt.2 h)]

theorem runInstruction_of_error {s : State} {k : FaultKind} (h : fetch s.me = .error k) :
    runInstruction s = .next (s.afterFault k) := by
  rw [runInstruction, h]
  exact raise_eq k s

theorem runInstruction_of_ok {s : State} {i : Instr} (h : fetch s.me = .ok i) : runInstruction s = exec i s := by
  rw [runInstruction, h]

/-- The word 0 has no opcode (R40). -/
theorem decode_zero (p : Nat → Int) : decode 0 p = .error .unknownOpcode := rfl

/-- Settles O28. -/
theorem fetchFaults : Obligations.FetchFaults := by
  refine fun s => ⟨fun h => runInstruction_of_error (fetch_of_neg h), fun h hread => runInstruction_of_error ?_⟩
  have hget : s.me.mem.get s.me.pc.toNat = 0 := by simpa [Memory.read_of_nonneg h] using hread
  rw [fetch_of_nonneg h, hget, decode_zero]

/-- The step of an accepted system whose run has not ended is the next event's (R45, R116). -/
theorem step_of_live {s : State} (hp : s.problem = none) (he : runEnd s = none) :
    step s = stepEvent s.nextEvent { s with agenda := s.agenda.tail } := by
  rw [step, advance, hp, he]

/-- The turn of a Running machine with nothing undelivered is its instruction step (R60, R98). -/
theorem step_of_machine_event {s : State} {k : Nat} (hp : s.problem = none) (he : runEnd s = none)
    (hev : s.nextEvent = .machine k) (hk : k < s.machines.length) (hrun : (s.machine k).status = .running)
    (hout : (s.machine k).outbox = []) : step s = runInstruction { s with agenda := s.agenda.tail, cur := k } := by
  have hready : (s.machine k).ready = true := by simp [MachineState.ready, hrun, hout]
  rw [step_of_live hp he, hev]
  exact if_pos ⟨hk, hready⟩

/-- Settles O37. -/
theorem stepRunsTheDecodedInstruction : Obligations.StepRunsTheDecodedInstruction := by
  intro s k i hp he hev hk hrun hout hpc hdecode
  rw [step_of_machine_event hp he hev hk hrun hout]
  exact runInstruction_of_ok ((fetch_of_nonneg hpc).trans hdecode)

/-- Settles O38. -/
theorem stepEntersTheDecodeFault : Obligations.StepEntersTheDecodeFault := by
  intro s k f hp he hev hk hrun hout hfetch
  have hstep := step_of_machine_event hp he hev hk hrun hout
  have hfault : fetch ({ s with agenda := s.agenda.tail, cur := k } : State).me = .error f := hfetch
  rw [runInstruction_of_error hfault] at hstep
  exact ⟨_, hstep, State.me_afterFault f hk, fun j hj => State.machine_setMe_ne _ hj, ⟨rfl, rfl, rfl⟩⟩

end Sys2Proof.Machine

/-! ### Arithmetic -/

namespace Sys2Proof.Machine

/-- The one frame of ADD, MUL, LT and EQ (R61, R71), whatever they compute. -/
theorem computeAndStore_storedOnly (f : Int → Int → Int) {a b : ReadOp} {t : WriteOp} {s : State} {x y : Int}
    (hc : s.cur < s.machines.length) (hm : s.me.mem.wf) (ha : readOperand s.me a = some x)
    (hb : readOperand s.me b = some y) (ht : 0 ≤ targetAddr s.me t) :
    ∃ u, computeAndStore f a b t s = .next u ∧ StoredOnly s u (targetAddr s.me t) (f x y) 4 :=
  ⟨_, computeAndStore_stores f ha hb ht, storedOnly_setMe 4 hc hm ht⟩

/-- Settles O12, as the stored frame of the exact sum. -/
theorem addStoresTheSum : Obligations.AddStoresTheSum :=
  fun _ _ _ _ _ _ hc hm ha hb ht => computeAndStore_storedOnly (· + ·) hc hm ha hb ht

/-- Settles O13, as the stored frame of the exact product. -/
theorem mulStoresTheProduct : Obligations.MulStoresTheProduct :=
  fun _ _ _ _ _ _ hc hm ha hb ht => computeAndStore_storedOnly (· * ·) hc hm ha hb ht

/-- Settles O27: the operands are read, and the store at a negative target is what faults. -/
theorem negativeTargetFaults : Obligations.NegativeTargetFaults := by
  intro s a b t x y ha hb ht
  have hfaults (f : Int → Int → Int) := computeAndStore_faults f ha hb ht
  exact ⟨hfaults _, hfaults _, hfaults _, hfaults _⟩

end Sys2Proof.Machine

/-! ### Input and output -/

namespace Sys2Proof.Machine

/-! Where the state an operation starts from is itself an update of the machine, what it answers is one update. -/

theorem State.afterFault_setMe {s : State} (k : FaultKind) (m : MachineState) (hc : s.cur < s.machines.length) :
    (s.setMe m).afterFault k = s.setMe { m with status := .faulted k m.pc } := by
  rw [State.afterFault, State.me_setMe m hc, State.setMe_setMe]

theorem State.advancePc_setMe {s : State} (m : MachineState) (len : Nat) (hc : s.cur < s.machines.length) :
    (s.setMe m).advancePc len = s.setMe { m with pc := m.pc + (len : Int) } := by
  rw [State.advancePc, State.me_setMe m hc, State.setMe_setMe]

theorem storeAndAdvance_setMe_of_nonneg {s : State} {m : MachineState} {tgt : Int} (v : Int) (len : Nat)
    (hc : s.cur < s.machines.length) (ht : 0 ≤ tgt) :
    storeAndAdvance tgt v len (s.setMe m) =
      .next (s.setMe { m with mem := m.mem.set tgt.toNat v, pc := m.pc + (len : Int) }) := by
  rw [storeAndAdvance_of_nonneg ht, State.me_setMe m hc, State.setMe_setMe]

theorem storeAndAdvance_setMe_of_neg {s : State} {m : MachineState} {tgt : Int} (v : Int) (len : Nat)
    (hc : s.cur < s.machines.length) (ht : tgt < 0) :
    storeAndAdvance tgt v len (s.setMe m) =
      .next (s.setMe { m with status := .faulted .invalidAddress m.pc }) := by
  rw [storeAndAdvance_of_neg ht, State.afterFault_setMe _ m hc]

/-! #### IN -/

/-- Settles O15: the receive updates the queue and the machine, the store that same machine. -/
theorem inTakesTheHeadOfItsQueue : Obligations.InTakesTheHeadOfItsQueue := by
  intro s t v vs hc hm hq ht
  have hlt : s.inputOf s.cur < s.queues.length := State.queue_lt_of_ne_nil (ne_of_eq_of_ne hq (List.cons_ne_nil v vs))
  have hexec := (execInp_value (t := t) hq).trans
    (storeAndAdvance_setMe_of_nonneg (s := s.setQueue (s.inputOf s.cur) vs) v 2 hc ht)
  refine ⟨_, hexec, ?_, ?_, State.queue_setQueue_self vs hlt, fun _ => State.queue_setQueue_ne vs, rfl, rfl,
    execInp_othersKept hexec⟩ <;> rw [State.me_setMe (s := s.setQueue _ _) _ hc]
  · exact storesWord_set v ht hm
  · rfl

/-- Settles O16: the poll is counted and the word stored in one update of the machine. -/
theorem inPollsAnEmptyQueue : Obligations.InPollsAnEmptyQueue := by
  intro s t d hc hm hq hp hd ht
  have hexec := (execInp_poll (t := t) hq hp hd).trans (storeAndAdvance_setMe_of_nonneg d 2 hc ht)
  refine ⟨_, hexec, ?_, ?_, PortsKept.setMe _ _, OthersKept.setMe _ _⟩ <;> rw [State.me_setMe _ hc]
  · exact storesWord_set d ht hm
  · rfl

/-- Settles O18: the receive comes first, and the store is what faults. -/
theorem inWithNegativeTargetLosesItsInput : Obligations.InWithNegativeTargetLosesItsInput := by
  refine fun s t hc ht => ⟨fun v vs hq => ?_, fun d hq hp hd => ?_⟩
  · exact (execInp_value hq).trans
      (storeAndAdvance_setMe_of_neg (s := s.setQueue (s.inputOf s.cur) vs) v 2 hc ht)
  · exact (execInp_poll hq hp hd).trans (storeAndAdvance_setMe_of_neg d 2 hc ht)

/-- At IN, whether a ready machine has a step is a matter of its queue alone (R74). -/
theorem State.machineEnabled_of_fetch_inp {s : State} {i : Nat} {t : WriteOp} (hi : i < s.machines.length)
    (hr : (s.machine i).ready = true) (hf : fetch (s.machine i) = .ok (.inp t)) :
    s.machineEnabled i = ! ((s.inputQueue i).isEmpty && decide (s.disciplineOf i = .blocking)) := by
  simp [State.machineEnabled, State.waiting, hi, hr, hf]

/-- Settles O17: an append changes no machine, so the waiting machine is still ready and still at IN, and what made it
wait is gone. -/
theorem inWaitsOnAnEmptyBlockingQueue : Obligations.InWaitsOnAnEmptyBlockingQueue := by
  intro s i t hi hr hf hq hb
  refine ⟨?turn, ?disabled, fun v hlt => ?woken⟩
  case turn =>
    calc machineStep i s
        = runInstruction { s with cur := i } := if_pos ⟨hi, hr⟩
      _ = execInp t { s with cur := i } := runInstruction_of_ok (s := { s with cur := i }) hf
      _ = .next { s with cur := i } := execInp_wait hq hb
  case disabled =>
    rw [State.machineEnabled_of_fetch_inp hi hr hf, hq, hb]
    rfl
  case woken =>
    have hqueue : (s.enqueue (s.inputOf i) v).inputQueue i = s.inputQueue i ++ [v] := State.queue_enqueue_self v hlt
    rw [State.machineEnabled_of_fetch_inp (s := s.enqueue (s.inputOf i) v) hi hr hf, hqueue]
    simp

/-! #### OUT -/

/-- OUT once its send has answered, the state after it written as an update of the machine. -/
theorem execOut_of_send {s s' : State} {m : MachineState} {a : ReadOp} {v : Int} (ha : readOperand s.me a = some v)
    (hc : s'.cur < s'.machines.length) (hs : send v (s.setMe { s.me with noData := 0 }) = .next (s'.setMe m)) :
    execOut a s = .next (s'.setMe { m with pc := m.pc + 2 }) := by
  rw [execOut_of_read ha, hs]
  exact congrArg _ (State.advancePc_setMe m 2 hc)

/-- A send through a router without `atomicDelivery` (R93, R98). -/
theorem send_router_outbox {v : Int} {s : State} {r : Router} {σ : RouterState} {ds : List (Dest × Int)}
    (ho : s.outputOf s.cur = .router r) (hr : routerOnSend r s.me.router v = (σ, ds))
    (hmay : ∀ dx ∈ ds, s.routerMaySend s.cur dx.1 = true) (hat : s.params.atomicDelivery = false) :
    send v s = .next (s.setMe { s.me with router := σ, outbox := s.me.outbox ++ ds }) := by
  have hall : ds.all (fun dx => s.routerMaySend s.cur dx.1) = true := List.all_eq_true.2 hmay
  simp [send, ho, hr, hall, hat]

/-- Settles O19: the send is to the queue, the advance to the machine, and neither touches the other. -/
theorem outAppendsToTheWiredQueue : Obligations.OutAppendsToTheWiredQueue := by
  intro s a v q hc ha ho hq
  have hexec := execOut_of_send (s' := s.enqueue q v) ha hc (send_queue ho)
  exact ⟨_, hexec, State.queue_enqueue_self v hq, fun _ => State.queue_enqueue_ne v, rfl, rfl,
    State.me_setMe (s := s.enqueue q v) _ hc, execOut_othersKept hexec⟩

/-- Settles O20, as O19 with the host's log for the queue. -/
theorem outReachesTheHost : Obligations.OutReachesTheHost := by
  intro s a v hc ha ho
  have hexec := execOut_of_send (s' := { s with hostOut := s.hostOut ++ [(s.cur, v)] }) ha hc (send_host ho)
  exact ⟨_, hexec, rfl, rfl, rfl, State.me_setMe (s := { s with hostOut := _ }) _ hc, execOut_othersKept hexec⟩

/-- Settles O21: `noData`, the router's answer and the advance are one update of the machine. -/
theorem outThroughARouterFillsTheOutbox : Obligations.OutThroughARouterFillsTheOutbox := by
  intro s a v r σ ds hc ha ho hr hmay hat
  have hme := State.me_setMe { s.me with noData := 0 } hc
  have hsend := send_router_outbox (s := s.setMe { s.me with noData := 0 }) (v := v) ho (by rw [hme]; exact hr) hmay hat
  rw [hme, State.setMe_setMe] at hsend
  exact ⟨_, execOut_of_send ha hc hsend, PortsKept.setMe _ _, OthersKept.setMe _ _, State.me_setMe _ hc⟩

end Sys2Proof.Machine

/-! ### Jumps -/

namespace Sys2Proof.Machine

/-- The one effect of JNZ and JZ (R76, R77): the target is the second operand, unchecked (R78), where the tested
proposition holds of the first. -/
theorem jumpIf_decide_goes (p : Int → Prop) [DecidablePred p] {a b : ReadOp} {s : State} {x y : Int}
    (ha : readOperand s.me a = some x) (hb : readOperand s.me b = some y) :
    jumpIf (fun x => decide (p x)) a b s =
      .next (s.setMe { s.me with pc := if p x then y else s.me.pc + 3 }) := by
  simp only [jumpIf_goes _ ha hb, decide_eq_true_eq]

/-- Settles O23, as one jump under the two tests. -/
theorem jumpsTestAndGo : Obligations.JumpsTestAndGo :=
  fun _ _ _ _ _ ha hb => ⟨jumpIf_decide_goes (· ≠ 0) ha hb, jumpIf_decide_goes (· = 0) ha hb⟩

end Sys2Proof.Machine

/-! ### Comparisons -/

namespace Sys2Proof.Machine

/-- The one effect of LT and EQ (R79, R80, R20): the stored word is 1 where the tested proposition holds of the
operands, else 0. -/
theorem computeAndStore_decide_storedOnly (p : Int → Int → Prop) [DecidableRel p] {a b : ReadOp} {t : WriteOp}
    {s : State} {x y : Int} (hc : s.cur < s.machines.length) (hm : s.me.mem.wf) (ha : readOperand s.me a = some x)
    (hb : readOperand s.me b = some y) (ht : 0 ≤ targetAddr s.me t) :
    ∃ u, computeAndStore (fun x y => truthWord (decide (p x y))) a b t s = .next u ∧
      StoredOnly s u (targetAddr s.me t) (if p x y then 1 else 0) 4 := by
  rw [← truthWord_decide (p x y)]
  exact computeAndStore_storedOnly _ hc hm ha hb ht

/-- Settles O14, as one store under the two tests. -/
theorem comparisonsStoreTheirTruth : Obligations.ComparisonsStoreTheirTruth :=
  fun _ _ _ _ _ _ hc hm ha hb ht =>
    ⟨computeAndStore_decide_storedOnly (· < ·) hc hm ha hb ht, computeAndStore_decide_storedOnly (· = ·) hc hm ha hb ht⟩

end Sys2Proof.Machine

/-! ### The relative base -/

namespace Sys2Proof.Machine

/-- Settles O24: the operand is read in the state before, so with the old `rb`, and the rest is one update of the
machine. -/
theorem arbAddsToTheRelativeBase : Obligations.ArbAddsToTheRelativeBase := by
  intro s a x ha
  calc exec (.arb a) s
      = execArb a s := rfl
    _ = .next (s.setMe { s.me with rb := s.me.rb + x, pc := s.me.pc + 2 }) := withOperand_some _ ha

end Sys2Proof.Machine

/-! ### Halt -/

namespace Sys2Proof.Machine

/-- HLT as one update of the machine, in which `status` alone differs (R82). -/
theorem exec_hlt (s : State) : exec .hlt s = .next (s.setMe { s.me with status := .halted }) := rfl

/-- Settles O25: an update of the machine leaves the other machines and the ports. -/
theorem hltOnlyHalts : Obligations.HltOnlyHalts := fun s hc =>
  ⟨_, exec_hlt s, State.me_setMe _ hc, OthersKept.setMe _ _, PortsKept.setMe _ _⟩

end Sys2Proof.Machine

/-! ### Faults, delivery and the agents of a system -/

namespace Sys2Proof.Machine

/-! #### Delivery in the step of OUT -/

/-- A delivery list has no word for a queue that does not exist where its router may send all of it (R97). -/
theorem wordsFor_eq_nil_of_not_lt {s : State} {i q : Nat} {ds : List (Dest × Int)} (hq : ¬ q < s.queues.length)
    (hmay : ∀ dx ∈ ds, s.routerMaySend i dx.1 = true) : wordsFor q ds = [] := by
  refine List.filterMap_eq_nil_iff.2 fun dx hdx => if_neg fun hd => hq ?_
  have hsend := hmay dx hdx
  rw [hd] at hsend
  simp only [State.routerMaySend, Bool.and_eq_true, decide_eq_true_eq] at hsend
  exact hsend.1

/-- A send through a router with `atomicDelivery` (R93, R98). -/
theorem send_router_atomic {v : Int} {s : State} {r : Router} {σ : RouterState} {ds : List (Dest × Int)}
    (ho : s.outputOf s.cur = .router r) (hr : routerOnSend r s.me.router v = (σ, ds))
    (hmay : ∀ dx ∈ ds, s.routerMaySend s.cur dx.1 = true) (hat : s.params.atomicDelivery = true) :
    send v s = .next ((s.setMe { s.me with router := σ }).deliverAll s.cur ds) := by
  have hall : ds.all (fun dx => s.routerMaySend s.cur dx.1) = true := List.all_eq_true.2 hmay
  simp [send, ho, hr, hall, hat]

/-- Settles O22: the deliveries touch the ports alone, and `noData`, the router's answer and the advance are one update
of the machine. -/
theorem outThroughAnAtomicRouterDeliversAtOnce : Obligations.OutThroughAnAtomicRouterDeliversAtOnce := by
  intro s a v r σ ds hc ha ho hr hmay hat
  have hme := State.me_setMe { s.me with noData := 0 } hc
  have hsend := send_router_atomic (s := s.setMe { s.me with noData := 0 }) (v := v) ho (by rw [hme]; exact hr) hmay hat
  rw [hme, State.setMe_setMe, State.setMe_cur, State.deliverAll_setMe] at hsend
  have hc' : (s.deliverAll s.cur ds).cur < (s.deliverAll s.cur ds).machines.length := by simpa using hc
  have hexec := execOut_of_send ha hc' hsend
  refine ⟨_, hexec, execOut_othersKept hexec, State.me_setMe _ hc', fun q => ?_, State.hostOut_deliverAll ds s.cur s⟩
  refine (State.queue_deliverAll ds s.cur q s).trans ?_
  split
  · rfl
  · next hq => rw [← wordsFor, wordsFor_eq_nil_of_not_lt hq hmay, List.append_nil]

/-! #### Faults are precise -/

theorem send_status {v : Int} {s u : State} (hc : s.cur < s.machines.length) (h : send v s = .next u) :
    u.me.status = s.me.status := by
  rw [send_me hc h]

/-- OUT enters its fault in the state it starts from, or leaves the status. -/
theorem execOut_fault_or_status {a : ReadOp} {s u : State} (hc : s.cur < s.machines.length)
    (h : execOut a s = .next u) :
    u = s.afterFault .invalidAddress ∨ u.me.status = s.me.status := by
  rcases execOut_cases h with ⟨_, rfl⟩ | ⟨v, s', _, hs, rfl⟩
  · exact .inl rfl
  · have hc0 : s.cur < (s.setMe { s.me with noData := 0 }).machines.length := by simpa using hc
    exact .inr <| calc (s'.advancePc 2).me.status = s'.me.status := State.me_setMe_field (·.status) rfl
      _ = (s.setMe { s.me with noData := 0 }).me.status := send_status hc0 hs
      _ = s.me.status := State.me_setMe_field (·.status) rfl

/-- An instruction that is not IN enters its fault in the state it starts from, or leaves the status, or halts. -/
theorem exec_fault_or_status {i : Instr} {s u : State} (hc : s.cur < s.machines.length) (hin : ∀ t, i ≠ .inp t)
    (h : exec i s = .next u) :
    u = s.afterFault .invalidAddress ∨ u.me.status = s.me.status ∨ u.me.status = .halted := by
  cases i with
  | add | mul | lt | eq =>
    exact (computeAndStore_cases h).imp_right fun ⟨_, _, _, _, _, hu⟩ =>
      .inl (by rw [hu]; exact State.me_setMe_field (·.status) rfl)
  | jnz | jz =>
    exact (jumpIf_cases h).imp_right fun ⟨_, _, _, _, hu⟩ =>
      .inl (by rw [hu]; exact State.me_setMe_field (·.status) rfl)
  | arb =>
    rcases execArb_cases h with ⟨_, rfl⟩ | ⟨_, _, rfl⟩
    · exact .inl rfl
    · exact .inr (.inl (State.me_setMe_field (·.status) rfl))
  | out => exact (execOut_fault_or_status hc h).imp_right .inl
  | hlt => cases h; exact .inr (.inr (by rw [State.me_setMe _ hc]))
  | inp t => exact absurd rfl (hin t)

/-- IN enters its fault once it has received, or leaves the status. -/
theorem execInp_fault_or_status {t : WriteOp} {s u : State} (hc : s.cur < s.machines.length)
    (h : execInp t s = .next u) :
    (∃ v s', InTakes s v s' ∧ u = s'.afterFault .invalidAddress) ∨ u.me.status = s.me.status := by
  rcases execInp_cases h with ⟨_, _, rfl⟩ | ⟨v, s', hin, hstore⟩
  · exact .inr rfl
  · rcases storeAndAdvance_cases hstore with ⟨_, rfl⟩ | ⟨_, rfl⟩
    · exact .inl ⟨v, s', hin, rfl⟩
    · have hst : s'.me.status = s.me.status := by rw [hin.me hc]
      exact .inr (by rw [← hst]; exact State.me_setMe_field (·.status) rfl)

/-- Every way in which a Running machine's instruction step can leave it Faulted: the state the fault is entered from is
the one before, or the one in which IN has received and not stored (R84, R85). -/
theorem runInstruction_cases_of_faulted {s u : State} {k : FaultKind} {pc : Int} (hc : s.cur < s.machines.length)
    (hrun : s.me.status = .running) (h : runInstruction s = .next u) (hf : u.me.status = .faulted k pc) :
    (∃ k', u = s.afterFault k') ∨
      ∃ t v s', fetch s.me = .ok (.inp t) ∧ InTakes s v s' ∧ u = s'.afterFault .invalidAddress := by
  cases hfetch : fetch s.me with
  | error k' =>
    rw [runInstruction_of_error hfetch] at h
    cases h
    exact .inl ⟨k', rfl⟩
  | ok i =>
    rw [runInstruction_of_ok hfetch] at h
    by_cases hin : ∃ t, i = .inp t
    · obtain ⟨t, rfl⟩ := hin
      rcases execInp_fault_or_status hc h with ⟨v, s', htakes, rfl⟩ | hst
      · exact .inr ⟨t, v, s', rfl, htakes, rfl⟩
      · rw [hst, hrun] at hf; cases hf
    · rcases exec_fault_or_status hc (fun t e => hin ⟨t, e⟩) h with rfl | hst | hst
      · exact .inl ⟨_, rfl⟩
      · rw [hst, hrun] at hf; cases hf
      · rw [hst] at hf; cases hf

/-- Settles O29: fault entry is one update of the machine, and before it IN has touched its queue and `noData` alone. -/
theorem faultsArePrecise : Obligations.FaultsArePrecise := by
  intro s u k pc hc hrun h hf
  rcases runInstruction_cases_of_faulted hc hrun h hf with ⟨k', rfl⟩ | ⟨t, v, s', hfetch, htakes, rfl⟩
  · rw [State.me_afterFault k' hc] at hf ⊢
    cases hf
    exact ⟨rfl, rfl, rfl, rfl, rfl, rfl, rfl, rfl, OthersKept.afterFault s k, fun _ _ => rfl, .inl rfl, fun _ => rfl⟩
  · have hk := htakes.othersKept
    have hc' : s'.cur < s'.machines.length := by rwa [hk.cur, hk.count]
    rw [State.me_afterFault _ hc', htakes.me hc] at hf ⊢
    cases hf
    have hinput : (s'.afterFault .invalidAddress).inputQueue s.cur = s'.inputQueue s.cur := rfl
    exact ⟨rfl, rfl, rfl, rfl, rfl, rfl, htakes.hostOut, htakes.quiesced, hk.trans (OthersKept.afterFault s' _),
      fun _ hq => htakes.queue_ne hq, hinput ▸ htakes.inputQueue, fun hno => absurd hfetch (hno t)⟩

/-! #### Terminal machines -/

theorem runInstruction_othersKept {s u : State} (h : runInstruction s = .next u) : OthersKept s u := by
  rcases runInstruction_cases h with ⟨k, rfl⟩ | ⟨i, hx⟩
  · exact OthersKept.afterFault s k
  · exact exec_othersKept hx

theorem MachineState.ready_eq_false_of_status {m : MachineState} (h : m.status ≠ .running) : m.ready = false := by
  simp [MachineState.ready, h]

theorem MachineState.ready_eq_false_of_outbox {m : MachineState} (h : m.outbox ≠ []) : m.ready = false := by
  simp [MachineState.ready, h]

/-- A machine that is not ready has no instruction step, and its turn changes nothing (log 6). -/
theorem machineStep_of_not_ready {s : State} {i : Nat} (h : (s.machine i).ready = false) :
    s.machineEnabled i = false ∧ machineStep i s = .next s :=
  ⟨by simp [State.machineEnabled, h], if_neg (by simp [h])⟩

theorem deliverStep_of_nil {s : State} {i : Nat} (h : (s.machine i).outbox = []) : deliverStep i s = .next s := by
  rw [deliverStep, h]

theorem deliverStep_of_cons {s : State} {i : Nat} {d : Dest} {x : Int} {rest : List (Dest × Int)}
    (h : (s.machine i).outbox = (d, x) :: rest) :
    deliverStep i s = .next ((s.setMachine i { s.machine i with outbox := rest }).deliver i d x) := by
  rw [deliverStep, h]

/-- Another machine's turn changes nothing of machine `i` (R42). -/
theorem machineStep_machine_ne {s u : State} {i k : Nat} (hik : i ≠ k) (h : machineStep k s = .next u) :
    u.machine i = s.machine i := by
  rcases machineStep_cases h with ⟨_, _, hrun⟩ | rfl
  · exact (runInstruction_othersKept hrun).machines i hik
  · rfl

/-- Another machine's delivery changes nothing of machine `i`. -/
theorem deliverStep_machine_ne {s u : State} {i k : Nat} (hik : i ≠ k) (h : deliverStep k s = .next u) :
    u.machine i = s.machine i := by
  rcases deliverStep_cases h with rfl | ⟨d, x, rest, _, rfl⟩
  · rfl
  · rw [State.machine_of_machines (State.deliver_machines _ _ _ _), State.machine_setMachine_ne _ hik]

/-- No agent changes anything of a machine that is not Running and has delivered all (R86). -/
theorem stepEvent_machine_of_not_running {s u : State} {i : Nat} (e : Event) (hst : (s.machine i).status ≠ .running)
    (hob : (s.machine i).outbox = []) (h : stepEvent e s = .next u) : u.machine i = s.machine i := by
  cases e with
  | machine k =>
    by_cases hik : i = k
    · subst hik
      have hturn := (machineStep_of_not_ready (MachineState.ready_eq_false_of_status hst)).2
      cases h.symm.trans hturn
      rfl
    · exact machineStep_machine_ne hik h
  | deliver k =>
    by_cases hik : i = k
    · subst hik
      cases h.symm.trans (deliverStep_of_nil hob)
      rfl
    · exact deliverStep_machine_ne hik h
  | orchestrator => exact State.machine_of_machines (orchestratorStep_machines h) i
  | hostAppend => exact State.machine_of_machines (hostAppendStep_machines h) i
  | teardown => cases h; rfl

/-- In a state that meets the invariant a machine that is not Running has delivered all it sent. -/
theorem State.Inv.outbox_of_not_running {s : State} (h : s.Inv) {i : Nat} (hi : i < s.machines.length)
    (hst : (s.machine i).status ≠ .running) : (s.machine i).outbox = [] :=
  by_contra fun hne => hst ((h.soundAt hi).outbox hne)

theorem step_machine_of_not_running {s u : State} {i : Nat} (h : s.Inv) (hi : i < s.machines.length)
    (hst : (s.machine i).status ≠ .running) (hstep : step s = .next u) : u.machine i = s.machine i := by
  obtain ⟨_, _, hevent⟩ := step_cases hstep
  exact stepEvent_machine_of_not_running (s := { s with agenda := s.agenda.tail }) _ hst
    (h.outbox_of_not_running hi hst) hevent

/-- Settles O39: a machine that is not Running is not ready and has an empty outbox. -/
theorem terminalMachinesNeverChange : Obligations.TerminalMachinesNeverChange := by
  intro s i h hi hst
  have hob := h.outbox_of_not_running hi hst
  obtain ⟨hdisabled, hturn⟩ := machineStep_of_not_ready (MachineState.ready_eq_false_of_status hst)
  exact ⟨hdisabled, by simp [State.deliverEnabled, hob], hturn, deliverStep_of_nil hob,
    fun u hstep => step_machine_of_not_running h hi hst hstep⟩

/-! #### Queues are first in, first out -/

/-- Every queue and the host's log grow at their tails at most (R94). -/
structure PortsGrow (s t : State) : Prop where
  queues (q : Nat) : ∃ vs, t.queue q = s.queue q ++ vs
  hostOut : ∃ sent, t.hostOut = s.hostOut ++ sent

theorem PortsGrow.of_eq {s t : State} (hq : t.queues = s.queues) (hout : t.hostOut = s.hostOut) : PortsGrow s t where
  queues q := ⟨[], by rw [State.queue_of_queues hq, List.append_nil]⟩
  hostOut := ⟨[], by rw [hout, List.append_nil]⟩

theorem PortsKept.grow {s t : State} (h : PortsKept s t) : PortsGrow s t := .of_eq h.queues h.hostOut

theorem PortsGrow.refl (s : State) : PortsGrow s s := .of_eq rfl rfl

theorem PortsGrow.trans {s t u : State} (h : PortsGrow s t) (h' : PortsGrow t u) : PortsGrow s u where
  queues q := by
    obtain ⟨vs, hvs⟩ := h.queues q
    obtain ⟨ws, hws⟩ := h'.queues q
    exact ⟨vs ++ ws, by rw [hws, hvs, List.append_assoc]⟩
  hostOut := by
    obtain ⟨sent, hs⟩ := h.hostOut
    obtain ⟨more, hm⟩ := h'.hostOut
    exact ⟨sent ++ more, by rw [hm, hs, List.append_assoc]⟩

theorem PortsGrow.setMachine (s : State) (i : Nat) (m : MachineState) : PortsGrow s (s.setMachine i m) :=
  .of_eq rfl rfl

theorem PortsGrow.deliverAll (s : State) (i : Nat) (ds : List (Dest × Int)) : PortsGrow s (s.deliverAll i ds) where
  queues q := by
    rw [State.queue_deliverAll]
    split
    · exact ⟨_, rfl⟩
    · exact ⟨[], (List.append_nil _).symm⟩
  hostOut := ⟨_, State.hostOut_deliverAll ds i s⟩

theorem PortsGrow.deliver (s : State) (i : Nat) (d : Dest) (x : Int) : PortsGrow s (s.deliver i d x) :=
  PortsGrow.deliverAll s i [(d, x)]

theorem send_portsGrow {v : Int} {s u : State} (h : send v s = .next u) : PortsGrow s u := by
  rcases send_cases h with ⟨q, _, rfl⟩ | ⟨_, rfl⟩ | ⟨r, _, _, ⟨_, rfl⟩ | ⟨_, rfl⟩⟩
  · exact PortsGrow.deliver s s.cur (.queue q) v
  · exact PortsGrow.deliver s s.cur .host v
  · exact (PortsGrow.setMachine _ _ _).trans (PortsGrow.deliverAll _ _ _)
  · exact PortsGrow.setMachine _ _ _

/-- Only IN takes from a queue. -/
theorem exec_portsGrow {i : Instr} {s u : State} (hin : ∀ t, i ≠ .inp t) (h : exec i s = .next u) : PortsGrow s u := by
  cases i with
  | add | mul | lt | eq => exact (computeAndStore_frame h).2.grow
  | jnz | jz => exact (jumpIf_frame h).2.grow
  | arb => exact (execArb_frame h).2.grow
  | hlt => cases h; exact PortsGrow.setMachine _ _ _
  | out =>
    rcases execOut_cases h with ⟨_, rfl⟩ | ⟨v, s', _, hs, rfl⟩
    · exact PortsGrow.setMachine _ _ _
    · exact ((PortsGrow.setMachine _ _ _).trans (send_portsGrow hs)).trans (PortsGrow.setMachine _ _ _)
  | inp t => exact absurd rfl (hin t)

/-- Machine `i`'s instruction is IN, and all that happens at the ports is that it takes the head of its queue (R95). -/
structure TakesHead (s t : State) (i : Nat) : Prop where
  isIn    : ∃ w, fetch (s.machine i) = .ok (.inp w)
  head    : ∃ v, s.queue (s.inputOf i) = v :: t.queue (s.inputOf i)
  others  : ∀ q, q ≠ s.inputOf i → t.queue q = s.queue q
  hostOut : t.hostOut = s.hostOut

theorem TakesHead.trans_portsKept {s t u : State} {i : Nat} (h : TakesHead s t i) (h' : PortsKept t u) :
    TakesHead s u i where
  isIn := h.isIn
  head := by rw [State.queue_of_queues h'.queues]; exact h.head
  others q hq := (State.queue_of_queues h'.queues q).trans (h.others q hq)
  hostOut := h'.hostOut.trans h.hostOut

/-- A receive takes the head of its queue, or is a poll, which leaves the ports. -/
theorem InTakes.portsKept_or_takesHead {s s' : State} {v : Int} {t : WriteOp} (h : InTakes s v s')
    (hfetch : fetch s.me = .ok (.inp t)) : PortsKept s s' ∨ TakesHead s s' s.cur := by
  cases h with
  | @value vs hq =>
    have hlt : s.inputOf s.cur < s.queues.length :=
      State.queue_lt_of_ne_nil (ne_of_eq_of_ne hq (List.cons_ne_nil v vs))
    have hrest : (s.setQueue (s.inputOf s.cur) vs).queue (s.inputOf s.cur) = vs := State.queue_setQueue_self vs hlt
    exact .inr ⟨⟨t, hfetch⟩, ⟨v, hq.trans (congrArg (v :: ·) hrest.symm)⟩, fun _ => State.queue_setQueue_ne vs, rfl⟩
  | poll => exact .inl (PortsKept.setMe _ _)

/-- What an instruction step can do at the ports. -/
theorem runInstruction_portsGrow_or_takesHead {s u : State} (h : runInstruction s = .next u) :
    PortsGrow s u ∨ TakesHead s u s.cur := by
  cases hfetch : fetch s.me with
  | error k =>
    rw [runInstruction_of_error hfetch] at h
    cases h
    exact .inl (PortsKept.afterFault s k).grow
  | ok i =>
    rw [runInstruction_of_ok hfetch] at h
    by_cases hin : ∃ t, i = .inp t
    · obtain ⟨t, rfl⟩ := hin
      rcases execInp_cases h with ⟨_, _, rfl⟩ | ⟨v, s', htakes, hstore⟩
      · exact .inl (.refl _)
      · have hkept := (storeAndAdvance_frame hstore).2
        exact (htakes.portsKept_or_takesHead hfetch).imp (fun hk => hk.grow.trans hkept.grow)
          (fun hhead => hhead.trans_portsKept hkept)
    · exact .inl (exec_portsGrow (fun t e => hin ⟨t, e⟩) h)

/-- What each agent's step can do at the ports. -/
theorem stepEvent_portsGrow_or_takesHead {e : Event} {s u : State} (h : stepEvent e s = .next u) :
    PortsGrow s u ∨ ∃ i, e = .machine i ∧ TakesHead s u i := by
  cases e with
  | machine i =>
    rcases machineStep_cases h with ⟨_, _, hrun⟩ | rfl
    · rcases runInstruction_portsGrow_or_takesHead hrun with hg | hhead
      · exact .inl ⟨hg.queues, hg.hostOut⟩
      · exact .inr ⟨i, rfl, hhead.isIn, hhead.head, hhead.others, hhead.hostOut⟩
    · exact .inl (.refl _)
  | deliver i =>
    rcases deliverStep_cases h with rfl | ⟨d, x, rest, _, rfl⟩
    · exact .inl (.refl _)
    · exact .inl ((PortsGrow.setMachine s i _).trans (PortsGrow.deliver _ i d x))
  | orchestrator => rcases orchestratorStep_cases h with ⟨_, rfl⟩ | ⟨_, _, rfl⟩ | rfl <;> exact .inl (.of_eq rfl rfl)
  | hostAppend q v =>
    rcases hostAppendStep_cases h with ⟨_, rfl⟩ | rfl
    · exact .inl (PortsGrow.deliver s 0 (.queue q) v)
    · exact .inl (.refl _)
  | teardown => cases h; exact .inl (.of_eq rfl rfl)

/-- Settles O41: the ports only grow, but for the head that IN takes. -/
theorem queuesAreFifo : Obligations.QueuesAreFifo := by
  intro s u hstep
  obtain ⟨_, _, hevent⟩ := step_cases hstep
  rcases stepEvent_portsGrow_or_takesHead hevent with hgrow | ⟨i, hev, hhead⟩
  · refine ⟨fun q => ?_, hgrow.hostOut⟩
    obtain ⟨vs, hvs⟩ := hgrow.queues q
    by_cases hnil : vs = []
    · exact .inl (by rw [hvs, hnil, List.append_nil]; rfl)
    · exact .inr (.inr ⟨vs, hnil, hvs⟩)
  · refine ⟨fun q => ?_, [], hhead.hostOut.trans (List.append_nil _).symm⟩
    by_cases hq : q = s.inputOf i
    · subst hq
      obtain ⟨t, ht⟩ := hhead.isIn
      obtain ⟨v, hv⟩ := hhead.head
      exact .inr (.inl ⟨i, v, t, hev, rfl, ht, hv⟩)
    · exact .inl (hhead.others q hq)

/-! #### Delivery steps and the host's appends -/

/-- Settles O40: a machine with undelivered values is not ready. -/
theorem deliveryStepsEmptyTheOutboxInOrder : Obligations.DeliveryStepsEmptyTheOutboxInOrder := by
  intro s i d x rest hi hob
  have hne : (s.machine i).outbox ≠ [] := ne_of_eq_of_ne hob (List.cons_ne_nil _ rest)
  obtain ⟨hdisabled, hturn⟩ := machineStep_of_not_ready (MachineState.ready_eq_false_of_outbox hne)
  refine ⟨hturn, hdisabled, _, deliverStep_of_cons hob, ?_, fun j hj => ?_, State.queue_deliver _ i d x,
    State.hostOut_deliver _ i d x⟩ <;> rw [State.machine_of_machines (State.deliver_machines _ _ _ _)]
  · exact State.machine_setMachine_self _ hi
  · exact State.machine_setMachine_ne _ hj

theorem State.hostFeeds_iff (s : State) (q : Nat) :
    s.hostFeeds q = true ↔ q < s.queues.length ∧ Producer.host ∈ (s.queueParams q).producers := by
  simp [State.hostFeeds]

/-- Settles O42. -/
theorem hostAppendsOnlyWhereItIsAProducer : Obligations.HostAppendsOnlyWhereItIsAProducer := by
  intro s q v hq
  refine ⟨fun hmem => ?_, fun hmem => ?_⟩
  · have hfeeds : s.hostFeeds q = true := (s.hostFeeds_iff q).2 ⟨hq, hmem⟩
    exact ⟨s.enqueue q v, if_pos hfeeds, State.queue_enqueue_self v hq, fun _ => State.queue_enqueue_ne v, rfl, rfl⟩
  · exact if_neg fun hfeeds => hmem ((s.hostFeeds_iff q).1 hfeeds).2

/-! #### Where a step is refused -/

/-- A send through a router that would send where it may not (R97; log 16). -/
theorem send_router_refused {v : Int} {s : State} {r : Router} (ho : s.outputOf s.cur = .router r)
    (hno : ∃ dx ∈ (routerOnSend r s.me.router v).2, s.routerMaySend s.cur dx.1 = false) :
    send v s = .refused .undeclaredProducer := by
  have hall : ((routerOnSend r s.me.router v).2.all fun dx => s.routerMaySend s.cur dx.1) = false :=
    List.all_eq_false.2 (by simpa using hno)
  simp [send, ho, hall]

/-- IN at an empty `Polling` queue without `noDataValue` (UD9; log 11). -/
theorem execInp_refused {s : State} {t : WriteOp} (hq : s.inputQueue s.cur = []) (hp : s.disciplineOf s.cur = .polling)
    (hd : s.params.noDataValue = none) : execInp t s = .refused .noDataValueNotChosen := by
  simp only [execInp, hq, hp, hd]

/-- Settles O31. -/
theorem openParametersAndUndeclaredSendsStopByName : Obligations.OpenParametersAndUndeclaredSendsStopByName := by
  refine fun s => ⟨fun t hq hp hd => execInp_refused hq hp hd, fun a v r hc ha ho hno => ?_, fun hf hp => ?_⟩
  · have hme := State.me_setMe { s.me with noData := 0 } hc
    have hsend := send_router_refused (s := s.setMe { s.me with noData := 0 }) (v := v) ho (by rw [hme]; exact hno)
    rw [exec, execOut_of_read ha, hsend, andThen]
  · simp [orchestratorStep, hf, hp]

theorem step_of_problem {s : State} {e : ConfigProblem} (h : s.problem = some e) :
    step s = .refused (.illFormedSystem e) := by
  rw [step, advance, h]

theorem newSystem_of_problem {p : Params} {e : ConfigProblem} (h : p.problem = some e) : newSystem p = .error e := by
  rw [newSystem, h]

/-- A system whose parameters are refused is refused (R109). -/
theorem State.problem_of_params {s : State} {e : ConfigProblem} (h : s.params.problem = some e) :
    s.problem = some e := by
  rw [State.problem, h]

/-- Accepted machines have distinct inputs: each queue has one consumer (R94). -/
theorem input_ne_of_lt {s : State} (h : s.params.inputs.Nodup) {i j : Nat} (hij : i < j)
    (hj : j < s.params.machines.length) : s.inputOf i ≠ s.inputOf j := by
  have hi : i < s.params.machines.length := hij.trans hj
  intro heq
  have hinputs : s.params.inputs[i]'(by simpa [Params.inputs] using hi) =
      s.params.inputs[j]'(by simpa [Params.inputs] using hj) := by
    simpa [Params.inputs, State.inputOf, State.machineParams, hi, hj] using heq
  exact absurd ((h.getElem_inj_iff).1 hinputs) hij.ne

/-- Settles O55: accepted parameters pass each of the three checks. -/
theorem badWiringsAreRefused : Obligations.BadWiringsAreRefused := by
  intro s hbad
  have hne : s.params.problem ≠ none := fun hnone => by
    obtain ⟨_, _, hnodup, _, _, hdata, policy, hpolicy⟩ := params_none hnone
    rcases hbad with ⟨i, j, hij, hj, heq⟩ | ⟨hnd, qp, hqp, hpoll⟩ | hpol
    · exact input_ne_of_lt hnodup hij hj heq
    · exact hdata hnd qp hqp hpoll
    · rw [hpol] at hpolicy; cases hpolicy
  obtain ⟨e, he⟩ := Option.ne_none_iff_exists'.1 hne
  exact ⟨⟨e, newSystem_of_problem he⟩, e, step_of_problem (State.problem_of_params he)⟩

/-! #### The orchestrator and the end of a run -/

theorem State.isNetwork_iff (s : State) :
    s.isNetwork = true ↔ ∀ i < s.machines.length, s.disciplineOf i = .polling := by
  simp [State.isNetwork]

theorem State.idle_iff (s : State) (i : Nat) :
    s.idle i = true ↔ s.inputQueue i = [] ∧ (s.machine i).outbox = [] ∧ s.routerPendingAt i = false ∧
      ((s.machine i).status ≠ .running ∨ s.params.idlePolls ≤ (s.machine i).noData) := by
  simp [State.idle, and_assoc]

theorem State.detectEnabled_iff (s : State) :
    s.detectEnabled = true ↔ s.quiesced = false ∧ s.isNetwork = true ∧ ∀ i < s.machines.length, s.idle i = true := by
  simp [State.detectEnabled, and_left_comm, and_assoc]

/-- Detection sets the latch where every machine of a network is idle; where it is set already, that changes nothing. -/
theorem detectStep_of_idle {s : State} (h : s.isNetwork = true ∧ ∀ i < s.machines.length, s.idle i = true) :
    detectStep s = .next { s with quiesced := true } := by
  cases hq : s.quiesced with
  | false => exact if_pos (s.detectEnabled_iff.2 ⟨hq, h⟩)
  | true =>
    have hoff : ¬ s.detectEnabled = true := fun hd => by simpa [hq] using (s.detectEnabled_iff.1 hd).1
    rw [detectStep, if_neg hoff, ← hq]

theorem detectStep_of_not_idle {s : State} (h : ¬ (s.isNetwork = true ∧ ∀ i < s.machines.length, s.idle i = true)) :
    detectStep s = .next s :=
  if_neg fun hd => h (s.detectEnabled_iff.1 hd).2

/-- Where no fault calls for an abort the orchestrator's step is detection (R102, R103). -/
theorem orchestratorStep_eq_detectStep {s : State}
    (h : s.anyFaulted = false ∨ s.params.faultPolicy = some .isolate) : orchestratorStep s = detectStep s := by
  rcases h with h | h <;> simp [orchestratorStep, h]

/-- Settles O46. -/
theorem quiescenceIsDetectedExactlyWhenIdle : Obligations.QuiescenceIsDetectedExactlyWhenIdle := by
  intro s hpolicy
  simp only [orchestratorStep_eq_detectStep hpolicy, ← State.isNetwork_iff, ← State.idle_iff]
  exact ⟨detectStep_of_idle, detectStep_of_not_idle⟩

/-- A stopped system answers its end (R102, R103, R107). -/
theorem step_of_stopped {s : State} (hp : s.problem = none) (h : s.stopped = true) :
    step s = .fault (.runEnded s.classifyEnd) := step_ended hp (runEnd_stopped h)

/-- R116's line `Faulted` asks that no machine is Running (log 18). -/
theorem endsFaulted_eq_false {s : State}
    (h : s.anyFaulted = false ∨ ∃ i < s.machines.length, (s.machine i).status = .running) : s.endsFaulted = false := by
  rcases h with h | h
  · simp [State.endsFaulted, h]
  · simp [State.endsFaulted, allEnded_false h]

/-- Settles O47. -/
theorem quiescenceEndsTheNetwork : Obligations.QuiescenceEndsTheNetwork := by
  intro s hp hq
  refine ⟨fun hidle ha ht hrun => ?_, fun hidle q v => by simp [hidle]⟩
  have hend : s.classifyEnd = .quiesced := by simp [State.classifyEnd, ha, endsFaulted_eq_false hrun, ht, hq, hidle]
  rw [step_of_stopped hp (by simp [State.stopped, hq, hidle]), hend]

theorem orchestratorStep_of_abortAll {s : State} (hf : s.anyFaulted = true)
    (hpolicy : s.params.faultPolicy = some .abortAll) : orchestratorStep s = .next { s with aborted := true } := by
  simp [orchestratorStep, hf, hpolicy]

/-- Settles O48: the abort is a latch that no acceptance check reads, and R116's first line. -/
theorem faultPolicyDecidesTheAbort : Obligations.FaultPolicyDecidesTheAbort := by
  intro s hp hf
  refine ⟨fun hpolicy => ⟨orchestratorStep_of_abortAll hf hpolicy, ?_⟩, fun hpolicy u hstep => ?_⟩
  · exact step_of_stopped (s := { s with aborted := true }) hp rfl
  · rcases orchestratorStep_cases hstep with ⟨_, rfl⟩ | ⟨_, habort, _⟩ | rfl
    · rfl
    · rw [hpolicy] at habort; cases habort
    · rfl

/-- Settles O49: the latch `tornDown` stops the system, and is R116's line after `Aborted` and `Faulted`. -/
theorem teardownEndsTheRun : Obligations.TeardownEndsTheRun := by
  intro s hp
  have hstep : step { s with tornDown := true } = _ :=
    step_of_stopped (s := { s with tornDown := true }) hp (by simp [State.stopped])
  refine ⟨_, rfl, rfl, rfl, rfl, ⟨_, hstep⟩, fun ha hrun => ?_⟩
  have hends : ({ s with tornDown := true } : State).endsFaulted = false := endsFaulted_eq_false (.inr hrun)
  have hend : ({ s with tornDown := true } : State).classifyEnd = .tornDown := by
    rw [State.classifyEnd, hends]
    simp [ha]
  rw [hstep, hend]

/-! #### What `run` returns -/

/-- What `run` returns for a machine whose status has left Running (R105). -/
theorem MachineState.result_eq_some_iff (m : MachineState) (r : RunResult) :
    m.result = some r ↔ (m.status = .halted ∧ r = .ok m.mem) ∨
      ∃ kind pc, m.status = .faulted kind pc ∧ r = .err kind pc := by
  unfold MachineState.result
  cases m.status <;> simp [eq_comm]

theorem MachineState.status_of_result {m : MachineState} {r : RunResult} (h : m.result = some r) :
    m.status ≠ .running := fun hrun => by
  simp [MachineState.result, hrun] at h

theorem runMachine_of_result {s : State} {i : Nat} {r : RunResult} (h : (s.machine i).result = some r) (fuel : Nat) :
    runMachine fuel i s = some r := by
  cases fuel with
  | zero => exact h
  | succ fuel => rw [runMachine, h]

/-- `run` on a machine that has no result yet goes on after the system's step. -/
theorem runMachine_of_step {s s' : State} {i fuel : Nat} (h : (s.machine i).result = none) (hs : step s = .next s') :
    runMachine (fuel + 1) i s = runMachine fuel i s' := by
  rw [step] at hs
  rw [runMachine, h, hs]

/-- `run` returns nothing for a machine that has no result yet where the system has no step. -/
theorem exists_step_of_runMachine {s : State} {i fuel : Nat} {r : RunResult} (h : (s.machine i).result = none)
    (hr : runMachine (fuel + 1) i s = some r) : ∃ s', step s = .next s' := by
  rw [runMachine, h] at hr
  cases hs : advance s with
  | next s' => exact ⟨s', hs⟩
  | fault f => rw [hs] at hr; cases hr
  | refused f => rw [hs] at hr; cases hr

/-- A run of `k + 1` steps after its first one. -/
theorem core_run_succ {M : Host.Core} {s s' : M.State} (k : Nat) (hs : M.step s = .next s') :
    M.run (k + 1) s = M.run k s' := by
  rw [Host.Core.run, hs]

/-- A run of `k + 1` steps that answers a next state begins with a step that does. -/
theorem core_run_succ_cases {M : Host.Core} {s u : M.State} {k : Nat} (h : M.run (k + 1) s = .next u) :
    ∃ s', M.step s = .next s' ∧ M.run k s' = .next u := by
  rw [Host.Core.run] at h
  cases hs : M.step s with
  | next s' => rw [hs] at h; exact ⟨s', rfl, h⟩
  | fault f => rw [hs] at h; cases h
  | refused f => rw [hs] at h; cases h

/-- What `run` returns is the result of a state the system's steps lead to. -/
theorem exists_run_of_runMachine {fuel i : Nat} {s : State} {r : RunResult} (h : runMachine fuel i s = some r) :
    ∃ k u, k ≤ fuel ∧ Host.Core.run Sys2Proof.core k s = .next u ∧ (u.machine i).result = some r := by
  induction fuel generalizing s with
  | zero => exact ⟨0, s, le_rfl, rfl, h⟩
  | succ fuel ih =>
    cases hres : (s.machine i).result with
    | some r' =>
      rw [runMachine_of_result hres] at h
      exact ⟨0, s, Nat.zero_le _, rfl, hres.trans h⟩
    | none =>
      obtain ⟨s', hs⟩ := exists_step_of_runMachine hres h
      obtain ⟨k, u, hk, hrun, hu⟩ := ih (runMachine_of_step hres hs ▸ h)
      exact ⟨k + 1, u, Nat.succ_le_succ hk, (core_run_succ k hs).trans hrun, hu⟩

theorem lt_of_not_running {s : State} {i : Nat} (h : (s.machine i).status ≠ .running) : i < s.machines.length :=
  by_contra fun hi => h (by rw [State.machine_of_not_lt hi]; rfl)

/-- A machine that is not Running stays as it is along every run of the system (R86). -/
theorem run_machine_of_not_running {k i : Nat} {s u : State} (h : s.Inv) (hst : (s.machine i).status ≠ .running)
    (hrun : Host.Core.run Sys2Proof.core k s = .next u) : u.machine i = s.machine i := by
  induction k generalizing s with
  | zero => cases hrun; rfl
  | succ k ih =>
    obtain ⟨s', hs, hrun⟩ := core_run_succ_cases hrun
    have hm := step_machine_of_not_running h (lt_of_not_running hst) hst hs
    rw [← hm]
    exact ih (everyStepKeepsTheInvariant s s' h hs) (hm ▸ hst) hrun

/-- `run` returns the result of a state the system's steps lead to within the bound. -/
theorem runMachine_of_run {k i fuel : Nat} {s u : State} {r : RunResult} (h : s.Inv) (hk : k ≤ fuel)
    (hrun : Host.Core.run Sys2Proof.core k s = .next u) (hu : (u.machine i).result = some r) :
    runMachine fuel i s = some r := by
  induction k generalizing s fuel with
  | zero => cases hrun; exact runMachine_of_result hu fuel
  | succ k ih =>
    cases hres : (s.machine i).result with
    | some r' =>
      rw [run_machine_of_not_running h (MachineState.status_of_result hres) hrun] at hu
      exact runMachine_of_result hu fuel
    | none =>
      obtain ⟨s', hs, hrun⟩ := core_run_succ_cases hrun
      obtain ⟨fuel, rfl⟩ : ∃ n, fuel = n + 1 := ⟨fuel - 1, by omega⟩
      rw [runMachine_of_step hres hs]
      exact ih (everyStepKeepsTheInvariant s s' h hs) (Nat.le_of_succ_le_succ hk) hrun

/-- Settles O53: a machine with a result keeps it, so that the first state with one and the last agree. -/
theorem runReturnsTheMachinesResult : Obligations.RunReturnsTheMachinesResult := by
  refine ⟨fun fuel i s r h => ?_, fun fuel i k s u h hk hrun => ⟨fun hst => ?_, fun kind pc hst => ?_⟩⟩
  · obtain ⟨k, u, hk, hrun, hu⟩ := exists_run_of_runMachine h
    exact ⟨k, u, hk, hrun, (MachineState.result_eq_some_iff _ r).1 hu⟩
  · exact runMachine_of_run h hk hrun ((MachineState.result_eq_some_iff _ _).2 (.inl ⟨hst, rfl⟩))
  · exact runMachine_of_run h hk hrun ((MachineState.result_eq_some_iff _ _).2 (.inr ⟨kind, pc, hst, rfl⟩))

end Sys2Proof.Machine

/-! ### How a run ends -/

namespace Sys2Proof.Machine

/-- `step` answers `runEnded` exactly where nothing is enabled (R116): no agent's own step answers a fault of the
model. -/
theorem step_runEnded_iff {s : State} (hp : s.problem = none) :
    (∃ e, step s = .fault (.runEnded e)) ↔ s.someEnabled = false := by
  cases hs : s.someEnabled with
  | false =>
    have hend : runEnd s = some s.classifyEnd := by simp [runEnd, hs]
    exact iff_of_true ⟨_, step_ended hp hend⟩ rfl
  | true =>
    have hlive : runEnd s = none := by simp [runEnd, hs]
    refine iff_of_false (fun ⟨e, he⟩ => ?_) nofun
    rw [step_of_live hp hlive] at he
    exact stepEvent_ne_fault _ _ _ he

/-- Settles O52. -/
theorem anUnendedRunHasAStep : Obligations.AnUnendedRunHasAStep :=
  fun s hp => (step_runEnded_iff hp).trans (someEnabled_false s)

/-- The condition of each line of R116's table, and that no line before it matches (log 18). -/
def State.EndLine (s : State) : RunEnd → Prop
  | .aborted => s.aborted = true
  | .faulted => s.aborted = false ∧ s.endsFaulted = true
  | .tornDown => s.aborted = false ∧ s.endsFaulted = false ∧ s.tornDown = true
  | .quiesced => s.aborted = false ∧ s.endsFaulted = false ∧ s.tornDown = false ∧ s.quiesced = true ∧
      s.params.onIdle = .terminate
  | .allHalted => s.stopped = false ∧ s.endsFaulted = false ∧ ∀ m ∈ s.machines, m.status = .halted ∧ m.outbox = []
  | .deadlock => s.stopped = false ∧ s.endsFaulted = false ∧ ¬ ∀ m ∈ s.machines, m.status = .halted ∧ m.outbox = []

/-- The line that classifies an end is the first that matches. -/
theorem State.endLine_classifyEnd (s : State) : s.EndLine s.classifyEnd := by
  fun_cases State.classifyEnd s with
  | case1 ha => exact ha
  | case2 ha hf => exact ⟨by simpa using ha, hf⟩
  | case3 ha hf ht => exact ⟨by simpa using ha, by simpa using hf, ht⟩
  | case4 ha hf ht hq => exact ⟨by simpa using ha, by simpa using hf, by simpa using ht, by simpa using hq⟩
  | case5 ha hf ht hq hh => exact ⟨by simp_all [State.stopped], by simpa using hf, by simpa using hh⟩
  | case6 ha hf ht hq hh => exact ⟨by simp_all [State.stopped], by simpa using hf, by simpa using hh⟩

/-- An end of a run matches its line. -/
theorem endLine_of_runEnd {s : State} {e : RunEnd} (h : runEnd s = some e) : s.EndLine e :=
  (runEnd_some h).2 ▸ s.endLine_classifyEnd

/-- Settles O51: an end's line says its condition, and no line before it matches. -/
theorem endsMeanWhatTheTableSays : Obligations.EndsMeanWhatTheTableSays := by
  intro s
  refine ⟨fun h => ?allHalted, fun h => ?faulted, fun h => ?quiesced, fun h => ?aborted, fun h => ?tornDown,
    fun e h ha => ?abortedFirst, fun e h ha hpolicy hfault hended => ?faultedNext⟩
  case allHalted =>
    obtain ⟨_, _, hall⟩ := endLine_of_runEnd h
    exact hall
  case faulted =>
    obtain ⟨ha, hf⟩ := endLine_of_runEnd h
    exact ⟨ha, (endsFaulted_iff s).1 hf⟩
  case quiesced =>
    obtain ⟨_, _, _, hlatch⟩ := endLine_of_runEnd h
    exact hlatch
  case aborted => exact endLine_of_runEnd h
  case tornDown =>
    obtain ⟨_, _, hlatch⟩ := endLine_of_runEnd h
    exact hlatch
  case abortedFirst =>
    rw [← (runEnd_some h).2, State.classifyEnd, if_pos ha]
  case faultedNext =>
    have hf : s.endsFaulted = true := (endsFaulted_iff s).2 ⟨hpolicy, hfault, hended⟩
    simp [← (runEnd_some h).2, State.classifyEnd, ha, hf]

/-- A Running machine with nothing undelivered that neither has a step nor may be woken by the host waits at IN, on an
empty `Blocking` queue that the host does not feed (R74, R106). -/
theorem State.waits_of_not_enabled {s : State} {i : Nat} (hi : i < s.machines.length)
    (hready : (s.machine i).ready = true) (hstep : s.machineEnabled i = false) (hwake : s.hostMayWake i = false) :
    (∃ t, fetch (s.machine i) = .ok (.inp t)) ∧ s.inputQueue i = [] ∧ s.disciplineOf i = .blocking ∧
      s.hostFeeds (s.inputOf i) = false := by
  have hwait : s.waiting i = true := by simpa [State.machineEnabled, hi, hready] using hstep
  have hfeeds : s.hostFeeds (s.inputOf i) = false := by simpa [State.hostMayWake, hready, hwait] using hwake
  unfold State.waiting at hwait
  split at hwait
  case h_1 t hfetch =>
    obtain ⟨hq, hb⟩ : s.inputQueue i = [] ∧ s.disciplineOf i = .blocking := by simpa using hwait
    exact ⟨⟨t, hfetch⟩, hq, hb, hfeeds⟩
  case h_2 => cases hwait

/-- Where the orchestrator of an accepted system has no step after a fault, faults are isolated (R103). -/
theorem isolate_of_not_orchestratorEnabled {s : State} (hf : s.anyFaulted = true)
    (horch : s.orchestratorEnabled = false) : s.params.faultPolicy = some .isolate := by
  unfold State.orchestratorEnabled at horch
  rw [if_pos hf] at horch
  split at horch
  case h_1 => cases horch
  case h_2 hpolicy => exact hpolicy
  case h_3 => cases horch

/-- Where no machine is Running and the orchestrator has no step, machines that have delivered all end the run in one of
the lines `Faulted` and `AllHalted`. -/
theorem endsFaulted_or_allHalted {s : State} (horch : s.orchestratorEnabled = false)
    (hended : ∀ m ∈ s.machines, m.status ≠ .running) (hout : ∀ m ∈ s.machines, m.outbox = []) :
    s.endsFaulted = true ∨ ∀ m ∈ s.machines, m.status = .halted ∧ m.outbox = [] := by
  by_cases hf : ∃ m ∈ s.machines, ∃ k pc, m.status = .faulted k pc
  · have hany : s.anyFaulted = true := by simpa [State.anyFaulted, isFaulted_iff] using hf
    exact .inl ((endsFaulted_iff s).2 ⟨isolate_of_not_orchestratorEnabled hany horch, hf, hended⟩)
  · refine .inr fun m hm => ⟨?_, hout m hm⟩
    cases hst : m.status with
    | running => exact absurd hst (hended m hm)
    | halted => rfl
    | faulted k pc => exact absurd ⟨m, hm, k, pc, hst⟩ hf

/-- Settles O50: at a `Deadlock` end nothing is undelivered, so that with no machine Running an earlier line would
match, and a Running machine without a step waits. -/
theorem deadlockMeansEveryRunningMachineWaits : Obligations.DeadlockMeansEveryRunningMachineWaits := by
  intro s hinv hend
  obtain ⟨hstop, hnotFaulted, hnotHalted⟩ := endLine_of_runEnd hend
  obtain ⟨horch, hidle⟩ : s.orchestratorEnabled = false ∧ ∀ i < s.machines.length,
      s.machineEnabled i = false ∧ s.deliverEnabled i = false ∧ s.hostMayWake i = false :=
    ((someEnabled_false s).1 (runEnd_some hend).1).resolve_left (by simp [hstop])
  have hout (i : Nat) (hi : i < s.machines.length) : (s.machine i).outbox = [] := by
    obtain ⟨_, hdeliver, _⟩ := hidle i hi
    simpa [State.deliverEnabled] using hdeliver
  refine ⟨?someRunning, fun i hi hrun => ?waits⟩
  case someRunning =>
    by_contra hnone
    have hended (m) (hm : m ∈ s.machines) : m.status ≠ .running := by
      obtain ⟨i, hi, rfl⟩ := State.exists_machine hm
      exact fun hrun => hnone ⟨i, hi, hrun⟩
    have hdelivered (m) (hm : m ∈ s.machines) : m.outbox = [] := by
      obtain ⟨i, hi, rfl⟩ := State.exists_machine hm
      exact hout i hi
    rcases endsFaulted_or_allHalted horch hended hdelivered with hfaulted | hhalted
    · exact Bool.false_ne_true (hnotFaulted.symm.trans hfaulted)
    · exact hnotHalted hhalted
  case waits =>
    have hready : (s.machine i).ready = true := by simp [MachineState.ready, hrun, hout i hi]
    obtain ⟨hstep, _, hwake⟩ := hidle i hi
    obtain ⟨hfetch, hq, hb, hfeeds⟩ := State.waits_of_not_enabled hi hready hstep hwake
    refine ⟨hfetch, hq, hb, fun hhost => ?_⟩
    have hin : s.inputOf i < s.queues.length := input_lt hinv.configured hi
    exact Bool.false_ne_true (hfeeds.symm.trans ((s.hostFeeds_iff _).2 ⟨hin, hhost⟩))

end Sys2Proof.Machine

/-! ### What an instruction step depends on, and steps that commute -/

namespace Sys2Proof.Machine

/-! #### The state after an effect, field by field -/

section Apply
variable (e : Effect) (s : State)

@[simp] theorem Effect.apply_params : (e.apply s).params = s.params := by
  simp [Effect.apply, e.receive_frame s]

@[simp] theorem Effect.apply_machines : (e.apply s).machines = s.machines.set s.cur e.me := by
  simp [Effect.apply, e.receive_frame s]

@[simp] theorem Effect.apply_cur : (e.apply s).cur = s.cur := by
  simp [Effect.apply, e.receive_frame s]

@[simp] theorem Effect.apply_queues_length : (e.apply s).queues.length = s.queues.length := by
  simp [Effect.apply, e.receive_frame s]

@[simp] theorem Effect.apply_inputOf (i : Nat) : (e.apply s).inputOf i = s.inputOf i :=
  State.inputOf_of_params (e.apply_params s) i

theorem Effect.receive_fields : (e.receive s).quiesced = s.quiesced ∧ (e.receive s).aborted = s.aborted ∧
    (e.receive s).tornDown = s.tornDown ∧ (e.receive s).agenda = s.agenda := by
  unfold Effect.receive
  split <;> exact ⟨rfl, rfl, rfl, rfl⟩

@[simp] theorem Effect.apply_aborted : (e.apply s).aborted = s.aborted := by
  simp [Effect.apply, e.receive_fields s]

@[simp] theorem Effect.apply_tornDown : (e.apply s).tornDown = s.tornDown := by
  simp [Effect.apply, e.receive_fields s]

@[simp] theorem Effect.apply_agenda : (e.apply s).agenda = s.agenda := by
  simp [Effect.apply, e.receive_fields s]

/-- Whether the latch `quiesced` survives a delivery list: under `Report` a word for a queue takes it back (R102). -/
def keepsQuiesced (onIdle : OnIdle) (ds : List (Dest × Int)) : Bool :=
  decide (onIdle = .terminate) || ds.all fun dx => decide (dx.1 = .host)

theorem State.quiesced_deliverAll (ds : List (Dest × Int)) (i : Nat) :
    (s.deliverAll i ds).quiesced = (s.quiesced && keepsQuiesced s.params.onIdle ds) := by
  induction ds generalizing s with
  | nil => simp [State.deliverAll, keepsQuiesced]
  | cons dx ds ih =>
    obtain ⟨d, x⟩ := dx
    show ((s.deliver i d x).deliverAll i ds).quiesced = _
    rw [ih, State.deliver_params]
    cases d with
    | host => simp [State.deliver, keepsQuiesced]
    | queue q => by_cases hid : s.params.onIdle = .terminate <;> simp [State.deliver, keepsQuiesced, hid]

@[simp] theorem Effect.apply_quiesced :
    (e.apply s).quiesced = (s.quiesced && keepsQuiesced s.params.onIdle e.sends) := by
  show ((e.receive s).deliverAll s.cur e.sends).quiesced = _
  rw [State.quiesced_deliverAll, (e.receive_fields s).1, (e.receive_frame s).1]

/-- What an effect of the machine that reads queue `c` leaves of queue `q`, holding `vs`: without its head where the
effect takes and the queue is the machine's own (R95). -/
def Effect.leaves (c q : Nat) (vs : List Int) : List Int := if e.takes = true ∧ q = c then vs.tail else vs

theorem Effect.leaves_of_ne {c q : Nat} (vs : List Int) (h : q ≠ c) : e.leaves c q vs = vs :=
  if_neg fun hq => h hq.2

/-- An append goes behind what the receive leaves, where there is a value to take. -/
theorem Effect.leaves_append {c q : Nat} {vs : List Int} (ws : List Int)
    (h : e.takes = true → q = c → vs ≠ []) : e.leaves c q (vs ++ ws) = e.leaves c q vs ++ ws := by
  unfold Effect.leaves
  split
  case isTrue ht => exact List.tail_append_of_ne_nil (h ht.1 ht.2)
  case isFalse => rfl

theorem Effect.queue_receive (q : Nat) : (e.receive s).queue q = e.leaves (s.inputOf s.cur) q (s.queue q) := by
  unfold Effect.receive
  split
  case isTrue ht =>
    by_cases hq : q = s.inputOf s.cur
    · subst hq
      rw [Effect.leaves, if_pos ⟨ht, rfl⟩]
      by_cases hlt : s.inputOf s.cur < s.queues.length
      · exact State.queue_setQueue_self _ hlt
      · simp [State.queue, hlt]
    · rw [e.leaves_of_ne _ hq, State.queue_setQueue_ne _ hq]
  case isFalse ht => rw [Effect.leaves, if_neg fun h => ht h.1]

/-- The words an effect appends to queue `q` of `n` (R93). -/
def Effect.sentTo (n q : Nat) : List Int := if q < n then wordsFor q e.sends else []

/-- Every queue after an effect: what is left of it, then what is sent to it. -/
theorem Effect.queue_apply_eq (q : Nat) :
    (e.apply s).queue q = e.leaves (s.inputOf s.cur) q (s.queue q) ++ e.sentTo s.queues.length q := by
  rw [Effect.queue_apply, Effect.queue_receive, Effect.sentTo]
  split <;> simp

end Apply

/-- A queue that is not its machine's own only grows by an effect. -/
theorem Effect.queue_apply_ne {s : State} {q : Nat} (e : Effect) (h : q ≠ s.inputOf s.cur) :
    (e.apply s).queue q = s.queue q ++ e.sentTo s.queues.length q := by
  rw [Effect.queue_apply_eq, e.leaves_of_ne _ h]

/-- The machine's own queue after an effect. -/
theorem Effect.inputQueue_apply (e : Effect) (s : State) :
    (e.apply s).inputQueue s.cur = e.leaves (s.inputOf s.cur) (s.inputOf s.cur) (s.inputQueue s.cur) ++
      e.sentTo s.queues.length (s.inputOf s.cur) := by
  rw [State.inputQueue, Effect.apply_inputOf, Effect.queue_apply_eq, ← State.inputQueue]

/-! #### One instruction step -/

/-- An instruction step whose effect is known. -/
theorem runInstruction_of_stepEffect {s : State} {e : Effect} (hc : s.cur < s.machines.length)
    (he : s.view.stepEffect = .ok e) : runInstruction s = .next (e.apply s) := by
  rw [runInstruction_effect hc, he, Effect.outcome]

/-- A next state of an instruction step is the state after the effect of what its machine sees. -/
theorem runInstruction_next_cases {s u : State} (hc : s.cur < s.machines.length) (h : runInstruction s = .next u) :
    ∃ e, s.view.stepEffect = .ok e ∧ u = e.apply s := by
  cases he : s.view.stepEffect with
  | error r => rw [runInstruction_effect hc, he] at h; cases h
  | ok e => rw [runInstruction_of_stepEffect hc he] at h; cases h; exact ⟨e, rfl, rfl⟩

/-- Settles O44: states that look alike to the machine give its step one effect, and that effect says what becomes of
the machine, what it takes and what it sends. -/
theorem instructionDependsOnItsOwnMachine : Obligations.InstructionDependsOnItsOwnMachine := by
  intro s s' u hc hc' hcur hp hq hm hi h
  obtain ⟨e, he, rfl⟩ := runInstruction_next_cases hc h
  have hin : s'.inputOf s.cur = s.inputOf s.cur := State.inputOf_of_params hp.symm _
  rw [State.view_congr hcur hp hq hm hi] at he
  refine ⟨e.apply s', runInstruction_of_stepEffect hc' he, ?me, ?input, fun q hne => ⟨e.sentTo s.queues.length q,
    Effect.queue_apply_ne e hne, ?queue⟩, wordsForHost s.cur e.sends, Effect.hostOut_apply e s, ?hostOut⟩
  case me => rw [Effect.me_apply hc, Effect.me_apply hc']
  case input => rw [Effect.inputQueue_apply, hi, hcur, Effect.inputQueue_apply, ← hcur, hq, hin]
  case queue => rw [Effect.queue_apply_ne e (by rwa [← hcur, hin]), hq]
  case hostOut => rw [Effect.hostOut_apply, hcur]

/-! #### The effect of a machine wired to a queue -/

/-- An effect that takes only where there is a value, and sends to queue `q` alone. -/
structure Effect.Wired (e : Effect) (v : View) (q : Nat) : Prop where
  takes : e.takes = true → v.head ≠ none
  sends : ∀ dx ∈ e.sends, dx.1 = .queue q

/-- An effect that takes nothing and sends nothing is wired to any queue. -/
theorem Effect.Wired.of_quiet {e : Effect} (v : View) (q : Nat) (ht : e.takes = false) (hs : e.sends = []) :
    e.Wired v q where
  takes h := by rw [ht] at h; cases h
  sends dx h := by rw [hs] at h; cases h

theorem Effect.store_takes (tgt v : Int) (len : Nat) (m : MachineState) (takes : Bool) :
    (Effect.store tgt v len m takes).takes = takes := by
  unfold Effect.store
  split <;> rfl

theorem Effect.store_sends (tgt v : Int) (len : Nat) (m : MachineState) (takes : Bool) :
    (Effect.store tgt v len m takes).sends = [] := by
  unfold Effect.store
  split <;> rfl

theorem effectStore_wired (f : Int → Int → Int) (a b : ReadOp) (t : WriteOp) (v : View) (q : Nat) :
    (effectStore f a b t v.me).Wired v q := by
  unfold effectStore
  split
  · exact .of_quiet v q (Effect.store_takes ..) (Effect.store_sends ..)
  · exact .of_quiet v q rfl rfl

theorem effectJump_wired (taken : Int → Bool) (a b : ReadOp) (v : View) (q : Nat) :
    (effectJump taken a b v.me).Wired v q := by
  unfold effectJump
  split <;> exact .of_quiet v q rfl rfl

theorem effectArb_wired (a : ReadOp) (v : View) (q : Nat) : (effectArb a v.me).Wired v q := by
  unfold effectArb
  split <;> exact .of_quiet v q rfl rfl

theorem effectInp_wired {v : View} (t : WriteOp) (q : Nat) (h : v.head ≠ none) :
    ∃ e, effectInp t v = .ok e ∧ e.Wired v q := by
  obtain ⟨x, hx⟩ := Option.ne_none_iff_exists'.1 h
  unfold effectInp
  rw [hx]
  exact ⟨_, rfl, fun _ => h, by simp [Effect.store_sends]⟩

theorem effectOut_wired {v : View} {q : Nat} (a : ReadOp)
    (ho : (v.params.machines.getD v.cur {}).output = .queue q) : ∃ e, effectOut a v = .ok e ∧ e.Wired v q := by
  unfold effectOut
  cases hx : readOperand v.me a with
  | none => exact ⟨.fault .invalidAddress v.me, by simp only [hx], .of_quiet v q rfl rfl⟩
  | some x =>
    simp only [hx, ho]
    exact ⟨_, rfl, by simp, by simp⟩

/-- A machine wired to a queue, with a value to take if it is at IN, has an effect, and it is wired likewise. -/
theorem View.stepEffect_wired {v : View} {q : Nat} (ho : (v.params.machines.getD v.cur {}).output = .queue q)
    (hin : ∀ t, fetch v.me = .ok (.inp t) → v.head ≠ none) : ∃ e, v.stepEffect = .ok e ∧ e.Wired v q := by
  unfold View.stepEffect
  cases hf : fetch v.me with
  | error k => exact ⟨_, rfl, .of_quiet v q rfl rfl⟩
  | ok i =>
    cases i with
    | add | mul | lt | eq => exact ⟨_, rfl, effectStore_wired _ _ _ _ v q⟩
    | jnz | jz => exact ⟨_, rfl, effectJump_wired _ _ _ v q⟩
    | arb a => exact ⟨_, rfl, effectArb_wired a v q⟩
    | hlt => exact ⟨_, rfl, .of_quiet v q rfl rfl⟩
    | inp t => exact effectInp_wired t q (hin t hf)
    | out a => exact effectOut_wired a ho

/-- Two views give one effect where they differ in the head of the queue at most, and not at IN. -/
theorem View.stepEffect_congr {v w : View} (hp : v.params = w.params) (hc : v.cur = w.cur) (hq : v.nQueue = w.nQueue)
    (hm : v.me = w.me) (hin : ∀ t, fetch v.me = .ok (.inp t) → v.head = w.head) : v.stepEffect = w.stepEffect := by
  unfold View.stepEffect
  rw [← hm]
  cases hf : fetch v.me with
  | error k => rfl
  | ok i => exact effect_congr_head hp hc hq hm i fun ⟨t, ht⟩ => hin t (ht ▸ hf)

/-! #### The turn of a machine that reads a `Blocking` queue -/

/-- The state in which it is machine `i`'s turn. -/
def State.turn (s : State) (i : Nat) : State := { s with cur := i }

section Turn
variable (s : State) (i : Nat)

@[simp] theorem State.turn_params : (s.turn i).params = s.params := rfl
@[simp] theorem State.turn_machines : (s.turn i).machines = s.machines := rfl
@[simp] theorem State.turn_queues : (s.turn i).queues = s.queues := rfl
@[simp] theorem State.turn_hostOut : (s.turn i).hostOut = s.hostOut := rfl
@[simp] theorem State.turn_quiesced : (s.turn i).quiesced = s.quiesced := rfl
@[simp] theorem State.turn_aborted : (s.turn i).aborted = s.aborted := rfl
@[simp] theorem State.turn_tornDown : (s.turn i).tornDown = s.tornDown := rfl
@[simp] theorem State.turn_cur : (s.turn i).cur = i := rfl
@[simp] theorem State.turn_agenda : (s.turn i).agenda = s.agenda := rfl
@[simp] theorem State.turn_inputOf (j : Nat) : (s.turn i).inputOf j = s.inputOf j := rfl
@[simp] theorem State.turn_queue (q : Nat) : (s.turn i).queue q = s.queue q := rfl

end Turn

/-- When a machine that reads a `Blocking` queue has an instruction step: it is ready, and at IN there is a value to
take (R60, R74, R98). -/
theorem State.machineEnabled_iff {s : State} {i : Nat} (hb : s.disciplineOf i = .blocking) :
    s.machineEnabled i = true ↔ i < s.machines.length ∧ (s.machine i).ready = true ∧
      ∀ t, fetch (s.machine i) = .ok (.inp t) → s.inputQueue i ≠ [] := by
  have hwait : s.waiting i = false ↔ ∀ t, fetch (s.machine i) = .ok (.inp t) → s.inputQueue i ≠ [] := by
    unfold State.waiting
    split
    case h_1 t hf => simp [hf, hb]
    case h_2 hno => exact iff_of_true rfl fun t hf => absurd hf (hno t)
  simp [State.machineEnabled, hwait, and_assoc]

/-- What the effect `e` is to machine `i` in state `s`: its step has that effect, takes only a value that is there, and
sends to queue `q` alone. -/
structure State.StepsBy (s : State) (i q : Nat) (e : Effect) : Prop where
  effect : (s.turn i).view.stepEffect = .ok e
  step   : machineStep i s = .next (e.apply (s.turn i))
  takes  : e.takes = true → s.inputQueue i ≠ []
  sends  : ∀ dx ∈ e.sends, dx.1 = .queue q

/-- The step of a machine that has one, and whose effect is known. -/
theorem machineStep_of_stepEffect {s : State} {i : Nat} {e : Effect} (hi : i < s.machines.length)
    (hr : (s.machine i).ready = true) (he : (s.turn i).view.stepEffect = .ok e) :
    machineStep i s = .next (e.apply (s.turn i)) :=
  (if_pos ⟨hi, hr⟩).trans (runInstruction_of_stepEffect (s := s.turn i) hi he)

/-- The head that the machine whose turn it is sees. -/
theorem State.view_turn_head_ne_none {s : State} {i : Nat} :
    (s.turn i).view.head ≠ none ↔ s.inputQueue i ≠ [] :=
  not_congr List.head?_eq_none_iff

/-- An enabled machine wired to a queue has an effect. -/
theorem State.exists_stepsBy {s : State} {i q : Nat} (ho : s.outputOf i = .queue q)
    (hb : s.disciplineOf i = .blocking) (hen : s.machineEnabled i = true) : ∃ e, s.StepsBy i q e := by
  obtain ⟨hi, hr, hin⟩ := (State.machineEnabled_iff hb).1 hen
  obtain ⟨e, he, hwired⟩ := View.stepEffect_wired (v := (s.turn i).view) ho
    fun t ht => State.view_turn_head_ne_none.2 (hin t ht)
  exact ⟨e, he, machineStep_of_stepEffect hi hr he, fun ht => State.view_turn_head_ne_none.1 (hwired.takes ht),
    hwired.sends⟩

/-! #### Another machine's turn in between -/

section Other
variable {s : State} {i j : Nat} (e : Effect)

theorem Effect.machine_apply_turn_ne (hij : j ≠ i) : (e.apply (s.turn i)).machine j = s.machine j := by
  simp [State.machine, Ne.symm hij]

theorem Effect.inputQueue_apply_turn_ne (hin : s.inputOf j ≠ s.inputOf i) :
    (e.apply (s.turn i)).inputQueue j = s.inputQueue j ++ e.sentTo s.queues.length (s.inputOf j) := by
  rw [State.inputQueue, State.inputOf_of_params (e.apply_params _)]
  exact Effect.queue_apply_ne e hin

/-- Machine `i`'s turn disables no other machine's step: it takes nothing of its queue (R42, R114). -/
theorem Effect.machineEnabled_apply_turn (hij : j ≠ i) (hin : s.inputOf j ≠ s.inputOf i)
    (hb : s.disciplineOf j = .blocking) (hen : s.machineEnabled j = true) :
    (e.apply (s.turn i)).machineEnabled j = true := by
  have hb' : (e.apply (s.turn i)).disciplineOf j = .blocking := by
    rw [State.disciplineOf_of_params (e.apply_params _)]; exact hb
  obtain ⟨hj, hr, hq⟩ := (State.machineEnabled_iff hb).1 hen
  refine (State.machineEnabled_iff hb').2 ⟨by simpa using hj, ?_⟩
  rw [e.machine_apply_turn_ne hij, e.inputQueue_apply_turn_ne hin]
  exact ⟨hr, fun t ht => by simp [hq t ht]⟩

/-- Machine `i`'s turn leaves the effect of machine `j`'s step: where `j` looks at the head of its queue, there is one,
and an append leaves it. -/
theorem Effect.machineStep_apply_turn {f : Effect} (hij : j ≠ i) (hin : s.inputOf j ≠ s.inputOf i)
    (hb : s.disciplineOf j = .blocking) (hen : s.machineEnabled j = true)
    (hf : (s.turn j).view.stepEffect = .ok f) :
    machineStep j (e.apply (s.turn i)) = .next (f.apply ((e.apply (s.turn i)).turn j)) := by
  obtain ⟨hj, hr, hq⟩ := (State.machineEnabled_iff hb).1 hen
  have hm : (e.apply (s.turn i)).machine j = s.machine j := e.machine_apply_turn_ne hij
  refine machineStep_of_stepEffect (by simpa using hj) (hm ▸ hr) (Eq.trans ?_ hf)
  refine View.stepEffect_congr (e.apply_params _) rfl (e.apply_queues_length _) hm fun t ht => ?_
  have hne : s.inputQueue j ≠ [] := hq t (hm ▸ ht)
  show ((e.apply (s.turn i)).inputQueue j).head? = (s.inputQueue j).head?
  rw [e.inputQueue_apply_turn_ne hin, List.head?_append_of_ne_nil _ hne]

end Other

/-! #### Either order -/

/-- A state's queues are what is read of them. -/
theorem State.queues_ext {s t : State} (hl : s.queues.length = t.queues.length) (h : ∀ q, s.queue q = t.queue q) :
    s.queues = t.queues :=
  List.ext_getElem hl fun q hq hq' => by simpa [State.queue, hq, hq'] using h q

/-- Two states are one but for whose turn it is where every other field agrees. -/
theorem State.turn_ext {s t : State} (i : Nat) (hp : s.params = t.params) (hm : s.machines = t.machines)
    (hq : s.queues = t.queues) (ho : s.hostOut = t.hostOut) (hqu : s.quiesced = t.quiesced)
    (hab : s.aborted = t.aborted) (ht : s.tornDown = t.tornDown) (hag : s.agenda = t.agenda) : s.turn i = t.turn i := by
  simp only [State.turn, hp, hm, hq, ho, hqu, hab, ht, hag]

/-- What is sent to one queue alone is sent to no other. -/
theorem Effect.sentTo_eq_nil {e : Effect} {p q : Nat} (n : Nat) (h : ∀ dx ∈ e.sends, dx.1 = .queue p) (hq : q ≠ p) :
    e.sentTo n q = [] := by
  unfold Effect.sentTo
  split
  · refine List.filterMap_eq_nil_iff.2 fun dx hdx => if_neg ?_
    rw [h dx hdx]
    exact fun heq => hq (Dest.queue.inj heq).symm
  · rfl

theorem wordsForHost_eq_nil {ds : List (Dest × Int)} {q : Nat} (i : Nat) (h : ∀ dx ∈ ds, dx.1 = .queue q) :
    wordsForHost i ds = [] :=
  List.filterMap_eq_nil_iff.2 fun dx hdx => if_neg (by simp [h dx hdx])

section Commute
variable {s : State} {i j qi qj : Nat} {e f : Effect} (he : s.StepsBy i qi e) (hf : s.StepsBy j qj f)
include he hf

/-- A queue that is not machine `j`'s own, after either order: machine `i`'s receive leaves what is appended, and one
of the two machines at most appends. -/
theorem State.StepsBy.queue_comm (hq : qi ≠ qj) {q : Nat} (hne : q ≠ s.inputOf j) :
    (f.apply ((e.apply (s.turn i)).turn j)).queue q = (e.apply ((f.apply (s.turn j)).turn i)).queue q := by
  have hsent : e.sentTo s.queues.length q = [] ∨ f.sentTo s.queues.length q = [] := by
    by_cases h : q = qi
    · exact .inr (Effect.sentTo_eq_nil _ hf.sends (h ▸ hq))
    · exact .inl (Effect.sentTo_eq_nil _ he.sends h)
  have hvalue : e.takes = true → q = s.inputOf i → s.queue q ≠ [] := fun ht heq => heq ▸ he.takes ht
  simp only [Effect.queue_apply_eq, State.turn_cur, State.turn_inputOf, State.turn_queue, State.turn_queues,
    Effect.apply_inputOf, Effect.apply_queues_length, f.leaves_of_ne _ hne, e.leaves_append _ hvalue]
  rcases hsent with h | h <;> simp [h]

/-- Two machines wired to two queues lead to one state in either order, but for whose turn it was. -/
theorem State.StepsBy.apply_comm (hij : i ≠ j) (hin : s.inputOf i ≠ s.inputOf j) (hq : qi ≠ qj) :
    (f.apply ((e.apply (s.turn i)).turn j)).turn 0 = (e.apply ((f.apply (s.turn j)).turn i)).turn 0 := by
  refine State.turn_ext 0 ?params ?machines ?queues ?hostOut ?quiesced ?aborted ?tornDown ?agenda
  case machines => simpa using List.set_comm _ _ hij
  case queues =>
    refine State.queues_ext (by simp) fun q => ?_
    by_cases h : q = s.inputOf j
    · exact (hf.queue_comm he hq.symm (h ▸ hin.symm)).symm
    · exact he.queue_comm hf hq h
  case hostOut => simp [Effect.hostOut_apply, wordsForHost_eq_nil _ he.sends, wordsForHost_eq_nil _ hf.sends]
  case quiesced => simpa using Bool.and_right_comm _ _ _
  all_goals simp

end Commute

/-- Settles O45: each machine's effect is the same before and after the other's turn, and the two effects commute. -/
theorem wiredMachinesCommute : Obligations.WiredMachinesCommute := by
  intro s i j qi qj hij hin hq hoi hoj hbi hbj hei hej
  obtain ⟨e, he⟩ := State.exists_stepsBy hoi hbi hei
  obtain ⟨f, hf⟩ := State.exists_stepsBy hoj hbj hej
  exact ⟨_, _, _, _, he.step, e.machineStep_apply_turn hij.symm hin.symm hbj hej hf.effect, hf.step,
    f.machineStep_apply_turn hij hin hbi hei he.effect, e.machineEnabled_apply_turn hij.symm hin.symm hbj hej,
    f.machineEnabled_apply_turn hij hin hbi hei, he.apply_comm hf hij hin hq⟩

end Sys2Proof.Machine
